-- ==== Sys2Proof/Word.lean ====
section
/-! DEFINITION. Words and the count type of the AK block. A Word is an unsigned integer of `W` bits (00_scope.md R6,
glossary "Word"). The width is a parameter of the configuration, so the model holds a Word as a natural number (`Nat`), and
`State.wf` says that every stored Word is below `B = 2^W` (log entry 7). -/

namespace Sys2Proof

/-- A count (00_scope.md R18): a natural number or the one value `infinite`. -/
inductive Count where
  | finite (n : Nat)
  | infinite
deriving DecidableEq, Repr

end Sys2Proof
end

