-- ==== Sys2Proof/Config.lean ====
section
/-! DEFINITION. The parameters of the AK block (00_scope.md R6): `W`, `CAP` and `INFDIV_ERR`. -/

namespace Sys2Proof

/-- The Word widths the spec offers (00_scope.md R6: one of 8, 16, 32, 64). -/
inductive Width where
  | w8 | w16 | w32 | w64
deriving DecidableEq, Repr

/-- A Word width in bits. -/
def Width.bits : Width → Nat
  | .w8 => 8
  | .w16 => 16
  | .w32 => 32
  | .w64 => 64

/-- One configuration of the block. Values outside the ranges of 00_scope.md R6 cannot be written down
(93_implementation_defined.md V10: no such configuration is specified): `CAP` is held as `CAP - 2` below 63. -/
structure Config where
  /-- the Word width `W` -/
  width : Width
  /-- `CAP - 2`, so that `2 <= CAP <= 64` -/
  capMinus2 : Fin 63
  /-- `INFDIV_ERR`: the own error bit of an infinite dividend over a finite divisor (46_divide.md R184) -/
  infdivErr : Bool
deriving DecidableEq, Repr

/-- `W`, the width of a Word in bits. -/
def Config.W (c : Config) : Nat := c.width.bits

/-- `B = 2^W` (00_scope.md R6). -/
def Config.B (c : Config) : Nat := 2 ^ c.W

/-- `CAP`, the capacity of a value register's body in Words. -/
def Config.CAP (c : Config) : Nat := c.capMinus2.val + 2

/-- The configuration the spec's examples use: `W = 8`, `CAP = 16`, `INFDIV_ERR = 0` (00_scope.md R6).
DESIGN CHOICE (log entry 1): the three parameters are open, `State.reset` has these values; no statement rests on them. -/
def Config.standard : Config := { width := .w8, capMinus2 := 14, infdivErr := false }

end Sys2Proof
end

