-- ==== Sys2Proof/Syntax.lean ====
section
/-! DEFINITION. The commands of the AK block: one constructor per row of spec/opcode_table.json
(30_encoding.md R76). -/

namespace Sys2Proof

/-- A value register number 0..15 (10_state.md R20). -/
abbrev RegNum := Fin 16

/-- A reciprocal slot number 0..3 (10_state.md R30). -/
abbrev SlotNum := Fin 4

/-- The size field `n` of a systems type: the type has `N = n + 1` Words (30_encoding.md R71). -/
abbrev Size := Fin 64

/-- A type descriptor (00_scope.md R8). A systems type has a size; an arbitrary type has none, which is why
`arb = 1` with `n != 0` cannot be written (30_encoding.md R80 item 4). -/
inductive Ty where
  /-- `uN` (`sgn = false`) or `sN` (`sgn = true`) with `N = n + 1` Words -/
  | sys (sgn : Bool) (n : Size)
  /-- `ux` (`sgn = false`) or `sx` (`sgn = true`) -/
  | arb (sgn : Bool)
deriving DecidableEq, Repr

/-- The element widths of an access command (30_encoding.md R73). -/
inductive View where
  | v8 | v16 | v32 | v64
deriving DecidableEq, Repr

/-- The element width `V` in bits. -/
def View.bits : View → Nat
  | .v8 => 8
  | .v16 => 16
  | .v32 => 32
  | .v64 => 64

/-- The commands. Operand order is the assembler's (30_encoding.md R85): type, destinations, sources, modifier.
A command that only takes systems types has the fields `sgn n`, one that only takes `uN` the field `n`. -/
inductive Instr where
  -- Word Model (40_word_model.md)
  | init (t : Ty) (r : RegNum)
  | wrw (t : Ty) (r : RegNum) (vw : View) (idx : BitVec 12)
  | wrapp (sgn : Bool) (r : RegNum) (bit : Bool)
  | rdw (t : Ty) (r : RegNum) (vw : View) (idx : BitVec 12)
  | rdbit (t : Ty) (r : RegNum) (idx : BitVec 12)
  | rdlen (r : RegNum)
  | rdapp (t : Ty) (r : RegNum)
  | rde (r : RegNum)
  | cnt (t : Ty) (rd ra : RegNum) (bit : Bool)
  | asc (t : Ty) (rd ra : RegNum) (bit : Bool)
  | dsc (t : Ty) (rd ra : RegNum) (bit : Bool)
  | bswap (sgn : Bool) (n : Size) (rd ra : RegNum)
  | cvt (ts td : Ty) (rd ra : RegNum)
  -- Overflow Contract (41_overflow_contract.md)
  | veto (rd ra : RegNum) (b : Bool)
  | unwrap (rd ra : RegNum)
  | feq (t : Ty) (ra rb : RegNum)
  | gnz (t : Ty) (ra : RegNum)
  | gnat (t : Ty) (ra : RegNum)
  | gfin (t : Ty) (ra : RegNum)
  -- Adder (42_adder.md)
  | add (t : Ty) (rd ra rb : RegNum)
  | sub (t : Ty) (rd ra rb : RegNum)
  -- Complement/Magnitude Engine (43_complement.md)
  | bnot (t : Ty) (rd ra : RegNum)
  | cpl (t : Ty) (rd ra : RegNum) (inc : Bool)
  | mag (t : Ty) (rd ra : RegNum)
  -- Shift Engine (44_shift.md)
  | shl (t : Ty) (rd ra rb : RegNum)
  | shr (t : Ty) (rd ra rb : RegNum)
  | shlm (sgn : Bool) (n : Size) (rd ra rb : RegNum)
  | shrm (sgn : Bool) (n : Size) (rd ra rb : RegNum)
  -- Multiplication Engine (45_multiply.md)
  | mul (t : Ty) (rd ra rb : RegNum)
  | mulf (sgn : Bool) (n : Size) (rd ra rb : RegNum)
  | sqr (t : Ty) (rd ra : RegNum)
  -- Division Engine (46_divide.md)
  | div (t : Ty) (rd re ra rb : RegNum)
  | div21 (sgn : Bool) (n : Size) (rd re ra rb : RegNum)
  -- Reciprocal Divider (47_reciprocal.md)
  | rcpset (n : Size) (slot : SlotNum) (ra : RegNum)
  | rcpdiv (n : Size) (rd re ra : RegNum) (slot : SlotNum)
  | rcp21set (n : Size) (slot : SlotNum) (ra : RegNum)
  | rcp21div (n : Size) (rd re ra : RegNum) (slot : SlotNum)
  | rcprd (rd re : RegNum) (slot : SlotNum)
  -- Status and configuration (40_word_model.md)
  | rdstat
  | rdcfg (idx : BitVec 12)
deriving DecidableEq, Repr

end Sys2Proof
end

