-- ==== Sys2Proof/WellFormed.lean ====
section
/-! DEFINITION. The conditions of 30_encoding.md R80 that the shape of `Instr` does not already rule out: item 6
(sizes against `CAP`), item 7 (element width against `W`) and item 9 (two destinations that differ). -/

namespace Sys2Proof

/-- The type's body fits a register: `N <= CAP` for a systems type (30_encoding.md R71). -/
def Ty.fits (c : Config) : Ty → Bool
  | .sys _ n => decide (n.val + 1 ≤ c.CAP)
  | .arb _ => true

/-- A Doublet of the size fits a register: `2N <= CAP` (30_encoding.md R71). -/
def Size.doubletFits (c : Config) (n : Size) : Bool := decide (2 * (n.val + 1) ≤ c.CAP)

/-- 30_encoding.md R80 item 6 does not apply. -/
def Instr.sizesFit (c : Config) : Instr → Bool
  | .init t _ | .wrw t _ _ _ | .rdw t _ _ _ | .rdbit t _ _ | .rdapp t _ => t.fits c
  | .cnt t _ _ _ | .asc t _ _ _ | .dsc t _ _ _ => t.fits c
  | .bswap sgn n _ _ => (Ty.sys sgn n).fits c
  | .cvt ts td _ _ => ts.fits c && td.fits c
  | .feq t _ _ | .gnz t _ | .gnat t _ | .gfin t _ => t.fits c
  | .add t _ _ _ | .sub t _ _ _ | .bnot t _ _ | .cpl t _ _ _ | .mag t _ _ => t.fits c
  | .shl t _ _ _ | .shr t _ _ _ => t.fits c
  | .shlm sgn n _ _ _ | .shrm sgn n _ _ _ => (Ty.sys sgn n).fits c
  | .mul t _ _ _ | .sqr t _ _ | .div t _ _ _ _ => t.fits c
  | .mulf _ n _ _ _ | .div21 _ n _ _ _ _ => Size.doubletFits c n
  | .rcpset n _ _ | .rcpdiv n _ _ _ _ => (Ty.sys false n).fits c
  | .rcp21set n _ _ | .rcp21div n _ _ _ _ => Size.doubletFits c n
  | .wrapp _ _ _ | .rdlen _ | .rde _ | .veto _ _ _ | .unwrap _ _ => true
  | .rcprd _ _ _ | .rdstat | .rdcfg _ => true

/-- 30_encoding.md R80 item 7 does not apply: `V <= W` in `WRW` and `RDW`. -/
def Instr.viewFits (c : Config) : Instr → Bool
  | .wrw _ _ vw _ | .rdw _ _ vw _ => decide (vw.bits ≤ c.W)
  | _ => true

/-- 30_encoding.md R80 item 9 does not apply: a command with two destination registers names two. -/
def Instr.destsDiffer : Instr → Bool
  | .div _ rd re _ _ | .div21 _ _ rd re _ _ => decide (rd ≠ re)
  | .rcpdiv _ rd re _ _ | .rcp21div _ rd re _ _ | .rcprd rd re _ => decide (rd ≠ re)
  | _ => true

/-- The command is legal under the configuration (30_encoding.md R80). -/
def Instr.wellFormed (c : Config) (i : Instr) : Bool :=
  i.sizesFit c && i.viewFits c && i.destsDiffer

end Sys2Proof
end

