-- ==== Sys2Proof/Decode.lean ====
section
/-! DEFINITION. The decoder of command words, the encoder, and the host's `decodeTableWord`
(30_encoding.md R70 to R76, R80; 60_exceptions.md R222). -/

namespace Sys2Proof

/-- A command word (30_encoding.md R70): 32 bits, bit 0 least significant. -/
abbrev Cmd := BitVec 32

/-- Why a command word is illegal: the nine conditions of 30_encoding.md R80, in their order. -/
inductive Reject where
  /-- item 1: the opcode is not in the map -/
  | opcode
  /-- item 2: a field the command does not use is not 0 -/
  | unusedField
  /-- item 3: an untyped command with `sgn`, `arb` or `n` not 0 -/
  | untypedDescriptor
  /-- item 4: `arb = 1` with `n != 0`, or `darb = 1` with `dn != 0` -/
  | arbitrarySize
  /-- item 5: a kind of type the command does not take -/
  | typeKind
  /-- item 6: `N`, `2N` or `M` above `CAP` -/
  | sizeOverCapacity
  /-- item 7: `V > W` -/
  | viewOverWord
  /-- item 8: `m = 0b11` in opcode 0x10 or 0x12 -/
  | modifier
  /-- item 9: `rd = re` in a command with two destinations -/
  | sameDestination
deriving DecidableEq, Repr

/-- The opcodes of 30_encoding.md R76. `contract` (0x10) and `guard` (0x12) carry several mnemonics. -/
inductive Op where
  | init | wrw | wrapp | rdw | rdbit | rdlen | rdapp | rde | cnt | asc | dsc | bswap | cvt
  | contract | feq | guard | add | sub | bnot | cpl | mag | shl | shr | shlm | shrm
  | mul | mulf | sqr | div | div21 | rcpset | rcpdiv | rcp21set | rcp21div | rcprd | rdstat | rdcfg
deriving DecidableEq, Repr

/-- The opcode map of 30_encoding.md R76, in its order. -/
def opcodeMap : List (Nat × Op) :=
  [(0x01, .init), (0x02, .wrw), (0x03, .wrapp), (0x04, .rdw), (0x05, .rdbit), (0x06, .rdlen),
   (0x07, .rdapp), (0x08, .rde), (0x09, .cnt), (0x0A, .asc), (0x0B, .dsc), (0x0C, .bswap), (0x0D, .cvt),
   (0x10, .contract), (0x11, .feq), (0x12, .guard), (0x14, .add), (0x15, .sub), (0x18, .bnot), (0x19, .cpl),
   (0x1A, .mag), (0x1C, .shl), (0x1D, .shr), (0x1E, .shlm), (0x1F, .shrm), (0x20, .mul), (0x21, .mulf),
   (0x22, .sqr), (0x24, .div), (0x25, .div21), (0x28, .rcpset), (0x29, .rcpdiv), (0x2A, .rcp21set),
   (0x2B, .rcp21div), (0x2C, .rcprd), (0x30, .rdstat), (0x31, .rdcfg)]

/-- The opcode of a code, if it is assigned. -/
def Op.ofCode (code : Nat) : Option Op := (opcodeMap.find? (fun p => p.1 == code)).map (·.2)

/-- The code of an opcode. -/
def Op.code (o : Op) : Nat := ((opcodeMap.find? (fun p => p.2 == o)).map (·.1)).getD 0

/-! ## Fields -/

/-- `cmd[hi:lo]` as an unsigned integer (00_scope.md R10). -/
def slice (w : Cmd) (hi lo : Nat) : Nat := w.toNat / 2 ^ lo % 2 ^ (hi + 1 - lo)

/-- `cmd[i]`. -/
def bitAt (w : Cmd) (i : Nat) : Bool := decide (slice w i i = 1)

/-- The 4-bit register field whose low bit is `lo`. -/
def regAt (w : Cmd) (lo : Nat) : RegNum := Fin.ofNat 16 (slice w (lo + 3) lo)

/-- The 2-bit slot field whose low bit is `lo`. -/
def slotAt (w : Cmd) (lo : Nat) : SlotNum := Fin.ofNat 4 (slice w (lo + 1) lo)

/-- The 6-bit size field whose low bit is `lo`. -/
def sizeAt (w : Cmd) (lo : Nat) : Size := Fin.ofNat 64 (slice w (lo + 5) lo)

/-- The index field `cmd[31:20]` of format X (30_encoding.md R73). -/
def idxOf (w : Cmd) : BitVec 12 := BitVec.ofNat 12 (slice w 31 20)

/-- The element width of a code `vw` (30_encoding.md R73: `V = 8 * 2^vw`). -/
def View.ofCode (code : Nat) : View :=
  match code with
  | 0 => .v8
  | 1 => .v16
  | 2 => .v32
  | _ => .v64

/-- The code `vw` of an element width. -/
def View.code : View → Nat
  | .v8 => 0
  | .v16 => 1
  | .v32 => 2
  | .v64 => 3

/-! ## Decoding -/

/-- A decode check: pass, or reject by name. -/
def require (ok : Bool) (why : Reject) : Except Reject Unit := if ok then .ok () else .error why

/-- `cmd[hi:lo]` is unused and must be 0 (30_encoding.md R72, R80 item 2). -/
def unused (w : Cmd) (hi lo : Nat) : Except Reject Unit := require (slice w hi lo == 0) .unusedField

/-- The untyped command's descriptor must be 0 (30_encoding.md R71, R80 item 3). -/
def untyped (w : Cmd) : Except Reject Unit := require (slice w 13 6 == 0) .untypedDescriptor

/-- A type from its three fields: an arbitrary type has size field 0 (30_encoding.md R80 item 4). -/
def tyOf (sgn arb : Bool) (n : Size) : Except Reject Ty :=
  if arb then (do require (n == 0) .arbitrarySize; return .arb sgn) else .ok (.sys sgn n)

/-- The type descriptor of a command that takes all four kinds. -/
def typed (w : Cmd) : Except Reject Ty := tyOf (bitAt w 6) (bitAt w 7) (sizeAt w 8)

/-- The type descriptor of a command that takes systems kinds only (30_encoding.md R80 item 5). -/
def systemsOnly (w : Cmd) : Except Reject (Bool × Size) := do
  require (!bitAt w 7) .typeKind
  return (bitAt w 6, sizeAt w 8)

/-- The type descriptor of a command that takes `uN` only (30_encoding.md R80 item 5). -/
def unsignedOnly (w : Cmd) : Except Reject Size := do
  require (!bitAt w 7 && !bitAt w 6) .typeKind
  return sizeAt w 8

/-- The type descriptor of a command that takes arbitrary kinds only (30_encoding.md R80 items 4, 5). -/
def arbitraryOnly (w : Cmd) : Except Reject Bool := do
  require (bitAt w 7) .typeKind
  require (sizeAt w 8 == 0) .arbitrarySize
  return bitAt w 6

/-- The fields of each opcode (30_encoding.md R72 to R74 and the columns "fields used" and "zero" of R76). -/
def parseOp (o : Op) (w : Cmd) : Except Reject Instr :=
  match o with
  | .init => do unused w 31 18; return .init (← typed w) (regAt w 14)
  | .wrw => do return .wrw (← typed w) (regAt w 14) (View.ofCode (slice w 19 18)) (idxOf w)
  | .wrapp => do unused w 19 18; unused w 31 21; return .wrapp (← arbitraryOnly w) (regAt w 14) (bitAt w 20)
  | .rdw => do return .rdw (← typed w) (regAt w 14) (View.ofCode (slice w 19 18)) (idxOf w)
  | .rdbit => do unused w 19 18; return .rdbit (← typed w) (regAt w 14) (idxOf w)
  | .rdlen => do untyped w; unused w 31 18; return .rdlen (regAt w 14)
  | .rdapp => do unused w 31 18; return .rdapp (← typed w) (regAt w 14)
  | .rde => do untyped w; unused w 31 18; return .rde (regAt w 14)
  | .cnt => do
    unused w 21 18; unused w 29 26; unused w 31 31
    return .cnt (← typed w) (regAt w 14) (regAt w 22) (bitAt w 30)
  | .asc => do
    unused w 21 18; unused w 29 26; unused w 31 31
    return .asc (← typed w) (regAt w 14) (regAt w 22) (bitAt w 30)
  | .dsc => do
    unused w 21 18; unused w 29 26; unused w 31 31
    return .dsc (← typed w) (regAt w 14) (regAt w 22) (bitAt w 30)
  | .bswap => do
    unused w 21 18; unused w 31 26
    let (sgn, n) ← systemsOnly w
    return .bswap sgn n (regAt w 14) (regAt w 22)
  | .cvt => do
    unused w 31 30
    let ts ← typed w
    let td ← tyOf (bitAt w 28) (bitAt w 29) (sizeAt w 22)
    return .cvt ts td (regAt w 14) (regAt w 18)
  | .contract => do
    untyped w; unused w 21 18; unused w 29 26
    match slice w 31 30 with
    | 0 => return .veto (regAt w 14) (regAt w 22) false
    | 1 => return .veto (regAt w 14) (regAt w 22) true
    | 2 => return .unwrap (regAt w 14) (regAt w 22)
    | _ => .error .modifier
  | .feq => do unused w 21 14; unused w 31 30; return .feq (← typed w) (regAt w 22) (regAt w 26)
  | .guard => do
    unused w 21 14; unused w 29 26
    let t ← typed w
    match slice w 31 30 with
    | 0 => return .gnz t (regAt w 22)
    | 1 => return .gnat t (regAt w 22)
    | 2 => return .gfin t (regAt w 22)
    | _ => .error .modifier
  | .add => do unused w 21 18; unused w 31 30; return .add (← typed w) (regAt w 14) (regAt w 22) (regAt w 26)
  | .sub => do unused w 21 18; unused w 31 30; return .sub (← typed w) (regAt w 14) (regAt w 22) (regAt w 26)
  | .bnot => do unused w 21 18; unused w 31 26; return .bnot (← typed w) (regAt w 14) (regAt w 22)
  | .cpl => do
    unused w 21 18; unused w 29 26; unused w 31 31
    return .cpl (← typed w) (regAt w 14) (regAt w 22) (bitAt w 30)
  | .mag => do unused w 21 18; unused w 31 26; return .mag (← typed w) (regAt w 14) (regAt w 22)
  | .shl => do unused w 21 18; unused w 31 30; return .shl (← typed w) (regAt w 14) (regAt w 22) (regAt w 26)
  | .shr => do unused w 21 18; unused w 31 30; return .shr (← typed w) (regAt w 14) (regAt w 22) (regAt w 26)
  | .shlm => do
    unused w 21 18; unused w 31 30
    let (sgn, n) ← systemsOnly w
    return .shlm sgn n (regAt w 14) (regAt w 22) (regAt w 26)
  | .shrm => do
    unused w 21 18; unused w 31 30
    let (sgn, n) ← systemsOnly w
    return .shrm sgn n (regAt w 14) (regAt w 22) (regAt w 26)
  | .mul => do unused w 21 18; unused w 31 30; return .mul (← typed w) (regAt w 14) (regAt w 22) (regAt w 26)
  | .mulf => do
    unused w 21 18; unused w 31 30
    let (sgn, n) ← systemsOnly w
    return .mulf sgn n (regAt w 14) (regAt w 22) (regAt w 26)
  | .sqr => do unused w 21 18; unused w 31 26; return .sqr (← typed w) (regAt w 14) (regAt w 22)
  | .div => do
    unused w 31 30
    return .div (← typed w) (regAt w 14) (regAt w 18) (regAt w 22) (regAt w 26)
  | .div21 => do
    unused w 31 30
    let (sgn, n) ← systemsOnly w
    return .div21 sgn n (regAt w 14) (regAt w 18) (regAt w 22) (regAt w 26)
  | .rcpset => do
    unused w 17 14; unused w 21 20; unused w 31 26
    return .rcpset (← unsignedOnly w) (slotAt w 18) (regAt w 22)
  | .rcpdiv => do
    unused w 31 28
    return .rcpdiv (← unsignedOnly w) (regAt w 14) (regAt w 18) (regAt w 22) (slotAt w 26)
  | .rcp21set => do
    unused w 17 14; unused w 21 20; unused w 31 26
    return .rcp21set (← unsignedOnly w) (slotAt w 18) (regAt w 22)
  | .rcp21div => do
    unused w 31 28
    return .rcp21div (← unsignedOnly w) (regAt w 14) (regAt w 18) (regAt w 22) (slotAt w 26)
  | .rcprd => do
    untyped w; unused w 25 22; unused w 31 28
    return .rcprd (regAt w 14) (regAt w 18) (slotAt w 26)
  | .rdstat => do untyped w; unused w 31 14; return .rdstat
  | .rdcfg => do untyped w; unused w 19 14; return .rdcfg (idxOf w)

/-- The command a word spells, before the conditions that depend on the configuration
(30_encoding.md R80 items 1 to 5 and 8). -/
def parse (w : Cmd) : Except Reject Instr :=
  match Op.ofCode (slice w 5 0) with
  | some o => parseOp o w
  | none => .error .opcode

/-- The conditions of 30_encoding.md R80 on a parsed command: items 6, 7 and 9. -/
def admissible (c : Config) (i : Instr) : Except Reject Unit := do
  require (i.sizesFit c) .sizeOverCapacity
  require (i.viewFits c) .viewOverWord
  require i.destsDiffer .sameDestination

/-- The decoder (60_exceptions.md R222): it depends on the word and on `W` and `CAP` only, and answers with a command
or with the reason the word is illegal. -/
def decode (c : Config) (w : Cmd) : Except Reject Instr := do
  let i ← parse w
  admissible c i
  return i

/-! ## Encoding -/

/-- The low 14 bits of every format (30_encoding.md R71). -/
def packType (o : Op) (sgn arb : Bool) (n : Nat) : Nat :=
  o.code + sgn.toNat * 2 ^ 6 + arb.toNat * 2 ^ 7 + n * 2 ^ 8

/-- The low 14 bits of a typed command. -/
def packTy (o : Op) : Ty → Nat
  | .sys sgn n => packType o sgn false n.val
  | .arb sgn => packType o sgn true 0

/-- Format R (30_encoding.md R72). -/
def packR (low rd re ra rb m : Nat) : Cmd :=
  BitVec.ofNat 32 (low + rd * 2 ^ 14 + re * 2 ^ 18 + ra * 2 ^ 22 + rb * 2 ^ 26 + m * 2 ^ 30)

/-- Format X (30_encoding.md R73). -/
def packX (low r vw idx : Nat) : Cmd :=
  BitVec.ofNat 32 (low + r * 2 ^ 14 + vw * 2 ^ 18 + idx * 2 ^ 20)

/-- Format C (30_encoding.md R74). -/
def packC (low rd ra dn : Nat) (dsgn darb : Bool) : Cmd :=
  BitVec.ofNat 32 (low + rd * 2 ^ 14 + ra * 2 ^ 18 + dn * 2 ^ 22 + dsgn.toNat * 2 ^ 28 + darb.toNat * 2 ^ 29)

/-- The command word of an instruction (30_encoding.md R71 to R76). -/
def encode : Instr → Cmd
  | .init t r => packX (packTy .init t) r 0 0
  | .wrw t r vw idx => packX (packTy .wrw t) r vw.code idx.toNat
  | .wrapp sgn r bit => packX (packTy .wrapp (.arb sgn)) r 0 bit.toNat
  | .rdw t r vw idx => packX (packTy .rdw t) r vw.code idx.toNat
  | .rdbit t r idx => packX (packTy .rdbit t) r 0 idx.toNat
  | .rdlen r => packX (packType .rdlen false false 0) r 0 0
  | .rdapp t r => packX (packTy .rdapp t) r 0 0
  | .rde r => packX (packType .rde false false 0) r 0 0
  | .cnt t rd ra bit => packR (packTy .cnt t) rd 0 ra 0 bit.toNat
  | .asc t rd ra bit => packR (packTy .asc t) rd 0 ra 0 bit.toNat
  | .dsc t rd ra bit => packR (packTy .dsc t) rd 0 ra 0 bit.toNat
  | .bswap sgn n rd ra => packR (packTy .bswap (.sys sgn n)) rd 0 ra 0 0
  | .cvt ts (.sys dsgn dn) rd ra => packC (packTy .cvt ts) rd ra dn dsgn false
  | .cvt ts (.arb dsgn) rd ra => packC (packTy .cvt ts) rd ra 0 dsgn true
  | .veto rd ra b => packR (packType .contract false false 0) rd 0 ra 0 b.toNat
  | .unwrap rd ra => packR (packType .contract false false 0) rd 0 ra 0 2
  | .feq t ra rb => packR (packTy .feq t) 0 0 ra rb 0
  | .gnz t ra => packR (packTy .guard t) 0 0 ra 0 0
  | .gnat t ra => packR (packTy .guard t) 0 0 ra 0 1
  | .gfin t ra => packR (packTy .guard t) 0 0 ra 0 2
  | .add t rd ra rb => packR (packTy .add t) rd 0 ra rb 0
  | .sub t rd ra rb => packR (packTy .sub t) rd 0 ra rb 0
  | .bnot t rd ra => packR (packTy .bnot t) rd 0 ra 0 0
  | .cpl t rd ra inc => packR (packTy .cpl t) rd 0 ra 0 inc.toNat
  | .mag t rd ra => packR (packTy .mag t) rd 0 ra 0 0
  | .shl t rd ra rb => packR (packTy .shl t) rd 0 ra rb 0
  | .shr t rd ra rb => packR (packTy .shr t) rd 0 ra rb 0
  | .shlm sgn n rd ra rb => packR (packTy .shlm (.sys sgn n)) rd 0 ra rb 0
  | .shrm sgn n rd ra rb => packR (packTy .shrm (.sys sgn n)) rd 0 ra rb 0
  | .mul t rd ra rb => packR (packTy .mul t) rd 0 ra rb 0
  | .mulf sgn n rd ra rb => packR (packTy .mulf (.sys sgn n)) rd 0 ra rb 0
  | .sqr t rd ra => packR (packTy .sqr t) rd 0 ra 0 0
  | .div t rd re ra rb => packR (packTy .div t) rd re ra rb 0
  | .div21 sgn n rd re ra rb => packR (packTy .div21 (.sys sgn n)) rd re ra rb 0
  | .rcpset n slot ra => packR (packTy .rcpset (.sys false n)) 0 slot ra 0 0
  | .rcpdiv n rd re ra slot => packR (packTy .rcpdiv (.sys false n)) rd re ra slot 0
  | .rcp21set n slot ra => packR (packTy .rcp21set (.sys false n)) 0 slot ra 0 0
  | .rcp21div n rd re ra slot => packR (packTy .rcp21div (.sys false n)) rd re ra slot 0
  | .rcprd rd re slot => packR (packType .rcprd false false 0) rd re 0 slot 0
  | .rdstat => packX (packType .rdstat false false 0) 0 0 0
  | .rdcfg idx => packX (packType .rdcfg false false 0) 0 0 idx.toNat

/-- The host's question about one row of the opcode table: the command the decoder reads from the word `w`, of which
the table gives `nbits` bits, under the configuration `State.reset` has. -/
def decodeTableWord (nbits w : Nat) : Option Instr :=
  (decode .standard (BitVec.ofNat 32 (w % 2 ^ nbits))).toOption

end Sys2Proof
end

