-- ==== Sys2Proof/Machine/State.lean ====
section
/-! DEFINITION. The architectural state of the AK block (10_state.md), the outputs and inputs of its command port,
and the reset state. -/

namespace Sys2Proof.Machine

/-- A value register (10_state.md R20): the record `(len, app, body, E)`. `len` is the length of `body`: Words at
positions `len` and above are not state (R21). -/
structure Reg where
  /-- the stored Words, least significant first -/
  body : List Nat
  /-- the appendix bit, which extends the stored Words for ever -/
  app : Bool
  /-- the error flag `E` -/
  err : Bool
deriving DecidableEq, Repr

/-- A reciprocal slot (10_state.md R30). -/
structure Slot where
  /-- whether the slot holds anything -/
  valid : Bool
  /-- `false`: a Divider; `true`: a Divider21 -/
  k21 : Bool
  /-- `N`, the size in Words of the divisor's type -/
  size : Nat
  /-- `div`, the divisor -/
  divisor : Nat
  /-- `mul`, the multiplier -/
  mul : Nat
  /-- `add`, the addIndicator -/
  add : Bool
  /-- `shift`, the shiftAmount -/
  shift : Nat
  /-- `e`, the error flag of the register the divisor was read from -/
  err : Bool
deriving DecidableEq, Repr

/-- What the host does at the command port (20_memory.md R62). -/
inductive HostAction where
  /-- present one command word with its data-in Word -/
  | command (cmd : BitVec 32) (din : Nat)
  /-- apply reset (70_reset_and_hazards.md R250) -/
  | reset
deriving DecidableEq, Repr

/-- The seven fault causes (60_exceptions.md R220). -/
inductive Cause where
  | illegal | operand | slot | finite | divzero | index | capacity
deriving DecidableEq, Repr

/-- The state of the block and its port. -/
structure State where
  /-- the parameters of the configuration (00_scope.md R6): constants, which no step changes (log entry 1) -/
  cfg : Config
  /-- the value registers `x[0]` to `x[15]` (10_state.md R20) -/
  regs : Vector Reg 16
  /-- the reciprocal slots `S[0]` to `S[3]` (10_state.md R30) -/
  slots : Vector Slot 4
  /-- `STATUS.FAULT` (10_state.md R35) -/
  fault : Bool
  /-- `STATUS.FCAUSE` (10_state.md R35) -/
  fcause : BitVec 3
  /-- the response output `dout` of the last command (10_state.md R27; log entry 3) -/
  dout : Nat
  /-- the response output `nil` of the last command (10_state.md R27; log entry 3) -/
  nil : Bool
  /-- the data-in Word of the command in hand (30_encoding.md R70; log entry 3) -/
  din : Nat
  /-- what the host does next, oldest first (70_reset_and_hazards.md R262; log entry 2) -/
  input : List HostAction
deriving DecidableEq, Repr

/-- Reasons for a step to end in `Host.Outcome.fault`: there is none. A fault of the block (60_exceptions.md R221)
is a next state, with `STATUS` written; the spec names no condition under which the block has no next state. Safe. -/
inductive Fault
deriving DecidableEq, Repr

/-- Reasons for a step to be refused. -/
inductive Refusal where
  /-- An instruction of the opcode table that has no meaning yet: raised by an arm of `exec` only, and by none of
  them now. Safe: a refusal proves nothing about the block. -/
  | notModelled (mnemonic : String)
deriving DecidableEq, Repr

/-- A value register after reset (10_state.md R41). -/
def resetReg : Reg := { body := [], app := false, err := false }

/-- A reciprocal slot after reset (10_state.md R42). DESIGN CHOICE (log entry 4): the fields beside `valid` are
unspecified and unobservable; the model holds 0 in them. -/
def resetSlot : Slot :=
  { valid := false, k21 := false, size := 0, divisor := 0, mul := 0, add := false, shift := 0, err := false }

/-- The block of configuration `c` right after reset (10_state.md R41 to R43, 70_reset_and_hazards.md R250), with
`input` still to come from the host. -/
def resetState (c : Config) (input : List HostAction) : State :=
  { cfg := c
    regs := Vector.replicate 16 resetReg
    slots := Vector.replicate 4 resetSlot
    fault := false
    fcause := 0
    dout := 0
    nil := false
    din := 0
    input := input }

/-- The machine right after reset, in the configuration of the spec's examples (log entry 1), with nothing presented
at the port (log entry 2). -/
def State.reset : State := resetState .standard []

end Sys2Proof.Machine
end

