-- ==== Sys2Proof/Machine/Operands.lean ====
section
/-! DEFINITION. Reading operands: Words, integers, counts, effective bits and elements of a value register
(00_scope.md R13 to R18, 20_memory.md R52 to R55). -/

namespace Sys2Proof.Machine

/-! ## Word sequences -/

/-- The number whose Words, least significant first, are the list (00_scope.md R13 `nat`, 20_memory.md R52). -/
def natOf (b : Nat) : List Nat → Nat
  | [] => 0
  | w :: ws => w + b * natOf b ws

/-- The low `n` Words of a number, least significant first. -/
def wordsOf (b : Nat) : Nat → Nat → List Nat
  | 0, _ => []
  | n + 1, u => u % b :: wordsOf b n (u / b)

/-- The number whose bits, least significant first, are the list. -/
def natOfBits (bits : List Bool) : Nat := natOf 2 (bits.map Bool.toNat)

/-- `u[hi:lo]` for a field of `len` bits from bit `lo` up (00_scope.md R10). -/
def bitsFrom (u lo len : Nat) : Nat := u / 2 ^ lo % 2 ^ len

/-- `u` with the `len` bits from bit `lo` up replaced by the low `len` bits of `d` (20_memory.md R56). -/
def replaceBits (u lo len d : Nat) : Nat :=
  u % 2 ^ lo + d % 2 ^ len * 2 ^ lo + u / 2 ^ (lo + len) * 2 ^ (lo + len)

/-- A Word sequence without its top Words equal to `e`. -/
def trimTop (e : Nat) : List Nat → List Nat
  | [] => []
  | w :: ws =>
    match trimTop e ws with
    | [] => if w = e then [] else [w]
    | v :: vs => w :: v :: vs

/-! ## Registers and types -/

/-- The number of stored Words (10_state.md R20 `len`). -/
def Reg.len (r : Reg) : Nat := r.body.length

/-- `N`: the Words of a systems type's size field (30_encoding.md R71). -/
def words (n : Size) : Nat := n.val + 1

/-- `L = N*W`: the bits of a systems type (00_scope.md R8). -/
def bitLen (c : Config) (n : Size) : Nat := words n * c.W

/-- `ext(a)`: the appendix-extension Word (00_scope.md R13). -/
def extWord (c : Config) (a : Bool) : Nat := if a then c.B - 1 else 0

/-- `word(r, i)` (00_scope.md R13). -/
def word (c : Config) (r : Reg) (i : Nat) : Nat := r.body.getD i (extWord c r.app)

/-- `nat(r)` (00_scope.md R13). -/
def Reg.nat (c : Config) (r : Reg) : Nat := natOf c.B r.body

/-- `int(r)`: the infinite two's-complement reading (00_scope.md R13). -/
def Reg.int (c : Config) (r : Reg) : Int := (r.nat c : Int) - (if r.app then (c.B : Int) ^ r.len else 0)

/-- The two's-complement reading of an `l`-bit number (00_scope.md R14). -/
def signedOf (l u : Nat) : Int := if u.testBit (l - 1) then (u : Int) - 2 ^ l else u

/-! ## Operand fetch -/

/-- The length check of 10_state.md R23: `len = N` exactly. -/
def sysnat (c : Config) (r : Reg) (n : Nat) : Except Cause Nat :=
  if r.len = n then .ok (r.nat c) else .error .operand

/-- `opnd(r, T)` (00_scope.md R14): the integer read, and whether it is an infinite `ux` value. -/
def opnd (c : Config) (t : Ty) (r : Reg) : Except Cause (Int × Bool) :=
  match t with
  | .sys sgn n => do
    let u ← sysnat c r (words n)
    return (if sgn then signedOf (bitLen c n) u else (u : Int), false)
  | .arb sgn => return (r.int c, !sgn && r.app)

/-- The length check that a read under a type makes before anything else (10_state.md R23). -/
def checkLen (t : Ty) (r : Reg) : Except Cause Unit :=
  match t with
  | .sys _ n => if r.len = words n then .ok () else .error .operand
  | .arb _ => .ok ()

/-- The effective appendix of a register that has passed the length check (00_scope.md R15). -/
def effAppOf (c : Config) (t : Ty) (r : Reg) : Bool :=
  match t with
  | .sys sgn n => sgn && (r.nat c).testBit (bitLen c n - 1)
  | .arb _ => r.app

/-- The effective bit `i` of a register that has passed the length check (00_scope.md R15). -/
def effBitOf (c : Config) (t : Ty) (r : Reg) (i : Nat) : Bool :=
  match t with
  | .sys _ n => if i < bitLen c n then (r.nat c).testBit i else effAppOf c t r
  | .arb _ => (word c r (i / c.W)).testBit (i % c.W)

/-- `effapp(r, T)` (00_scope.md R15). -/
def effApp (c : Config) (t : Ty) (r : Reg) : Except Cause Bool := do
  checkLen t r
  return effAppOf c t r

/-- `effbit(r, T, i)` (00_scope.md R15). -/
def effBit (c : Config) (t : Ty) (r : Reg) (i : Nat) : Except Cause Bool := do
  checkLen t r
  return effBitOf c t r i

/-- `elemrd(r, T, V, k)` (20_memory.md R55): bit `j` of the element is effective bit `V*k + j`. -/
def elemRd (c : Config) (t : Ty) (r : Reg) (v k : Nat) : Except Cause Nat := do
  checkLen t r
  return natOfBits ((List.range v).map fun j => effBitOf c t r (v * k + j))

/-! ## Counts -/

/-- `rdcnt(r)` (00_scope.md R18): every record with appendix 1 is the infinite count. -/
def rdCount (c : Config) (r : Reg) : Count := if r.app then .infinite else .finite (r.nat c)

/-- The bits a systems or a stored arbitrary pattern has: `L`, or `W * len` (40_word_model.md R108). -/
def storedBits (c : Config) (t : Ty) (r : Reg) : Nat :=
  match t with
  | .sys _ n => bitLen c n
  | .arb _ => c.W * r.len

/-- The number of bits equal to `bit` (40_word_model.md R108). -/
def countOf (c : Config) (t : Ty) (r : Reg) (bit : Bool) : Count :=
  let stored := Count.finite ((List.range (storedBits c t r)).countP fun i => effBitOf c t r i == bit)
  match t with
  | .sys _ _ => stored
  | .arb _ => if effAppOf c t r = bit then .infinite else stored

/-- The length of the run of bits equal to `bit` from bit 0 upward (40_word_model.md R109). For an arbitrary type the
first bit above the stored Words is the appendix, so the search need not go further. -/
def ascendingOf (c : Config) (t : Ty) (r : Reg) (bit : Bool) : Count :=
  match t with
  | .sys _ n =>
    .finite (((List.range (bitLen c n)).find? fun i => effBitOf c t r i != bit).getD (bitLen c n))
  | .arb _ =>
    match (List.range (storedBits c t r + 1)).find? fun i => effBitOf c t r i != bit with
    | some i => .finite i
    | none => .infinite

/-- The length of the run of bits equal to `bit` from the most significant end downward (40_word_model.md R110). -/
def descendingOf (c : Config) (t : Ty) (r : Reg) (bit : Bool) : Count :=
  match t with
  | .sys _ n => .finite ((List.range (bitLen c n)).reverse.takeWhile fun i => effBitOf c t r i == bit).length
  | .arb _ => if effAppOf c t r = bit then .infinite else .finite 0

end Sys2Proof.Machine
end

