-- ==== Sys2Proof/Machine/Flags.lean ====
section
/-! DEFINITION. The error flags: the domain test and each command's own overflow bit (00_scope.md R16, R19;
41_overflow_contract.md R129). -/

namespace Sys2Proof.Machine

/-- `indom(v, T)`: the integer is in the domain of the type (00_scope.md R9, R16). -/
def indom (c : Config) (t : Ty) (v : Int) : Bool :=
  match t with
  | .sys false n => decide (0 ≤ v ∧ v < 2 ^ bitLen c n)
  | .sys true n => decide (-2 ^ (bitLen c n - 1) ≤ v ∧ v < 2 ^ (bitLen c n - 1))
  | .arb true => true
  | .arb false => decide (0 ≤ v)

/-- The own error bit of an arithmetic command whose true result is `v`: the result is outside the domain
(42_adder.md R140, R141; 45_multiply.md R170, R172; 46_divide.md R185). -/
def overflows (c : Config) (t : Ty) (v : Int) : Bool := !indom c t v

/-- The integer is the least value of a signed systems type (43_complement.md R151, R152). -/
def isLeast (c : Config) (t : Ty) (v : Int) : Bool :=
  match t with
  | .sys true n => decide (v = -2 ^ (bitLen c n - 1))
  | _ => false

/-- The own error bit of `CVT` (40_word_model.md R112): the destination does not hold the same value. -/
def conversionLoses (c : Config) (td : Ty) (v : Int) (inf : Bool) : Bool :=
  match td with
  | .arb false => !inf && decide (v < 0)
  | _ => inf || !indom c td v

/-- The own error bit of `DIV` on two finite operands with true quotient `q` (46_divide.md R180). -/
def quotientOverflows (c : Config) (t : Ty) (q : Int) : Bool :=
  match t with
  | .sys _ _ => !indom c t q
  | .arb _ => false

end Sys2Proof.Machine
end

