-- ==== Sys2Proof/Machine/Ops.lean ====
section
/-! DEFINITION. The named operations over the state: reading and writing registers and slots, building records
(00_scope.md R17, R18; 20_memory.md R56), the response (R11), taking a fault (60_exceptions.md R221) and the reset that
is the only way out of one (70_reset_and_hazards.md R250), and the frame in which every command runs (R219, R223). -/

namespace Sys2Proof.Machine

/-- The three outcomes of a step. -/
abbrev Result := Host.Outcome State Fault Refusal

/-! ## Access to the state -/

/-- `x[r]` (00_scope.md R11). -/
def State.reg (s : State) (r : RegNum) : Reg := s.regs[r]

/-- `S[k]` (00_scope.md R11). -/
def State.slot (s : State) (k : SlotNum) : Slot := s.slots[k]

/-- `x[r] <- rec` (00_scope.md R11). -/
def State.setReg (s : State) (r : RegNum) (v : Reg) : State := { s with regs := s.regs.set r v }

/-- `S[k] <- rec` (10_state.md R31: a slot is written whole and at once). -/
def State.setSlot (s : State) (k : SlotNum) (v : Slot) : State := { s with slots := s.slots.set k v }

/-- `resp(d, z)` (00_scope.md R11). -/
def State.answer (s : State) (d : Nat) (z : Bool) : State := { s with dout := d, nil := z }

/-- A command that writes one register and answers `(0, 0)`. -/
def State.write (s : State) (rd : RegNum) (v : Reg) : State := (s.setReg rd v).answer 0 false

/-- A command that writes two registers and answers `(d, 0)`. The two differ in every legal command
(30_encoding.md R80 item 9). -/
def State.write2 (s : State) (rd : RegNum) (v : Reg) (re : RegNum) (v' : Reg) (d : Nat) : State :=
  ((s.setReg rd v).setReg re v').answer d false

/-- A bit as a Word: `zext_W`. -/
def bitWord (b : Bool) : Nat := b.toNat

/-! ## Building records -/

/-- `sysrec(N, v, e)` (00_scope.md R17): the low `N` Words of the pattern of `v`. -/
def sysrec (c : Config) (n : Nat) (v : Int) (e : Bool) : Reg :=
  { body := wordsOf c.B n (v % 2 ^ (n * c.W)).toNat, app := false, err := e }

/-- `n` Words and an appendix hold the pattern of `v` (00_scope.md R17, `arbrec`). -/
def fitsWords (c : Config) (v : Int) (n : Nat) : Bool :=
  if 0 ≤ v then decide (v < (c.B : Int) ^ n) else decide (-((c.B : Int) ^ n) ≤ v)

/-- `arbrec(v, e)` (00_scope.md R17): the least number of Words that holds the pattern of `v`, or a capacity fault. -/
def arbrec (c : Config) (v : Int) (e : Bool) : Except Cause Reg :=
  match (List.range (c.CAP + 1)).find? (fitsWords c v) with
  | none => .error .capacity
  | some n =>
    .ok { body := wordsOf c.B n (v % (c.B : Int) ^ n).toNat, app := decide (v < 0), err := e }

/-- `res(T, v, e)` (00_scope.md R17). -/
def res (c : Config) (t : Ty) (v : Int) (e : Bool) : Except Cause Reg :=
  match t with
  | .sys _ n => .ok (sysrec c (words n) v e)
  | .arb _ => arbrec c v e

/-- `cntrec(c, e)` (00_scope.md R18). -/
def cntrec (c : Config) (k : Count) (e : Bool) : Except Cause Reg :=
  match k with
  | .infinite => .ok { body := [], app := true, err := e }
  | .finite n => arbrec c n e

/-- `elemwr(r, T, V, k, d)` (20_memory.md R56): the record with one element replaced. -/
def elemWr (c : Config) (t : Ty) (r : Reg) (v k d : Nat) : Except Cause Reg :=
  match t with
  | .sys _ n => do
    let u ← sysnat c r (words n)
    if v * (k + 1) > bitLen c n then .error .index
    else return { r with body := wordsOf c.B (words n) (replaceBits u (v * k) v d) }
  | .arb _ =>
    let wi := v * k / c.W
    if wi ≥ c.CAP then .error .capacity
    else
      let grown := (List.range (max r.len (wi + 1))).map (word c r)
      let written := grown.set wi (replaceBits (word c r wi) (v * k % c.W) v d)
      .ok { r with body := trimTop (extWord c r.app) written }

/-! ## Integer helpers -/

/-- `tdiv(a, b)`: division truncated toward zero (00_scope.md R10, 46_divide.md R179). -/
def tdiv (a b : Int) : Int := Int.tdiv a b

/-- `trem(a, b) = a - tdiv(a, b) * b` (00_scope.md R10). -/
def trem (a b : Int) : Int := a - tdiv a b * b

/-- `floor(a / 2^d)` (44_shift.md R161), without building `2^d` for a distance above every bit of `a`. -/
def floorShift (a : Int) (d : Nat) : Int :=
  if a.natAbs.log2 < d then (if a < 0 then -1 else 0) else a / 2 ^ d

/-- The constants of a reciprocal divider for a divisor `d >= 1` and dividends of `ll` bits (47_reciprocal.md R201):
multiplier, add flag, shift amount. -/
def rcpConst (d ll : Nat) : Nat × Bool × Nat :=
  let k := d.log2
  if d = 2 ^ k then (2 ^ ll - 1, true, ll + k)
  else
    let t := 2 ^ (ll + k) / d
    let rem := 2 ^ (ll + k) - t * d
    if d - rem ≤ 2 ^ k then (t + 1, false, ll + k) else (t, true, ll + k)

/-! ## Faults, the command frame and the port -/

/-- `STATUS.FCAUSE` of a cause (60_exceptions.md R220). -/
def Cause.code : Cause → BitVec 3
  | .illegal => 1
  | .operand => 2
  | .slot => 3
  | .finite => 4
  | .divzero => 5
  | .index => 6
  | .capacity => 7

/-- Fault entry (60_exceptions.md R221): `STATUS` is written, the response is `(0, 0)`, nothing else changes. -/
def State.raise (s : State) (k : Cause) : State :=
  { s with fault := true, fcause := k.code, dout := 0, nil := false }

/-- Reset by the host (70_reset_and_hazards.md R250): the only exit from the fault state (60_exceptions.md R231).
The configuration is no state, and what the host does next is not the block's. -/
def State.hostReset (s : State) (rest : List HostAction) : State := resetState s.cfg rest

/-- A command word in the fault state (60_exceptions.md R221): nothing changes, the answer is `(0, 0)`. -/
def State.ignore (s : State) : State := s.answer 0 false

/-- The frame of every command but `RDSTAT` and `RDCFG` (60_exceptions.md R219, R221, R223): ignored in the fault
state; otherwise its checks and results, computed from the state before it, end in one next state or in one fault. -/
def command (s : State) (body : Except Cause State) : Result :=
  if s.fault then .next s.ignore
  else
    match body with
    | .ok t => .next t
    | .error k => .next (s.raise k)

/-- A check of a command (60_exceptions.md R223). -/
def check (ok : Bool) (k : Cause) : Except Cause Unit := if ok then .ok () else .error k

/-- An illegal command word (60_exceptions.md R222). -/
def execIllegal (s : State) : Result := command s (.error .illegal)

/-- The host presents a command (70_reset_and_hazards.md R262): `din` is `W` wires wide, and the rest of what the
host does is still to come. -/
def State.present (s : State) (din : Nat) (rest : List HostAction) : State :=
  { s with din := din % s.cfg.B, input := rest }

/-! ## Shapes shared by several commands -/

/-- A command with two operands of one type and one result of that type, defined on finite operands only
(42_adder.md R140, R141; 45_multiply.md R170). -/
def binaryFinite (f : Int → Int → Int) (t : Ty) (rd ra rb : RegNum) (s : State) : Result :=
  command s do
    let (a, ia) ← opnd s.cfg t (s.reg ra)
    let (b, ib) ← opnd s.cfg t (s.reg rb)
    check (!ia && !ib) .finite
    let own := overflows s.cfg t (f a b)
    return s.write rd (← res s.cfg t (f a b) ((s.reg ra).err || (s.reg rb).err || own))

/-- A command with one operand and one result of that type, defined on infinite operands too
(43_complement.md R150 to R152). -/
def unary (f : Int → Int) (own : Int → Bool) (t : Ty) (rd ra : RegNum) (s : State) : Result :=
  command s do
    let (a, _) ← opnd s.cfg t (s.reg ra)
    return s.write rd (← res s.cfg t (f a) ((s.reg ra).err || own a))

/-- A command that writes a count of its operand's bits (40_word_model.md R108 to R110). -/
def counting (count : Reg → Count) (t : Ty) (rd ra : RegNum) (s : State) : Result :=
  command s do
    checkLen t (s.reg ra)
    return s.write rd (← cntrec s.cfg (count (s.reg ra)) (s.reg ra).err)

/-- A masked shift (44_shift.md R162, R163): the finite distance is reduced modulo the type's size. -/
def maskedShift (f : Int → Nat → Int) (sgn : Bool) (n : Size) (rd ra rb : RegNum) (s : State) : Result :=
  command s do
    let (a, _) ← opnd s.cfg (.sys sgn n) (s.reg ra)
    match rdCount s.cfg (s.reg rb) with
    | .infinite => .error .finite
    | .finite d =>
      return s.write rd
        (sysrec s.cfg (words n) (f a (d % bitLen s.cfg n)) ((s.reg ra).err || (s.reg rb).err))

/-- Construction of a Divider or a Divider21 (47_reciprocal.md R200, R203): a zero divisor answers `nil`. -/
def rcpConstruct (k21 : Bool) (n : Size) (k : SlotNum) (ra : RegNum) (s : State) : Result :=
  command s do
    let d ← sysnat s.cfg (s.reg ra) (words n)
    if d = 0 then return s.answer 0 true
    else
      let (mul, add, shift) := rcpConst d (if k21 then 2 * bitLen s.cfg n else bitLen s.cfg n)
      return (s.setSlot k { valid := true, k21, size := words n, divisor := d, mul, add, shift,
                            err := (s.reg ra).err }).answer 0 false

/-- `floor((x*mul + (mul if add else 0)) / 2^shift)` (47_reciprocal.md R202, R204). -/
def rcpQuotient (k : Slot) (x : Nat) : Nat := (x * k.mul + (if k.add then k.mul else 0)) / 2 ^ k.shift

/-- Application of a Divider or a Divider21 (47_reciprocal.md R202, R204): the dividend has `N` or `2N` Words, the
quotient and the remainder `N`. -/
def rcpApply (k21 : Bool) (n : Size) (rd re ra : RegNum) (k : SlotNum) (s : State) : Result :=
  command s do
    let x ← sysnat s.cfg (s.reg ra) (if k21 then 2 * words n else words n)
    let d := s.slot k
    check (d.valid && d.k21 == k21 && d.size == words n) .slot
    let q := rcpQuotient d x
    let own := k21 && decide (2 ^ bitLen s.cfg n ≤ q)
    let e := (s.reg ra).err || d.err || own
    return s.write2 rd (sysrec s.cfg (words n) q e) re
      (sysrec s.cfg (words n) ((x : Int) - q * d.divisor) e) 0

end Sys2Proof.Machine
end

