-- ==== Sys2Proof/Machine/Adder.lean ====
section
/-! DEFINITION. The meanings of the adder's commands (42_adder.md). -/

namespace Sys2Proof.Machine

/-- `ADD` (42_adder.md R140). -/
def execAdd (t : Ty) (rd ra rb : RegNum) (s : State) : Result :=
  binaryFinite (fun a b => a + b) t rd ra rb s

/-- `SUB` (42_adder.md R141). -/
def execSub (t : Ty) (rd ra rb : RegNum) (s : State) : Result :=
  binaryFinite (fun a b => a - b) t rd ra rb s

end Sys2Proof.Machine
end

