-- ==== Sys2Proof/Machine/Complement.lean ====
section
/-! DEFINITION. The meanings of the Complement/Magnitude Engine's commands (43_complement.md). -/

namespace Sys2Proof.Machine

/-- `NOT` (43_complement.md R150): `-a - 1` is the integer whose pattern is the inverse of `a`'s. -/
def execNot (t : Ty) (rd ra : RegNum) (s : State) : Result :=
  unary (fun a => -a - 1) (fun _ => false) t rd ra s

/-- `CPL` (43_complement.md R151). -/
def execCpl (t : Ty) (rd ra : RegNum) (inc : Bool) (s : State) : Result :=
  unary (fun a => -a - 1 + (if inc then 1 else 0)) (fun a => inc && isLeast s.cfg t a) t rd ra s

/-- The type is signed (00_scope.md R8). -/
def signed : Ty → Bool
  | .sys sgn _ => sgn
  | .arb sgn => sgn

/-- `MAG` (43_complement.md R152): `isNegative` is false for every unsigned type. -/
def execMag (t : Ty) (rd ra : RegNum) (s : State) : Result :=
  unary (fun a => if signed t && decide (a < 0) then -a else a) (fun a => isLeast s.cfg t a) t rd ra s

end Sys2Proof.Machine
end

