-- ==== Sys2Proof/Machine/Contract.lean ====
section
/-! DEFINITION. The meanings of the Overflow Contract commands (41_overflow_contract.md). -/

namespace Sys2Proof.Machine

/-- `VETO` (41_overflow_contract.md R130). -/
def execVeto (rd ra : RegNum) (b : Bool) (s : State) : Result :=
  command s do
    let a := s.reg ra
    return s.write rd { a with err := a.err || b }

/-- `UNWRAP` (41_overflow_contract.md R131). -/
def execUnwrap (rd ra : RegNum) (s : State) : Result :=
  command s do return s.write rd { s.reg ra with err := false }

/-- `FEQ` (41_overflow_contract.md R132). -/
def execFeq (t : Ty) (ra rb : RegNum) (s : State) : Result :=
  command s do
    let (a, _) ← opnd s.cfg t (s.reg ra)
    let (b, _) ← opnd s.cfg t (s.reg rb)
    return s.answer (bitWord (decide (a = b) && (s.reg ra).err == (s.reg rb).err)) false

/-- `GNZ` (41_overflow_contract.md R133). -/
def execGnz (t : Ty) (ra : RegNum) (s : State) : Result :=
  command s do
    let (v, _) ← opnd s.cfg t (s.reg ra)
    return s.answer 0 (decide (v = 0))

/-- `GNAT` (41_overflow_contract.md R134). -/
def execGnat (t : Ty) (ra : RegNum) (s : State) : Result :=
  command s do return s.answer 0 (← effApp s.cfg t (s.reg ra))

/-- `GFIN` (41_overflow_contract.md R135). -/
def execGfin (t : Ty) (ra : RegNum) (s : State) : Result :=
  command s do
    let (_, inf) ← opnd s.cfg t (s.reg ra)
    return s.answer 0 inf

end Sys2Proof.Machine
end

