-- ==== Sys2Proof/Machine/Divide.lean ====
section
/-! DEFINITION. The meanings of the Division Engine's commands (46_divide.md). -/

namespace Sys2Proof.Machine

/-- Quotient, remainder and own error bit of `DIV` (46_divide.md R180, R183, R184) for a dividend and a divisor of
which at most one is infinite and the divisor, when finite, is not 0. -/
def divide (c : Config) (t : Ty) (a : Int) (ia : Bool) (b : Int) (ib : Bool) : Int × Int × Bool :=
  if ib then (0, a, false)
  else if ia then (tdiv a b, trem a b, c.infdivErr)
  else (tdiv a b, trem a b, quotientOverflows c t (tdiv a b))

/-- `DIV` (46_divide.md R180). -/
def execDiv (t : Ty) (rd re ra rb : RegNum) (s : State) : Result :=
  command s do
    let (a, ia) ← opnd s.cfg t (s.reg ra)
    let (b, ib) ← opnd s.cfg t (s.reg rb)
    check (!(ia && ib)) .finite
    check (ib || b != 0) .divzero
    let (q, r, own) := divide s.cfg t a ia b ib
    let e := (s.reg ra).err || (s.reg rb).err || own
    let vq ← res s.cfg t q e
    let vr ← res s.cfg t r e
    return s.write2 rd vq re vr 0

/-- `DIV21` (46_divide.md R185): the dividend is a Doublet of the type. -/
def execDiv21 (sgn : Bool) (n : Size) (rd re ra rb : RegNum) (s : State) : Result :=
  command s do
    let ua ← sysnat s.cfg (s.reg ra) (2 * words n)
    let a : Int := if sgn then signedOf (2 * bitLen s.cfg n) ua else ua
    let (b, _) ← opnd s.cfg (.sys sgn n) (s.reg rb)
    check (b != 0) .divzero
    let q := tdiv a b
    let e := (s.reg ra).err || (s.reg rb).err || overflows s.cfg (.sys sgn n) q
    return s.write2 rd (sysrec s.cfg (words n) q e) re (sysrec s.cfg (words n) (trem a b) e) 0

end Sys2Proof.Machine
end

