-- ==== Sys2Proof/Machine/Multiply.lean ====
section
/-! DEFINITION. The meanings of the Multiplication Engine's commands (45_multiply.md). -/

namespace Sys2Proof.Machine

/-- `MUL` (45_multiply.md R170). -/
def execMul (t : Ty) (rd ra rb : RegNum) (s : State) : Result :=
  binaryFinite (fun a b => a * b) t rd ra rb s

/-- `MULF` (45_multiply.md R171): the full product as a Doublet of `2N` Words, `low` first. -/
def execMulf (sgn : Bool) (n : Size) (rd ra rb : RegNum) (s : State) : Result :=
  command s do
    let (a, _) ← opnd s.cfg (.sys sgn n) (s.reg ra)
    let (b, _) ← opnd s.cfg (.sys sgn n) (s.reg rb)
    return s.write rd (sysrec s.cfg (2 * words n) (a * b) ((s.reg ra).err || (s.reg rb).err))

/-- `SQR` (45_multiply.md R172): `MUL` with both operands the one source. -/
def execSqr (t : Ty) (rd ra : RegNum) (s : State) : Result :=
  binaryFinite (fun a b => a * b) t rd ra ra s

end Sys2Proof.Machine
end

