-- ==== Sys2Proof/Machine/Reciprocal.lean ====
section
/-! DEFINITION. The meanings of the Reciprocal Divider's commands (47_reciprocal.md). -/

namespace Sys2Proof.Machine

/-- `RCPSET` (47_reciprocal.md R200). -/
def execRcpset (n : Size) (k : SlotNum) (ra : RegNum) (s : State) : Result :=
  rcpConstruct false n k ra s

/-- `RCPDIV` (47_reciprocal.md R202). -/
def execRcpdiv (n : Size) (rd re ra : RegNum) (k : SlotNum) (s : State) : Result :=
  rcpApply false n rd re ra k s

/-- `RCP21SET` (47_reciprocal.md R203). -/
def execRcp21set (n : Size) (k : SlotNum) (ra : RegNum) (s : State) : Result :=
  rcpConstruct true n k ra s

/-- `RCP21DIV` (47_reciprocal.md R204). -/
def execRcp21div (n : Size) (rd re ra : RegNum) (k : SlotNum) (s : State) : Result :=
  rcpApply true n rd re ra k s

/-- `RCPRD` (47_reciprocal.md R205): multiplier, shift amount in count format, and the add flag on `dout`. -/
def execRcprd (rd re : RegNum) (k : SlotNum) (s : State) : Result :=
  command s do
    let d := s.slot k
    check d.valid .slot
    let shift ← cntrec s.cfg (.finite d.shift) d.err
    return s.write2 rd (sysrec s.cfg (if d.k21 then 2 * d.size else d.size) d.mul d.err) re shift (bitWord d.add)

end Sys2Proof.Machine
end

