-- ==== Sys2Proof/Machine/Shift.lean ====
section
/-! DEFINITION. The meanings of the Shift Engine's commands (44_shift.md). -/

namespace Sys2Proof.Machine

/-- The record of an up-shift (44_shift.md R160). The distance is tested before `2^d` is built: a nonzero arbitrary
value shifted by more than `CAP * W` never fits. -/
def shiftUp (c : Config) (t : Ty) (a : Int) (d : Count) (e : Bool) : Except Cause Reg :=
  match t, d with
  | _, .infinite => res c t 0 e
  | .sys _ n, .finite d => res c t (if bitLen c n ≤ d then 0 else a * 2 ^ d) e
  | .arb _, .finite d =>
    if a = 0 then res c t 0 e
    else if c.CAP * c.W < d then .error .capacity
    else res c t (a * 2 ^ d) e

/-- `SHL` (44_shift.md R159, R160). -/
def execShl (t : Ty) (rd ra rb : RegNum) (s : State) : Result :=
  command s do
    let (a, _) ← opnd s.cfg t (s.reg ra)
    return s.write rd
      (← shiftUp s.cfg t a (rdCount s.cfg (s.reg rb)) ((s.reg ra).err || (s.reg rb).err))

/-- The integer of a down-shift (44_shift.md R161): an overshift gives the all-appendix pattern. -/
def shiftDown (c : Config) (t : Ty) (a : Int) (d : Count) : Int :=
  let allApp : Int := if a < 0 then -1 else 0
  match t, d with
  | _, .infinite => allApp
  | .sys _ n, .finite d => if bitLen c n ≤ d then allApp else floorShift a d
  | .arb _, .finite d => floorShift a d

/-- `SHR` (44_shift.md R159, R161). -/
def execShr (t : Ty) (rd ra rb : RegNum) (s : State) : Result :=
  command s do
    let (a, _) ← opnd s.cfg t (s.reg ra)
    return s.write rd
      (← res s.cfg t (shiftDown s.cfg t a (rdCount s.cfg (s.reg rb))) ((s.reg ra).err || (s.reg rb).err))

/-- `SHLM` (44_shift.md R162). -/
def execShlm (sgn : Bool) (n : Size) (rd ra rb : RegNum) (s : State) : Result :=
  maskedShift (fun a d => a * 2 ^ d) sgn n rd ra rb s

/-- `SHRM` (44_shift.md R163). -/
def execShrm (sgn : Bool) (n : Size) (rd ra rb : RegNum) (s : State) : Result :=
  maskedShift floorShift sgn n rd ra rb s

end Sys2Proof.Machine
end

