-- ==== Sys2Proof/Machine/WordModel.lean ====
section
/-! DEFINITION. The meanings of the Word Model commands (40_word_model.md). -/

namespace Sys2Proof.Machine

/-- `INIT` (40_word_model.md R100). -/
def execInit (t : Ty) (r : RegNum) (s : State) : Result :=
  command s do return s.write r (← res s.cfg t 0 false)

/-- `WRW` (40_word_model.md R101). -/
def execWrw (t : Ty) (r : RegNum) (vw : View) (idx : BitVec 12) (s : State) : Result :=
  command s do return s.write r (← elemWr s.cfg t (s.reg r) vw.bits idx.toNat s.din)

/-- `WRAPP` (40_word_model.md R102); the signedness makes no difference. -/
def execWrapp (_sgn : Bool) (r : RegNum) (bit : Bool) (s : State) : Result :=
  command s do
    let old := s.reg r
    return s.write r { old with body := trimTop (extWord s.cfg bit) old.body, app := bit }

/-- `RDW` (40_word_model.md R103). -/
def execRdw (t : Ty) (r : RegNum) (vw : View) (idx : BitVec 12) (s : State) : Result :=
  command s do return s.answer (← elemRd s.cfg t (s.reg r) vw.bits idx.toNat) false

/-- `RDBIT` (40_word_model.md R104). -/
def execRdbit (t : Ty) (r : RegNum) (idx : BitVec 12) (s : State) : Result :=
  command s do return s.answer (bitWord (← effBit s.cfg t (s.reg r) idx.toNat)) false

/-- `RDLEN` (40_word_model.md R105). -/
def execRdlen (r : RegNum) (s : State) : Result :=
  command s do return s.answer (s.reg r).len false

/-- `RDAPP` (40_word_model.md R106). -/
def execRdapp (t : Ty) (r : RegNum) (s : State) : Result :=
  command s do return s.answer (bitWord (← effApp s.cfg t (s.reg r))) false

/-- `RDE` (40_word_model.md R107). -/
def execRde (r : RegNum) (s : State) : Result :=
  command s do return s.answer (bitWord (s.reg r).err) false

/-- `CNT` (40_word_model.md R108). -/
def execCnt (t : Ty) (rd ra : RegNum) (bit : Bool) (s : State) : Result :=
  counting (fun r => countOf s.cfg t r bit) t rd ra s

/-- `ASC` (40_word_model.md R109). -/
def execAsc (t : Ty) (rd ra : RegNum) (bit : Bool) (s : State) : Result :=
  counting (fun r => ascendingOf s.cfg t r bit) t rd ra s

/-- `DSC` (40_word_model.md R110). -/
def execDsc (t : Ty) (rd ra : RegNum) (bit : Bool) (s : State) : Result :=
  counting (fun r => descendingOf s.cfg t r bit) t rd ra s

/-- `u` with its `nb` bytes in reverse order (40_word_model.md R111). -/
def reverseBytes (nb u : Nat) : Nat := natOf 256 (wordsOf 256 nb u).reverse

/-- `BSWAP` (40_word_model.md R111); the signedness makes no difference. -/
def execBswap (_sgn : Bool) (n : Size) (rd ra : RegNum) (s : State) : Result :=
  command s do
    let u ← sysnat s.cfg (s.reg ra) (words n)
    return s.write rd (sysrec s.cfg (words n) (reverseBytes (bitLen s.cfg n / 8) u) (s.reg ra).err)

/-- `CVT` (40_word_model.md R112): the source's `exactly`. -/
def execCvt (ts td : Ty) (rd ra : RegNum) (s : State) : Result :=
  command s do
    let (v, inf) ← opnd s.cfg ts (s.reg ra)
    return s.write rd (← res s.cfg td v ((s.reg ra).err || conversionLoses s.cfg td v inf))

/-- `STATUS` as a number (10_state.md R35): `FAULT` in bit 0, `FCAUSE` in bits 3:1. -/
def State.statusWord (s : State) : Nat := s.fault.toNat + 2 * s.fcause.toNat

/-- `RDSTAT` (40_word_model.md R113): it answers in the fault state too. -/
def execRdstat (s : State) : Result := .next (s.answer s.statusWord false)

/-- `log2(W / 8)` (10_state.md R36). -/
def widthCode (c : Config) : Nat :=
  match c.width with
  | .w8 => 0
  | .w16 => 1
  | .w32 => 2
  | .w64 => 3

/-- `CFG[idx]` (10_state.md R36). -/
def cfgWord (c : Config) (idx : Nat) : Nat :=
  match idx with
  | 0 => widthCode c
  | 1 => c.CAP
  | 2 => 16
  | 3 => 4
  | 4 => 1
  | _ => 0

/-- `RDCFG` (40_word_model.md R114): it answers in the fault state too. -/
def execRdcfg (idx : BitVec 12) (s : State) : Result := .next (s.answer (cfgWord s.cfg idx.toNat) false)

end Sys2Proof.Machine
end

