-- ==== Sys2Proof/Machine/Dispatch.lean ====
section
/-! DEFINITION. One arm per command (30_encoding.md R76), each one call of the command's meaning. -/

namespace Sys2Proof.Machine

def exec (i : Instr) (s : State) : Host.Outcome State Fault Refusal :=
  match i with
  -- Word Model
  | .init t r => Sys2Proof.Machine.execInit t r s
  | .wrw t r vw idx => Sys2Proof.Machine.execWrw t r vw idx s
  | .wrapp sgn r bit => Sys2Proof.Machine.execWrapp sgn r bit s
  | .rdw t r vw idx => Sys2Proof.Machine.execRdw t r vw idx s
  | .rdbit t r idx => Sys2Proof.Machine.execRdbit t r idx s
  | .rdlen r => Sys2Proof.Machine.execRdlen r s
  | .rdapp t r => Sys2Proof.Machine.execRdapp t r s
  | .rde r => Sys2Proof.Machine.execRde r s
  | .cnt t rd ra bit => Sys2Proof.Machine.execCnt t rd ra bit s
  | .asc t rd ra bit => Sys2Proof.Machine.execAsc t rd ra bit s
  | .dsc t rd ra bit => Sys2Proof.Machine.execDsc t rd ra bit s
  | .bswap sgn n rd ra => Sys2Proof.Machine.execBswap sgn n rd ra s
  | .cvt ts td rd ra => Sys2Proof.Machine.execCvt ts td rd ra s
  -- Overflow Contract
  | .veto rd ra b => Sys2Proof.Machine.execVeto rd ra b s
  | .unwrap rd ra => Sys2Proof.Machine.execUnwrap rd ra s
  | .feq t ra rb => Sys2Proof.Machine.execFeq t ra rb s
  | .gnz t ra => Sys2Proof.Machine.execGnz t ra s
  | .gnat t ra => Sys2Proof.Machine.execGnat t ra s
  | .gfin t ra => Sys2Proof.Machine.execGfin t ra s
  -- adder
  | .add t rd ra rb => Sys2Proof.Machine.execAdd t rd ra rb s
  | .sub t rd ra rb => Sys2Proof.Machine.execSub t rd ra rb s
  -- Complement/Magnitude Engine
  | .bnot t rd ra => Sys2Proof.Machine.execNot t rd ra s
  | .cpl t rd ra inc => Sys2Proof.Machine.execCpl t rd ra inc s
  | .mag t rd ra => Sys2Proof.Machine.execMag t rd ra s
  -- Shift Engine
  | .shl t rd ra rb => Sys2Proof.Machine.execShl t rd ra rb s
  | .shr t rd ra rb => Sys2Proof.Machine.execShr t rd ra rb s
  | .shlm sgn n rd ra rb => Sys2Proof.Machine.execShlm sgn n rd ra rb s
  | .shrm sgn n rd ra rb => Sys2Proof.Machine.execShrm sgn n rd ra rb s
  -- Multiplication Engine
  | .mul t rd ra rb => Sys2Proof.Machine.execMul t rd ra rb s
  | .mulf sgn n rd ra rb => Sys2Proof.Machine.execMulf sgn n rd ra rb s
  | .sqr t rd ra => Sys2Proof.Machine.execSqr t rd ra s
  -- Division Engine
  | .div t rd re ra rb => Sys2Proof.Machine.execDiv t rd re ra rb s
  | .div21 sgn n rd re ra rb => Sys2Proof.Machine.execDiv21 sgn n rd re ra rb s
  -- Reciprocal Divider
  | .rcpset n slot ra => Sys2Proof.Machine.execRcpset n slot ra s
  | .rcpdiv n rd re ra slot => Sys2Proof.Machine.execRcpdiv n rd re ra slot s
  | .rcp21set n slot ra => Sys2Proof.Machine.execRcp21set n slot ra s
  | .rcp21div n rd re ra slot => Sys2Proof.Machine.execRcp21div n rd re ra slot s
  | .rcprd rd re slot => Sys2Proof.Machine.execRcprd rd re slot s
  -- status and configuration
  | .rdstat => Sys2Proof.Machine.execRdstat s
  | .rdcfg idx => Sys2Proof.Machine.execRdcfg idx s

end Sys2Proof.Machine
end

