-- ==== Sys2Proof/Machine/Step.lean ====
section
/-! DEFINITION. One step of the block at its command port (70_reset_and_hazards.md R262). -/

namespace Sys2Proof.Machine

/-- Execute the command a word spells, or raise `ILLEGAL` (60_exceptions.md R222, R223 step 1). -/
def issue (w : Cmd) (s : State) : Result :=
  match decode s.cfg w with
  | .ok i => exec i s
  | .error _ => execIllegal s

/-- One step: what the host does next is done completely. With nothing presented the block is idle and holds its
state (60_exceptions.md R241). -/
def step (s : State) : Host.Outcome State Fault Refusal :=
  match s.input with
  | [] => .next s
  | .reset :: rest => .next (s.hostReset rest)
  | .command w d :: rest => issue w (s.present d rest)

/-- The state in which the host presents, as the very next thing, the command whose table bits are `w`, with data-in
Word 0 (log entry 2). -/
def State.withFetchWord (s : State) (nbits w : Nat) : State :=
  { s with input := .command (BitVec.ofNat 32 (w % 2 ^ nbits)) 0 :: s.input }

end Sys2Proof.Machine
end

