-- ==== Sys2Proof/Machine/OpcodeTable.lean ====
section
/-! DEFINITION. The opcode table of the spec as data (30_encoding.md R76, spec/opcode_table.json): for each mnemonic the
bits it fixes and the constraints it lists. The decoder does not read it; a statement says that the decoder accepts
exactly the words that a row admits. -/

namespace Sys2Proof.Machine

/-- A row of the opcode table. -/
structure OpcodeRow where
  /-- the mnemonic -/
  mnemonic : String
  /-- the fixed fields `(hi, lo, value)`: the opcode, the modifier, and the fields that must be 0 -/
  fixed : List (Nat × Nat × Nat)
  /-- the command has a type descriptor: `n = 0` when `arb = 1`, `n + 1 <= CAP` when `arb = 0` -/
  typed : Bool
  /-- `2 * (n + 1) <= CAP` -/
  doublet : Bool := false
  /-- `8 << vw <= W` -/
  view : Bool := false
  /-- `rd != re` -/
  twoDests : Bool := false
  /-- a destination type as well: `dn = 0` when `darb = 1`, `dn + 1 <= CAP` when `darb = 0` -/
  convert : Bool := false
deriving DecidableEq, Repr

/-- A size field against its `arb` bit: 0 for an arbitrary type, a size within `CAP` for a systems type. -/
def sizeFieldOk (c : Config) (arb n : Nat) : Prop := if arb = 1 then n = 0 else n + 1 ≤ c.CAP

/-- The word has the row's fixed fields and meets its constraints. -/
def OpcodeRow.admits (c : Config) (row : OpcodeRow) (w : Cmd) : Prop :=
  (∀ f ∈ row.fixed, slice w f.1 f.2.1 = f.2.2) ∧
  (row.typed = true → sizeFieldOk c (slice w 7 7) (slice w 13 8)) ∧
  (row.doublet = true → 2 * (slice w 13 8 + 1) ≤ c.CAP) ∧
  (row.view = true → 8 * 2 ^ slice w 19 18 ≤ c.W) ∧
  (row.twoDests = true → slice w 17 14 ≠ slice w 21 18) ∧
  (row.convert = true → sizeFieldOk c (slice w 29 29) (slice w 27 22))

/-- Rows 1 to 13: the Word Model. -/
def wordModelRows : List OpcodeRow :=
  [{ mnemonic := "INIT", fixed := [(5, 0, 0x01), (31, 18, 0)], typed := true },
   { mnemonic := "WRW", fixed := [(5, 0, 0x02)], typed := true, view := true },
   { mnemonic := "WRAPP", fixed := [(5, 0, 0x03), (13, 7, 1), (19, 18, 0), (31, 21, 0)], typed := true },
   { mnemonic := "RDW", fixed := [(5, 0, 0x04)], typed := true, view := true },
   { mnemonic := "RDBIT", fixed := [(5, 0, 0x05), (19, 18, 0)], typed := true },
   { mnemonic := "RDLEN", fixed := [(13, 0, 0x06), (31, 18, 0)], typed := false },
   { mnemonic := "RDAPP", fixed := [(5, 0, 0x07), (31, 18, 0)], typed := true },
   { mnemonic := "RDE", fixed := [(13, 0, 0x08), (31, 18, 0)], typed := false },
   { mnemonic := "CNT", fixed := [(5, 0, 0x09), (21, 18, 0), (29, 26, 0), (31, 31, 0)], typed := true },
   { mnemonic := "ASC", fixed := [(5, 0, 0x0A), (21, 18, 0), (29, 26, 0), (31, 31, 0)], typed := true },
   { mnemonic := "DSC", fixed := [(5, 0, 0x0B), (21, 18, 0), (29, 26, 0), (31, 31, 0)], typed := true },
   { mnemonic := "BSWAP", fixed := [(5, 0, 0x0C), (7, 7, 0), (21, 18, 0), (31, 26, 0)], typed := true },
   { mnemonic := "CVT", fixed := [(5, 0, 0x0D), (31, 30, 0)], typed := true, convert := true }]

/-- Rows 14 to 28: the Overflow Contract, the adder, the Complement/Magnitude Engine and the Shift Engine. -/
def middleRows : List OpcodeRow :=
  [{ mnemonic := "VETO", fixed := [(13, 0, 0x10), (21, 18, 0), (29, 26, 0), (31, 31, 0)], typed := false },
   { mnemonic := "UNWRAP", fixed := [(13, 0, 0x10), (21, 18, 0), (31, 26, 32)], typed := false },
   { mnemonic := "FEQ", fixed := [(5, 0, 0x11), (21, 14, 0), (31, 30, 0)], typed := true },
   { mnemonic := "GNZ", fixed := [(5, 0, 0x12), (21, 14, 0), (31, 26, 0)], typed := true },
   { mnemonic := "GNAT", fixed := [(5, 0, 0x12), (21, 14, 0), (31, 26, 16)], typed := true },
   { mnemonic := "GFIN", fixed := [(5, 0, 0x12), (21, 14, 0), (31, 26, 32)], typed := true },
   { mnemonic := "ADD", fixed := [(5, 0, 0x14), (21, 18, 0), (31, 30, 0)], typed := true },
   { mnemonic := "SUB", fixed := [(5, 0, 0x15), (21, 18, 0), (31, 30, 0)], typed := true },
   { mnemonic := "NOT", fixed := [(5, 0, 0x18), (21, 18, 0), (31, 26, 0)], typed := true },
   { mnemonic := "CPL", fixed := [(5, 0, 0x19), (21, 18, 0), (29, 26, 0), (31, 31, 0)], typed := true },
   { mnemonic := "MAG", fixed := [(5, 0, 0x1A), (21, 18, 0), (31, 26, 0)], typed := true },
   { mnemonic := "SHL", fixed := [(5, 0, 0x1C), (21, 18, 0), (31, 30, 0)], typed := true },
   { mnemonic := "SHR", fixed := [(5, 0, 0x1D), (21, 18, 0), (31, 30, 0)], typed := true },
   { mnemonic := "SHLM", fixed := [(5, 0, 0x1E), (7, 7, 0), (21, 18, 0), (31, 30, 0)], typed := true },
   { mnemonic := "SHRM", fixed := [(5, 0, 0x1F), (7, 7, 0), (21, 18, 0), (31, 30, 0)], typed := true }]

/-- Rows 29 to 40: the multiplier, the dividers and the status commands. -/
def lastRows : List OpcodeRow :=
  [{ mnemonic := "MUL", fixed := [(5, 0, 0x20), (21, 18, 0), (31, 30, 0)], typed := true },
   { mnemonic := "MULF", fixed := [(5, 0, 0x21), (7, 7, 0), (21, 18, 0), (31, 30, 0)], typed := true,
     doublet := true },
   { mnemonic := "SQR", fixed := [(5, 0, 0x22), (21, 18, 0), (31, 26, 0)], typed := true },
   { mnemonic := "DIV", fixed := [(5, 0, 0x24), (31, 30, 0)], typed := true, twoDests := true },
   { mnemonic := "DIV21", fixed := [(5, 0, 0x25), (7, 7, 0), (31, 30, 0)], typed := true, doublet := true,
     twoDests := true },
   { mnemonic := "RCPSET", fixed := [(7, 0, 0x28), (17, 14, 0), (21, 20, 0), (31, 26, 0)], typed := true },
   { mnemonic := "RCPDIV", fixed := [(7, 0, 0x29), (31, 28, 0)], typed := true, twoDests := true },
   { mnemonic := "RCP21SET", fixed := [(7, 0, 0x2A), (17, 14, 0), (21, 20, 0), (31, 26, 0)], typed := true,
     doublet := true },
   { mnemonic := "RCP21DIV", fixed := [(7, 0, 0x2B), (31, 28, 0)], typed := true, doublet := true,
     twoDests := true },
   { mnemonic := "RCPRD", fixed := [(13, 0, 0x2C), (25, 22, 0), (31, 28, 0)], typed := false, twoDests := true },
   { mnemonic := "RDSTAT", fixed := [(31, 0, 0x30)], typed := false },
   { mnemonic := "RDCFG", fixed := [(19, 0, 0x31)], typed := false }]

/-- The opcode table: its 40 rows, in its order. -/
def opcodeTable : List OpcodeRow := wordModelRows ++ middleRows ++ lastRows

/-- The mnemonic of a command. -/
def mnemonicOf : Instr → String
  | .init _ _ => "INIT"
  | .wrw _ _ _ _ => "WRW"
  | .wrapp _ _ _ => "WRAPP"
  | .rdw _ _ _ _ => "RDW"
  | .rdbit _ _ _ => "RDBIT"
  | .rdlen _ => "RDLEN"
  | .rdapp _ _ => "RDAPP"
  | .rde _ => "RDE"
  | .cnt _ _ _ _ => "CNT"
  | .asc _ _ _ _ => "ASC"
  | .dsc _ _ _ _ => "DSC"
  | .bswap _ _ _ _ => "BSWAP"
  | .cvt _ _ _ _ => "CVT"
  | .veto _ _ _ => "VETO"
  | .unwrap _ _ => "UNWRAP"
  | .feq _ _ _ => "FEQ"
  | .gnz _ _ => "GNZ"
  | .gnat _ _ => "GNAT"
  | .gfin _ _ => "GFIN"
  | .add _ _ _ _ => "ADD"
  | .sub _ _ _ _ => "SUB"
  | .bnot _ _ _ => "NOT"
  | .cpl _ _ _ _ => "CPL"
  | .mag _ _ _ => "MAG"
  | .shl _ _ _ _ => "SHL"
  | .shr _ _ _ _ => "SHR"
  | .shlm _ _ _ _ _ => "SHLM"
  | .shrm _ _ _ _ _ => "SHRM"
  | .mul _ _ _ _ => "MUL"
  | .mulf _ _ _ _ _ => "MULF"
  | .sqr _ _ _ => "SQR"
  | .div _ _ _ _ _ => "DIV"
  | .div21 _ _ _ _ _ _ => "DIV21"
  | .rcpset _ _ _ => "RCPSET"
  | .rcpdiv _ _ _ _ _ => "RCPDIV"
  | .rcp21set _ _ _ => "RCP21SET"
  | .rcp21div _ _ _ _ _ => "RCP21DIV"
  | .rcprd _ _ _ => "RCPRD"
  | .rdstat => "RDSTAT"
  | .rdcfg _ => "RDCFG"

end Sys2Proof.Machine
end

