-- ==== Sys2Proof/Machine/Pseudo.lean ====
section
/-! DEFINITION. The pseudo-instructions of 30_encoding.md R86 and the assembler notation of R85. They add no command:
each pseudo-instruction is a list of commands, each with its data-in Word. -/

namespace Sys2Proof.Machine

/-- `MOV vd, va` (30_encoding.md R86). -/
def mov (rd ra : RegNum) : Instr := .veto rd ra false

/-- `NEG.<T> vd, va` (30_encoding.md R86). -/
def neg (t : Ty) (rd ra : RegNum) : Instr := .cpl t rd ra true

/-- The view as wide as a Word. -/
def wordView (c : Config) : View :=
  match c.width with
  | .w8 => .v8
  | .w16 => .v16
  | .w32 => .v32
  | .w64 => .v64

/-- `WRW.<T>.v<W> vd, i, ws[i]` for each Word of the list, from index `i` up. -/
def writeWords (c : Config) (t : Ty) (rd : RegNum) : Nat → List Nat → List (Instr × Nat)
  | _, [] => []
  | i, w :: ws => (.wrw t rd (wordView c) (BitVec.ofNat 12 i), w) :: writeWords c t rd (i + 1) ws

/-- `LI.<T> vd, v` (30_encoding.md R86): the commands, each with its data-in Word. An arbitrary constant that no
register can hold has no expansion. -/
def loadImmediate (c : Config) (t : Ty) (rd : RegNum) (v : Int) : Except Cause (List (Instr × Nat)) := do
  let r ← res c t v false
  let sign : List (Instr × Nat) :=
    match t with
    | .sys _ _ => []
    | .arb sgn => if v < 0 then [(.wrapp sgn rd true, 0)] else []
  return (.init t rd, 0) :: sign ++ writeWords c t rd 0 r.body

/-- What the host does to issue a list of commands in order. -/
def issued (cmds : List (Instr × Nat)) : List HostAction := cmds.map fun p => .command (encode p.1) p.2

/-- A list of commands executed one after another (10_state.md R38 "command sequence"). -/
def execAll : List Instr → State → Result
  | [], s => .next s
  | i :: is, s =>
    match exec i s with
    | .next t => execAll is t
    | .fault r => .fault r
    | .refused r => .refused r

/-! ## Assembler notation (30_encoding.md R85) -/

/-- A register's assembler name. -/
def asmReg (r : RegNum) : String := "v" ++ toString r.val

/-- A slot's assembler name. -/
def asmSlot (k : SlotNum) : String := "s" ++ toString k.val

/-- A type suffix. -/
def asmTy : Ty → String
  | .sys sgn n => (if sgn then ".s" else ".u") ++ toString (words n)
  | .arb sgn => if sgn then ".sx" else ".ux"

/-- A view suffix. -/
def asmView (v : View) : String := ".v" ++ toString v.bits

/-- A mnemonic with its suffixes and its operands. -/
def asmLine (mnemonic : String) (operands : List String) : String :=
  match operands with
  | [] => mnemonic
  | _ => mnemonic ++ " " ++ String.intercalate ", " operands

/-- The spec's assembler line of a command (30_encoding.md R85); `din` is shown where the command uses it. -/
def asm (din : Nat) : Instr → String
  | .init t r => asmLine ("INIT" ++ asmTy t) [asmReg r]
  | .wrw t r vw idx => asmLine ("WRW" ++ asmTy t ++ asmView vw) [asmReg r, toString idx.toNat, toString din]
  | .wrapp sgn r bit => asmLine ("WRAPP" ++ asmTy (.arb sgn)) [asmReg r, toString bit.toNat]
  | .rdw t r vw idx => asmLine ("RDW" ++ asmTy t ++ asmView vw) [asmReg r, toString idx.toNat]
  | .rdbit t r idx => asmLine ("RDBIT" ++ asmTy t) [asmReg r, toString idx.toNat]
  | .rdlen r => asmLine "RDLEN" [asmReg r]
  | .rdapp t r => asmLine ("RDAPP" ++ asmTy t) [asmReg r]
  | .rde r => asmLine "RDE" [asmReg r]
  | .cnt t rd ra bit => asmLine ("CNT" ++ asmTy t) [asmReg rd, asmReg ra, toString bit.toNat]
  | .asc t rd ra bit => asmLine ("ASC" ++ asmTy t) [asmReg rd, asmReg ra, toString bit.toNat]
  | .dsc t rd ra bit => asmLine ("DSC" ++ asmTy t) [asmReg rd, asmReg ra, toString bit.toNat]
  | .bswap sgn n rd ra => asmLine ("BSWAP" ++ asmTy (.sys sgn n)) [asmReg rd, asmReg ra]
  | .cvt ts td rd ra => asmLine ("CVT" ++ asmTy ts ++ asmTy td) [asmReg rd, asmReg ra]
  | .veto rd ra b => asmLine "VETO" [asmReg rd, asmReg ra, toString b.toNat]
  | .unwrap rd ra => asmLine "UNWRAP" [asmReg rd, asmReg ra]
  | .feq t ra rb => asmLine ("FEQ" ++ asmTy t) [asmReg ra, asmReg rb]
  | .gnz t ra => asmLine ("GNZ" ++ asmTy t) [asmReg ra]
  | .gnat t ra => asmLine ("GNAT" ++ asmTy t) [asmReg ra]
  | .gfin t ra => asmLine ("GFIN" ++ asmTy t) [asmReg ra]
  | .add t rd ra rb => asmLine ("ADD" ++ asmTy t) [asmReg rd, asmReg ra, asmReg rb]
  | .sub t rd ra rb => asmLine ("SUB" ++ asmTy t) [asmReg rd, asmReg ra, asmReg rb]
  | .bnot t rd ra => asmLine ("NOT" ++ asmTy t) [asmReg rd, asmReg ra]
  | .cpl t rd ra inc => asmLine ("CPL" ++ asmTy t) [asmReg rd, asmReg ra, toString inc.toNat]
  | .mag t rd ra => asmLine ("MAG" ++ asmTy t) [asmReg rd, asmReg ra]
  | .shl t rd ra rb => asmLine ("SHL" ++ asmTy t) [asmReg rd, asmReg ra, asmReg rb]
  | .shr t rd ra rb => asmLine ("SHR" ++ asmTy t) [asmReg rd, asmReg ra, asmReg rb]
  | .shlm sgn n rd ra rb => asmLine ("SHLM" ++ asmTy (.sys sgn n)) [asmReg rd, asmReg ra, asmReg rb]
  | .shrm sgn n rd ra rb => asmLine ("SHRM" ++ asmTy (.sys sgn n)) [asmReg rd, asmReg ra, asmReg rb]
  | .mul t rd ra rb => asmLine ("MUL" ++ asmTy t) [asmReg rd, asmReg ra, asmReg rb]
  | .mulf sgn n rd ra rb => asmLine ("MULF" ++ asmTy (.sys sgn n)) [asmReg rd, asmReg ra, asmReg rb]
  | .sqr t rd ra => asmLine ("SQR" ++ asmTy t) [asmReg rd, asmReg ra]
  | .div t rd re ra rb => asmLine ("DIV" ++ asmTy t) [asmReg rd, asmReg re, asmReg ra, asmReg rb]
  | .div21 sgn n rd re ra rb =>
    asmLine ("DIV21" ++ asmTy (.sys sgn n)) [asmReg rd, asmReg re, asmReg ra, asmReg rb]
  | .rcpset n slot ra => asmLine ("RCPSET" ++ asmTy (.sys false n)) [asmSlot slot, asmReg ra]
  | .rcpdiv n rd re ra slot =>
    asmLine ("RCPDIV" ++ asmTy (.sys false n)) [asmReg rd, asmReg re, asmReg ra, asmSlot slot]
  | .rcp21set n slot ra => asmLine ("RCP21SET" ++ asmTy (.sys false n)) [asmSlot slot, asmReg ra]
  | .rcp21div n rd re ra slot =>
    asmLine ("RCP21DIV" ++ asmTy (.sys false n)) [asmReg rd, asmReg re, asmReg ra, asmSlot slot]
  | .rcprd rd re slot => asmLine "RCPRD" [asmReg rd, asmReg re, asmSlot slot]
  | .rdstat => asmLine "RDSTAT" []
  | .rdcfg idx => asmLine "RDCFG" [toString idx.toNat]

end Sys2Proof.Machine
end

