-- ==== Sys2Proof/Machine/Reference.lean ====
section
/-! DEFINITION. The word-level reference datapaths the spec gives beside its value rules: the ripple adder
(42_adder.md R142), the word shifter (44_shift.md R165), the schoolbook multiplier (45_multiply.md R174) and long
division with its 3-by-2 trial step (46_divide.md R187, R188). They are informative: no command calls them
(00_scope.md R7); statements say that they reach the results of the value rules. The glossary's `entropy` stands here
too: no command returns it (00_scope.md, 92_eei_decisions.md D36). -/

namespace Sys2Proof.Machine

/-- `entropy` of a register's pattern (00_scope.md glossary): 1 + the index of the highest bit that differs from the
appendix, 0 if none does. -/
def entropy (c : Config) (r : Reg) : Nat :=
  match (List.range (c.W * r.len)).reverse.find? fun i => effBitOf c (.arb false) r i != r.app with
  | some i => i + 1
  | none => 0

/-! ## The ripple adder (42_adder.md R142) -/

/-- Word additions from the least significant Word up, with the carry out of the top one. -/
def ripple (b : Nat) : List Nat → List Nat → Nat → List Nat × Nat
  | x :: xs, y :: ys, carry =>
    let rest := ripple b xs ys ((x + y + carry) / b)
    ((x + y + carry) % b :: rest.1, rest.2)
  | _, _, carry => ([], carry)

/-- The toggled Words that `SUB` adds. -/
def toggleWords (b : Nat) (ws : List Nat) : List Nat := ws.map fun w => b - 1 - w

/-- The sign bit of a body's top Word. -/
def topBit (c : Config) (ws : List Nat) : Bool := (ws.getLastD 0).testBit (c.W - 1)

/-- The first `n` Words of a register's infinite pattern. -/
def firstWords (c : Config) (r : Reg) (n : Nat) : List Nat := (List.range n).map (word c r)

/-- A normalised record, or the capacity fault. -/
def normalised (c : Config) (body : List Nat) (app e : Bool) : Except Cause Reg :=
  let kept := trimTop (extWord c app) body
  if c.CAP < kept.length then .error .capacity else .ok { body := kept, app := app, err := e }

/-- The record that the ripple writes for `ADD` (`sub = false`) and `SUB` (`sub = true`) on finite operands that have
passed the length check (42_adder.md R142). -/
def rippleRecord (c : Config) (t : Ty) (sub : Bool) (a b : Reg) : Except Cause Reg :=
  let second (ws : List Nat) : List Nat := if sub then toggleWords c.B ws else ws
  match t with
  | .sys sgn _ =>
    let bs := second b.body
    let sum := ripple c.B a.body bs sub.toNat
    let own :=
      if sgn then topBit c a.body == topBit c bs && topBit c sum.1 != topBit c a.body
      else if sub then decide (sum.2 = 0) else decide (sum.2 = 1)
    .ok { body := sum.1, app := false, err := a.err || b.err || own }
  | .arb sgn =>
    let n := max a.len b.len + 1
    let sum := ripple c.B (firstWords c a n) (second (firstWords c b n)) sub.toNat
    let borrow := !sgn && sub && decide (sum.2 = 0)
    normalised c sum.1 (if sgn then topBit c sum.1 else borrow) (a.err || b.err || borrow)

/-! ## The word shifter (44_shift.md R165) -/

/-- Word `i` of an up-shift by `W*dw + db` of the pattern whose Words are `f`. -/
def upWord (c : Config) (f : Nat → Nat) (dw db i : Nat) : Nat :=
  ((if i < dw then 0 else f (i - dw)) * 2 ^ db +
    (if i < dw + 1 then 0 else f (i - dw - 1)) / 2 ^ (c.W - db)) % c.B

/-- Word `i` of a down-shift by `W*dw + db`. -/
def downWord (c : Config) (f : Nat → Nat) (dw db i : Nat) : Nat :=
  (f (i + dw) / 2 ^ db + f (i + dw + 1) * 2 ^ (c.W - db)) % c.B

/-- Word `j` of a register under a type: past a systems body it is the effective appendix's Word. -/
def typedWord (c : Config) (t : Ty) (r : Reg) (j : Nat) : Nat := r.body.getD j (extWord c (effAppOf c t r))

/-- The record of an up-shift by the finite distance `d`, in range for a systems type. -/
def shiftUpRecord (c : Config) (t : Ty) (a : Reg) (d : Nat) (e : Bool) : Except Cause Reg :=
  let shifted (n : Nat) : List Nat := (List.range n).map (upWord c (typedWord c t a) (d / c.W) (d % c.W))
  match t with
  | .sys _ n => .ok { body := shifted (words n), app := false, err := e }
  | .arb _ => normalised c (shifted (a.len + d / c.W + 1)) a.app e

/-- The record of a down-shift by the finite distance `d`, in range for a systems type. -/
def shiftDownRecord (c : Config) (t : Ty) (a : Reg) (d : Nat) (e : Bool) : Except Cause Reg :=
  let shifted (n : Nat) : List Nat := (List.range n).map (downWord c (typedWord c t a) (d / c.W) (d % c.W))
  match t with
  | .sys _ n => .ok { body := shifted (words n), app := false, err := e }
  | .arb _ => normalised c (shifted (a.len - d / c.W)) a.app e

/-! ## The schoolbook multiplier (45_multiply.md R174) -/

/-- One row: add `u * v` to the partial product from its lowest Word up, and store the last carry. -/
def mulRow (b v : Nat) : List Nat → List Nat → Nat → List Nat
  | p :: ps, u :: us, carry => (p + u * v + carry) % b :: mulRow b v ps us ((p + u * v + carry) / b)
  | _ :: ps, [], carry => carry :: ps
  | [], _, _ => []

/-- The rows of `v`'s Words; after each row the lowest Word of the partial product `p` is final. -/
def mulRows (b : Nat) (us : List Nat) : List Nat → List Nat → List Nat
  | [], ps => ps
  | v :: vs, ps =>
    match mulRow b v ps us 0 with
    | [] => []
    | q :: qs => q :: mulRows b us vs qs

/-- The unsigned product of an `n`-Word and an `m`-Word number, in `n + m` Words. -/
def schoolbook (b : Nat) (us vs : List Nat) : List Nat :=
  mulRows b us vs (List.replicate (us.length + vs.length) 0)

/-- The Doublet of `MULF` from the unsigned product of the two patterns: for a signed type the high half is
corrected (45_multiply.md R174). -/
def mulfRecord (c : Config) (sgn : Bool) (n : Size) (a b : Reg) : Reg :=
  let minus (x y : Reg) : Nat := if sgn && topBit c x.body then y.nat c else 0
  sysrec c (2 * words n)
    ((natOf c.B (schoolbook c.B a.body b.body) : Int) - 2 ^ bitLen c n * ((minus a b : Int) + minus b a))
    (a.err || b.err)

/-! ## Long division (46_divide.md R187, R188) -/

/-- `div2by1(hi, lo, d)`. -/
def div2by1 (b hi lo d : Nat) : Nat × Nat := ((hi * b + lo) / d, (hi * b + lo) % d)

/-- The refinement loop of `div3by2`; it runs at most twice (46_divide.md R188). -/
def refineDigit (b u0 v1 v0 : Nat) : Nat → Nat → Nat → Nat
  | 0, q, _ => q
  | fuel + 1, q, r => if r < b ∧ r * b + u0 < q * v0 then refineDigit b u0 v1 v0 fuel (q - 1) (r + v1) else q

/-- The 3-by-2 trial step with its boundary line (46_divide.md R188). -/
def div3by2 (b u2 u1 u0 v1 v0 : Nat) : Nat :=
  if v1 * b + v0 ≤ u2 * b + u1 then b - 1
  else
    let start := if u2 = v1 then (b - 1, u1 + v1) else div2by1 b u2 u1 v1
    refineDigit b u0 v1 v0 2 start.1 start.2

/-- Word `i` of a number. -/
def wordAt (b u i : Nat) : Nat := u / b ^ i % b

/-- One digit of the long division: trial, multiply and subtract, add back on a borrow. It answers the digit and the
running remainder. -/
def divDigit (b n vn j un : Nat) : Nat × Nat :=
  let part := un / b ^ j % b ^ (n + 1)
  let trial := div3by2 b (wordAt b un (j + n)) (wordAt b un (j + n - 1)) (wordAt b un (j + n - 2))
    (wordAt b vn (n - 1)) (wordAt b vn (n - 2))
  let borrow := decide (part < trial * vn)
  let digit := if borrow then trial - 1 else trial
  let part' := (part + b ^ (n + 1) - trial * vn + (if borrow then vn else 0)) % b ^ (n + 1)
  (digit, un % b ^ j + part' * b ^ j + un / b ^ (j + n + 1) * b ^ (j + n + 1))

/-- The digits `q[k-1]` down to `q[0]`: the quotient and the running remainder. -/
def divDigits (b n vn : Nat) : Nat → Nat → Nat × Nat
  | 0, un => (0, un)
  | k + 1, un =>
    let step := divDigit b n vn k un
    let rest := divDigits b n vn k step.2
    (step.1 * b ^ k + rest.1, rest.2)

/-- Short division by one Word, one 2-by-1 step per Word from the top down. -/
def shortDiv (b d : Nat) : List Nat → Nat × Nat
  | [] => (0, 0)
  | u :: us =>
    let high := shortDiv b d us
    let digit := div2by1 b high.2 u d
    (digit.1 + b * high.1, digit.2)

/-- Unsigned long division of `us` by `vs`, whose top Word is not 0 (46_divide.md R187): quotient and remainder. -/
def udivmod (c : Config) (us vs : List Nat) : Nat × Nat :=
  let b := c.B
  let n := vs.length
  if us.length < n then (0, natOf b us)
  else if n = 1 then shortDiv b (natOf b vs) us
  else
    let shift := c.W - 1 - (vs.getLastD 0).log2
    let out := divDigits b n (natOf b vs * 2 ^ shift) (us.length - n + 1) (natOf b us * 2 ^ shift)
    (out.1, out.2 % b ^ n / 2 ^ shift)

end Sys2Proof.Machine
end

