-- ==== Sys2Proof/Safety.lean ====
section
/-! DEFINITION. What a well-formed state is, and the terms in which statements speak of the block: what a register
reads as under a type, what a record holds, and which registers a command reads and writes. -/

namespace Sys2Proof

/-! ## What a command names -/

/-- The registers a command reads as operands (10_state.md R25). `WRW` and `WRAPP` rewrite their register in place. -/
def Instr.sources : Instr → List RegNum
  | .init _ _ | .rcprd _ _ _ | .rdstat | .rdcfg _ => []
  | .wrw _ r _ _ | .wrapp _ r _ | .rdw _ r _ _ | .rdbit _ r _ | .rdlen r | .rdapp _ r | .rde r => [r]
  | .cnt _ _ ra _ | .asc _ _ ra _ | .dsc _ _ ra _ | .bswap _ _ _ ra | .cvt _ _ _ ra => [ra]
  | .veto _ ra _ | .unwrap _ ra | .gnz _ ra | .gnat _ ra | .gfin _ ra => [ra]
  | .bnot _ _ ra | .cpl _ _ ra _ | .mag _ _ ra | .sqr _ _ ra => [ra]
  | .feq _ ra rb | .add _ _ ra rb | .sub _ _ ra rb => [ra, rb]
  | .shl _ _ ra rb | .shr _ _ ra rb | .shlm _ _ _ ra rb | .shrm _ _ _ ra rb => [ra, rb]
  | .mul _ _ ra rb | .mulf _ _ _ ra rb | .div _ _ _ ra rb | .div21 _ _ _ _ ra rb => [ra, rb]
  | .rcpset _ _ ra | .rcpdiv _ _ _ ra _ | .rcp21set _ _ ra | .rcp21div _ _ _ ra _ => [ra]

/-- The registers a command writes (10_state.md R25). -/
def Instr.dests : Instr → List RegNum
  | .init _ r | .wrw _ r _ _ | .wrapp _ r _ => [r]
  | .rdw _ _ _ _ | .rdbit _ _ _ | .rdlen _ | .rdapp _ _ | .rde _ => []
  | .feq _ _ _ | .gnz _ _ | .gnat _ _ | .gfin _ _ | .rcpset _ _ _ | .rcp21set _ _ _ | .rdstat | .rdcfg _ => []
  | .cnt _ rd _ _ | .asc _ rd _ _ | .dsc _ rd _ _ | .bswap _ _ rd _ | .cvt _ _ rd _ => [rd]
  | .veto rd _ _ | .unwrap rd _ | .add _ rd _ _ | .sub _ rd _ _ => [rd]
  | .bnot _ rd _ | .cpl _ rd _ _ | .mag _ rd _ | .sqr _ rd _ => [rd]
  | .shl _ rd _ _ | .shr _ rd _ _ | .shlm _ _ rd _ _ | .shrm _ _ rd _ _ | .mul _ rd _ _ | .mulf _ _ rd _ _ => [rd]
  | .div _ rd re _ _ | .div21 _ _ rd re _ _ | .rcpdiv _ rd re _ _ | .rcp21div _ rd re _ _ => [rd, re]
  | .rcprd rd re _ => [rd, re]

/-- The slot a command writes (10_state.md R31). -/
def Instr.destSlot : Instr → Option SlotNum
  | .rcpset _ k _ | .rcp21set _ k _ => some k
  | _ => none

/-- The slot a command applies or reads (10_state.md R25). -/
def Instr.sourceSlot : Instr → Option SlotNum
  | .rcpdiv _ _ _ _ k | .rcp21div _ _ _ _ k | .rcprd _ _ k => some k
  | _ => none

/-- The commands that answer `nil` (10_state.md R27). -/
def Instr.mayAnswerNil : Instr → Bool
  | .gnz _ _ | .gnat _ _ | .gfin _ _ | .rcpset _ _ _ | .rcp21set _ _ _ => true
  | _ => false

/-- The commands that lower an error flag (00_scope.md R19). -/
def Instr.lowersFlag : Instr → Bool
  | .init _ _ | .unwrap _ _ => true
  | _ => false

end Sys2Proof

namespace Sys2Proof.Machine

/-- The length a source register must have under a type, where there is one (10_state.md R23). -/
def lengthOf (t : Ty) (r : RegNum) : List (RegNum × Nat) :=
  match t with
  | .sys _ n => [(r, words n)]
  | .arb _ => []

/-- The source registers that are length-checked, each with the length it must have (60_exceptions.md R224). -/
def requiredLengths : Instr → List (RegNum × Nat)
  | .wrw t r _ _ | .rdw t r _ _ | .rdbit t r _ | .rdapp t r => lengthOf t r
  | .cnt t _ ra _ | .asc t _ ra _ | .dsc t _ ra _ | .cvt t _ _ ra => lengthOf t ra
  | .bswap _ n _ ra | .shlm _ n _ ra _ | .shrm _ n _ ra _ => [(ra, words n)]
  | .bnot t _ ra | .cpl t _ ra _ | .mag t _ ra | .sqr t _ ra => lengthOf t ra
  | .gnz t ra | .gnat t ra | .gfin t ra | .shl t _ ra _ | .shr t _ ra _ => lengthOf t ra
  | .feq t ra rb | .add t _ ra rb | .sub t _ ra rb | .mul t _ ra rb | .div t _ _ ra rb =>
    lengthOf t ra ++ lengthOf t rb
  | .mulf _ n _ ra rb => [(ra, words n), (rb, words n)]
  | .div21 _ n _ _ ra rb => [(ra, 2 * words n), (rb, words n)]
  | .rcpset n _ ra | .rcp21set n _ ra | .rcpdiv n _ _ ra _ => [(ra, words n)]
  | .rcp21div n _ _ ra _ => [(ra, 2 * words n)]
  | .init _ _ | .wrapp _ _ _ | .rdlen _ | .rde _ | .veto _ _ _ | .unwrap _ _ => []
  | .rcprd _ _ _ | .rdstat | .rdcfg _ => []

/-! ## Well-formed states -/

/-- A stored register: at most `CAP` Words, each of `W` bits (10_state.md R20, R21). -/
abbrev Reg.wf (c : Config) (r : Reg) : Prop := r.len ≤ c.CAP ∧ ∀ w ∈ r.body, w < c.B

/-- The dividend width a slot was built for (47_reciprocal.md R200, R203). -/
def Slot.dividendBits (c : Config) (k : Slot) : Nat := (if k.k21 then 2 * k.size else k.size) * c.W

/-- A stored slot: when valid, it holds the constants of a nonzero divisor of `N` Words (10_state.md R30,
47_reciprocal.md R200, R203). -/
abbrev Slot.wf (c : Config) (k : Slot) : Prop :=
  k.valid = true →
    1 ≤ k.size ∧ (if k.k21 then 2 * k.size else k.size) ≤ c.CAP ∧
    1 ≤ k.divisor ∧ k.divisor < 2 ^ (k.size * c.W) ∧
    (k.mul, k.add, k.shift) = rcpConst k.divisor (k.dividendBits c)

/-- The invariant of the block: registers and slots are as 10_state.md R20, R21, R30 say, `FCAUSE` is 0 exactly while
`FAULT` is 0 (R35), and the port's Words have `W` bits. -/
abbrev State.wf (s : State) : Prop :=
  (∀ r : RegNum, (s.reg r).wf s.cfg) ∧ (∀ k : SlotNum, (s.slot k).wf s.cfg) ∧
  (s.fault = false ↔ s.fcause = 0) ∧ s.dout < s.cfg.B ∧ s.din < s.cfg.B

/-- A well-formed state outside the fault state: a command is executed. -/
abbrev State.ready (s : State) : Prop := s.fault = false ∧ s.wf

/-! ## What registers read as and records hold -/

/-- The register passes the length check of a read under the type (10_state.md R23). -/
abbrev readable (t : Ty) (r : Reg) : Prop :=
  match t with
  | .sys _ n => r.len = words n
  | .arb _ => True

/-- The integer a register reads as under a type (00_scope.md R9, R13, R14). -/
def valueOf (c : Config) (t : Ty) (r : Reg) : Int :=
  match t with
  | .sys false _ => r.nat c
  | .sys true n => if 2 ^ (bitLen c n - 1) ≤ r.nat c then (r.nat c : Int) - 2 ^ bitLen c n else r.nat c
  | .arb _ => (r.nat c : Int) - (if r.app then (c.B : Int) ^ r.len else 0)

/-- The register reads as an infinite `ux` value (00_scope.md R9, R14). -/
def isInfinite (t : Ty) (r : Reg) : Bool :=
  match t with
  | .arb false => r.app
  | _ => false

/-- Normal form (10_state.md R24): no top Word equals the appendix-extension Word. -/
abbrev Reg.normal (c : Config) (r : Reg) : Prop := r.body.getLast? ≠ some (extWord c r.app)

/-- The record holds the pattern of the integer under the type (00_scope.md R17): for a systems type the `N` Words of
`v` modulo `2^L` with appendix 0; for an arbitrary type the whole pattern, normalised and within `CAP`. -/
def holds (c : Config) (t : Ty) (r : Reg) (v : Int) : Prop :=
  (∀ w ∈ r.body, w < c.B) ∧
  match t with
  | .sys _ n => r.len = words n ∧ r.app = false ∧ (r.nat c : Int) = v % 2 ^ bitLen c n
  | .arb _ => r.len ≤ c.CAP ∧ r.normal c ∧ valueOf c (.arb true) r = v

/-- The record holds the count, in count format (00_scope.md R18). -/
def holdsCount (c : Config) (r : Reg) (k : Count) : Prop :=
  match k with
  | .infinite => r.body = [] ∧ r.app = true
  | .finite n => holds c (.arb false) r n

/-- A result of the type fits a register: always for a systems type; for an arbitrary type the pattern needs at most
`CAP` Words (60_exceptions.md R229). -/
abbrev inCapacity (c : Config) (t : Ty) (v : Int) : Prop :=
  match t with
  | .sys _ _ => True
  | .arb _ => -((c.B : Int) ^ c.CAP) ≤ v ∧ v < (c.B : Int) ^ c.CAP

/-- The integer is in the domain of the type (00_scope.md R9, R16). -/
abbrev inDomain (c : Config) (t : Ty) (v : Int) : Prop :=
  match t with
  | .sys false n => 0 ≤ v ∧ v < 2 ^ bitLen c n
  | .sys true n => -(2 ^ (bitLen c n - 1)) ≤ v ∧ v < 2 ^ (bitLen c n - 1)
  | .arb true => True
  | .arb false => 0 ≤ v

/-- The magnitude of an integer read under a type (43_complement.md R152): an unsigned type's integer is never
negative in this sense, an infinite one included. -/
def magnitudeOf (t : Ty) (a : Int) : Int :=
  match t with
  | .sys true _ | .arb true => |a|
  | .sys false _ | .arb false => a

/-- The element of width `v` and index `k` can be written (20_memory.md R56): for a systems type it lies within the
type's bits; for an arbitrary type its Word lies within the capacity. -/
abbrev elementInRange (c : Config) (t : Ty) (v k : Nat) : Prop :=
  match t with
  | .sys _ n => v * (k + 1) ≤ bitLen c n
  | .arb _ => v * k / c.W < c.CAP

/-- Bit `i` of the pattern a register reads as under a type (00_scope.md R9, R15): bit `i` of the two's-complement
pattern of its integer. -/
def patternBit (c : Config) (t : Ty) (r : Reg) (i : Nat) : Bool := (valueOf c t r).testBit i

/-- The distance a register holds, where it is finite (00_scope.md R18, 44_shift.md R159). -/
def distance (c : Config) (r : Reg) : Nat := r.nat c

/-! ## When a command violates a precondition -/

/-- The precondition of a cause is violated by a command in a state (60_exceptions.md R220, R224 to R229). `ILLEGAL`
concerns the command word, not the command, so no command violates it. -/
def violates (s : State) (i : Instr) : Cause → Prop
  | .illegal => False
  | .operand => ∃ p ∈ requiredLengths i, (s.reg p.1).len ≠ p.2
  | .slot =>
    match i with
    | .rcpdiv n _ _ _ k => ¬((s.slot k).valid = true ∧ (s.slot k).k21 = false ∧ (s.slot k).size = words n)
    | .rcp21div n _ _ _ k => ¬((s.slot k).valid = true ∧ (s.slot k).k21 = true ∧ (s.slot k).size = words n)
    | .rcprd _ _ k => (s.slot k).valid = false
    | _ => False
  | .finite =>
    match i with
    | .add t _ ra rb | .sub t _ ra rb | .mul t _ ra rb =>
      isInfinite t (s.reg ra) = true ∨ isInfinite t (s.reg rb) = true
    | .sqr t _ ra => isInfinite t (s.reg ra) = true
    | .div t _ _ ra rb => isInfinite t (s.reg ra) = true ∧ isInfinite t (s.reg rb) = true
    | .shlm _ _ _ _ rb | .shrm _ _ _ _ rb => (s.reg rb).app = true
    | _ => False
  | .divzero =>
    match i with
    | .div t _ _ _ rb => isInfinite t (s.reg rb) = false ∧ valueOf s.cfg t (s.reg rb) = 0
    | .div21 sgn n _ _ _ rb => valueOf s.cfg (.sys sgn n) (s.reg rb) = 0
    | _ => False
  | .index =>
    match i with
    | .wrw (.sys sgn n) _ vw idx => ¬elementInRange s.cfg (.sys sgn n) vw.bits idx.toNat
    | _ => False
  | .capacity =>
    match i with
    | .wrw (.arb sgn) _ vw idx => ¬elementInRange s.cfg (.arb sgn) vw.bits idx.toNat
    | .add t _ ra rb => ¬inCapacity s.cfg t (valueOf s.cfg t (s.reg ra) + valueOf s.cfg t (s.reg rb))
    | .sub t _ ra rb => ¬inCapacity s.cfg t (valueOf s.cfg t (s.reg ra) - valueOf s.cfg t (s.reg rb))
    | .mul t _ ra rb => ¬inCapacity s.cfg t (valueOf s.cfg t (s.reg ra) * valueOf s.cfg t (s.reg rb))
    | .sqr t _ ra => ¬inCapacity s.cfg t (valueOf s.cfg t (s.reg ra) * valueOf s.cfg t (s.reg ra))
    | .cpl t _ ra inc => ¬inCapacity s.cfg t (-valueOf s.cfg t (s.reg ra) - 1 + (if inc then 1 else 0))
    | .mag t _ ra => ¬inCapacity s.cfg t (magnitudeOf t (valueOf s.cfg t (s.reg ra)))
    | .shl t _ ra rb =>
      (s.reg rb).app = false ∧ ¬inCapacity s.cfg t (valueOf s.cfg t (s.reg ra) * 2 ^ distance s.cfg (s.reg rb))
    | .div t _ _ ra rb =>
      ¬inCapacity s.cfg t ((valueOf s.cfg t (s.reg ra)).tdiv (valueOf s.cfg t (s.reg rb)))
    | _ => False

/-- Two states that a command sequence cannot tell apart by 10_state.md R42: they differ at most in the fields of
slots that are invalid in both. -/
def sameVisible (s s' : State) : Prop :=
  s'.cfg = s.cfg ∧ s'.regs = s.regs ∧ s'.fault = s.fault ∧ s'.fcause = s.fcause ∧ s'.dout = s.dout ∧
  s'.nil = s.nil ∧ s'.din = s.din ∧ s'.input = s.input ∧
  ∀ k : SlotNum, s'.slot k = s.slot k ∨ ((s.slot k).valid = false ∧ (s'.slot k).valid = false)

end Sys2Proof.Machine
end

