-- ==== Sys2Proof/Certificates/Slice0/Obligations.lean ====
section
/-! DEFINITION. The statements for the provers. Each docstring names the rule of the spec a statement formalises. Unless it
says otherwise a statement holds for every configuration (`s.cfg`), every register number, type and operand. -/

open Sys2Proof Sys2Proof.Machine

/-! ## Encoding -/

/-- Decoding the word of a legal command gives the command back, with every operand at every value the encoding admits
(30_encoding.md R71 to R76). -/
def Obligations.DecodeInvertsEncode : Prop :=
  ∀ (c : Config) (i : Instr), i.wellFormed c = true → decode c (encode i) = .ok i

/-- A word that decodes is the word of exactly the command it decodes to, and that command is legal: no bit of a word is
dropped, and two words never spell one command (30_encoding.md R72, R80). -/
def Obligations.EncodeInvertsDecode : Prop :=
  ∀ (c : Config) (w : Cmd) (i : Instr), decode c w = .ok i → i.wellFormed c = true ∧ encode i = w

/-- The words the spec prints for its examples decode to the commands it prints beside them, in the configuration it
prints them for (30_encoding.md R85; 40 to 47). -/
def Obligations.SpecWordsDecode : Prop :=
  decode .standard 0x00008301#32 = .ok (.init (.sys false 3) 2) ∧
  decode .standard 0x0020C0C2#32 = .ok (.wrw (.arb true) 3 .v8 2) ∧
  decode .standard 0x0010C0C3#32 = .ok (.wrapp true 3 true) ∧
  decode .standard 0x06404045#32 = .ok (.rdbit (.sys true 0) 1 100) ∧
  decode .standard 0x3004808D#32 = .ok (.cvt (.arb false) (.arb true) 2 1) ∧
  decode .standard 0x40408010#32 = .ok (.veto 2 1 true) ∧
  decode .standard 0x80C10010#32 = .ok (.unwrap 4 3) ∧
  decode .standard 0x80C00092#32 = .ok (.gfin (.arb false) 3) ∧
  decode .standard 0x0840C014#32 = .ok (.add (.sys false 0) 3 1 2) ∧
  decode .standard 0x4040C159#32 = .ok (.cpl (.sys true 1) 3 1 true) ∧
  decode .standard 0x0840C0DD#32 = .ok (.shr (.arb true) 3 1 2) ∧
  decode .standard 0x0850C165#32 = .ok (.div21 true 1 3 4 1 2) ∧
  decode .standard 0x0CE6002B#32 = .ok (.rcp21div 0 8 9 3 3) ∧
  decode .standard 0x00100031#32 = .ok (.rdcfg 1)

/-- A word decodes to a command with a given mnemonic exactly when it has the fixed fields of that mnemonic's row of the
opcode table and meets the row's constraints (30_encoding.md R76, R80; spec/opcode_table.json). -/
def Obligations.LegalWordsAreTheTables : Prop :=
  ∀ (c : Config) (w : Cmd) (m : String),
    (∃ i, decode c w = .ok i ∧ mnemonicOf i = m) ↔ ∃ row ∈ opcodeTable, row.mnemonic = m ∧ row.admits c w

/-- Decoding depends on the word, on `W` and on `CAP` only; outside the fault state a word that does not decode raises
`ILLEGAL` and does nothing else, whatever data-in Word comes with it (60_exceptions.md R222). -/
def Obligations.IllegalWordsRaiseIllegal : Prop :=
  (∀ (c c' : Config) (w : Cmd), c'.W = c.W → c'.CAP = c.CAP → decode c' w = decode c w) ∧
  (∀ (s : State) (w : Cmd) (d : Nat) (rest : List HostAction), s.fault = false →
    s.input = .command w d :: rest → (∀ i, decode s.cfg w ≠ .ok i) →
    step s = .next ((s.present d rest).raise .illegal))

/-! ## The whole machine -/

/-- One step executes the command that the presented word decodes to, with its data-in Word at the port and the rest of
what the host does still to come; with nothing presented the block is idle and holds its state
(70_reset_and_hazards.md R262, 60_exceptions.md R241; log entries 2 and 3). -/
def Obligations.StepRunsTheDecodedCommand : Prop :=
  (∀ (s : State) (w : Cmd) (d : Nat) (rest : List HostAction) (i : Instr),
    s.input = .command w d :: rest → decode s.cfg w = .ok i → step s = exec i (s.present d rest)) ∧
  (∀ s : State, s.input = [] → step s = .next s)

/-- Reset: every register is empty with appendix and flag 0, so that no systems type can read it, every slot is invalid,
and `STATUS` and the response are 0; and when the host applies reset, in any state, the next state is that state, of
the same configuration (10_state.md R41 to R43, 70_reset_and_hazards.md R250). That reset is an entry of `input` between
commands, and that it keeps the rest of what the host does next, is the model's choice (log entries 2 and 5). -/
def Obligations.ResetGivesTheResetValues : Prop :=
  (∀ (c : Config) (input : List HostAction),
    (resetState c input).cfg = c ∧ (resetState c input).input = input ∧
    (∀ r : RegNum, (resetState c input).reg r = { body := [], app := false, err := false }) ∧
    (∀ (r : RegNum) (sgn : Bool) (n : Size), ¬readable (.sys sgn n) ((resetState c input).reg r)) ∧
    (∀ k : SlotNum, ((resetState c input).slot k).valid = false) ∧
    (resetState c input).fault = false ∧ (resetState c input).fcause = 0 ∧
    (resetState c input).dout = 0 ∧ (resetState c input).nil = false) ∧
  (∀ (s : State) (rest : List HostAction), s.input = .reset :: rest → step s = .next (resetState s.cfg rest))

/-- The reset state of every configuration is well formed. -/
def Obligations.ResetIsWellFormed : Prop :=
  (∀ (c : Config) (input : List HostAction), (resetState c input).wf) ∧ State.reset.wf

/-- Every step keeps the state well formed: registers hold at most `CAP` Words of `W` bits (10_state.md R21), a valid slot
holds the constants of a nonzero divisor of its size (R30), `FCAUSE` is 0 exactly while `FAULT` is 0 (R35), and the
port's Words have `W` bits. -/
def Obligations.StepKeepsWellFormed : Prop :=
  ∀ s t : State, s.wf → step s = .next t → t.wf

/-- Every step, and every command in every state, ends in a next state: no arithmetic result, fault or `nil` stops the
machine (20_memory.md R62, 60_exceptions.md R219). -/
def Obligations.EveryCommandAnswers : Prop :=
  (∀ s : State, ∃ t, step s = .next t) ∧ (∀ (i : Instr) (s : State), ∃ t, exec i s = .next t)

/-- The frame of every command: a register that is not one of its destinations, a slot that it does not construct, the
configuration, the data-in Word and what the host does next are unchanged, and `STATUS` is unchanged or records the
first fault (10_state.md R25, R26, R31, R35). -/
def Obligations.CommandFrame : Prop :=
  ∀ (i : Instr) (s t : State), exec i s = .next t →
    (∀ r : RegNum, r ∉ i.dests → t.reg r = s.reg r) ∧
    (∀ k : SlotNum, i.destSlot ≠ some k → t.slot k = s.slot k) ∧
    t.cfg = s.cfg ∧ t.din = s.din ∧ t.input = s.input ∧
    ((t.fault = s.fault ∧ t.fcause = s.fcause) ∨ (s.fault = false ∧ t.fault = true))

/-- Fault entry and the fault state (60_exceptions.md R221). Entry: a command that faults leaves every register and slot
as it was, sets `FAULT` and answers `(0, 0)`; `FCAUSE` becomes the code of its cause (R220): 1 for a word that is no
command, else that of the first precondition, in the order of the codes, that the command violates. In the fault state
the status read and a legal configuration read answer, and every other word, legal or not, changes nothing and answers
`(0, 0)`. -/
def Obligations.FaultEntryAndFaultState : Prop :=
  (∀ (w : Cmd) (s t : State), s.fault = false → issue w s = .next t → t.fault = true →
    t.regs = s.regs ∧ t.slots = s.slots ∧ t.cfg = s.cfg ∧ t.din = s.din ∧ t.input = s.input ∧
      t.fcause ≠ 0 ∧ t.dout = 0 ∧ t.nil = false) ∧
  (∀ (w : Cmd) (s t : State), s.ready → issue w s = .next t → t.fault = true →
    ((∀ i, decode s.cfg w ≠ .ok i) ∧ t.fcause = 1) ∨
    ∃ i, decode s.cfg w = .ok i ∧
      ((violates s i .operand ∧ t.fcause = 2) ∨ (¬violates s i .operand ∧
        ((violates s i .slot ∧ t.fcause = 3) ∨ (¬violates s i .slot ∧
          ((violates s i .finite ∧ t.fcause = 4) ∨ (¬violates s i .finite ∧
            ((violates s i .divzero ∧ t.fcause = 5) ∨ (¬violates s i .divzero ∧
              ((violates s i .index ∧ t.fcause = 6) ∨ (¬violates s i .index ∧
                violates s i .capacity ∧ t.fcause = 7))))))))))) ∧
  (∀ (w : Cmd) (s : State), s.fault = true →
    (w = 0x00000030#32 → issue w s = .next (s.answer (1 + 2 * s.fcause.toNat) false)) ∧
    (slice w 5 0 = 0x31 → slice w 19 6 = 0 → issue w s = .next (s.answer (cfgWord s.cfg (slice w 31 20)) false)) ∧
    (w ≠ 0x00000030#32 → ¬(slice w 5 0 = 0x31 ∧ slice w 19 6 = 0) → issue w s = .next (s.answer 0 false)))

/-- No command clears the fault state or changes its cause: a step out of it is the host's reset, which clears every
register and slot as well (60_exceptions.md R231). -/
def Obligations.OnlyResetLeavesTheFaultState : Prop :=
  ∀ s t : State, s.fault = true → step s = .next t →
    (t.fault = true ∧ t.fcause = s.fcause ∧ t.regs = s.regs ∧ t.slots = s.slots) ∨
    (∃ rest, s.input = .reset :: rest ∧ t = resetState s.cfg rest)

/-- A command that is executed passes a set error flag of any source register on to every destination register, and the
flag of the slot it applies; only `INIT` and `UNWRAP` do not (00_scope.md R19, 41_overflow_contract.md R129). -/
def Obligations.ErrorFlagsArePassedOn : Prop :=
  ∀ (i : Instr) (s t : State), exec i s = .next t → t.fault = false → i.lowersFlag = false →
    ∀ rd ∈ i.dests,
      (∀ ra ∈ i.sources, (s.reg ra).err = true → (t.reg rd).err = true) ∧
      (∀ k, i.sourceSlot = some k → (s.slot k).err = true → (t.reg rd).err = true)

/-- `nil` is answered only by the guards and the two constructions, which then change nothing else; and no command reads
the response of an earlier one (10_state.md R27; log entry 3 says why the model holds the response). -/
def Obligations.ResponseIsOnlyAnOutput : Prop :=
  (∀ (i : Instr) (s t : State), exec i s = .next t → t.nil = true →
    i.mayAnswerNil = true ∧ t = s.answer 0 true) ∧
  (∀ (i : Instr) (s : State) (d : Nat) (z : Bool), exec i (s.answer d z) = exec i s)

/-- Every command but `WRW` ignores the data-in Word, and `WRW` ignores its bits at and above the element's width
(30_encoding.md R75). -/
def Obligations.OnlyWrwReadsDataIn : Prop :=
  (∀ (i : Instr) (s : State) (d : Nat), (∀ t r vw idx, i ≠ .wrw t r vw idx) →
    ∃ u, exec i s = .next u ∧ exec i { s with din := d } = .next { u with din := d }) ∧
  (∀ (t : Ty) (r : RegNum) (vw : View) (idx : BitVec 12) (s : State) (d : Nat),
    d % 2 ^ vw.bits = s.din % 2 ^ vw.bits →
    ∃ u, exec (.wrw t r vw idx) s = .next u ∧
      exec (.wrw t r vw idx) { s with din := d } = .next { u with din := d })

/-- After reset every slot is invalid, and the other fields of an invalid slot are not observable: two states that differ
in nothing else stay so, and give every command the same response (10_state.md R42). -/
def Obligations.InvalidSlotsAreUnobservable : Prop :=
  (∀ (c : Config) (input : List HostAction) (k : SlotNum), ((resetState c input).slot k).valid = false) ∧
  (∀ (i : Instr) (s s' t : State), sameVisible s s' → exec i s = .next t →
    ∃ t', exec i s' = .next t' ∧ sameVisible t t')

/-- The effective bits of a register under a type are the bits of the two's-complement pattern of the integer it reads
as, and its effective appendix says that the integer is negative (00_scope.md R13 to R15). -/
def Obligations.EffectiveBitsAreTheIntegers : Prop :=
  ∀ (c : Config) (t : Ty) (r : Reg), r.wf c → readable t r →
    (∀ i, effBitOf c t r i = patternBit c t r i) ∧ effAppOf c t r = decide (valueOf c t r < 0)

/-- Outside the fault state a word reports the first check that fails, in the order of the cause codes: an illegal word
`ILLEGAL`, a command the least cause whose precondition it violates; and with none violated no fault is raised
(60_exceptions.md R220, R223). -/
def Obligations.FirstFailingCheckIsReported : Prop :=
  ∀ (s : State) (w : Cmd), s.ready →
    ((∀ i, decode s.cfg w ≠ .ok i) → issue w s = .next (s.raise .illegal)) ∧
    (∀ i, decode s.cfg w = .ok i →
      (∀ k, violates s i k → (∀ k' : Cause, k'.code < k.code → ¬violates s i k') →
        issue w s = .next (s.raise k)) ∧
      ((∀ k, ¬violates s i k) → ∃ t, issue w s = .next t ∧ t.fault = false))

/-! ## The Word Model -/

/-- `INIT` writes the zero of the type with the flag clear (40_word_model.md R100). -/
def Obligations.InitWritesZero : Prop :=
  ∀ (s : State) (t : Ty) (r : RegNum), s.fault = false →
    ∃ v, exec (.init t r) s = .next (s.write r v) ∧ holds s.cfg t v 0 ∧ v.app = false ∧ v.err = false

/-- `WRW` replaces the bits of one element by the low bits of the data-in Word and leaves every other bit of the pattern,
the appendix and the flag; a systems value keeps its size, an arbitrary one is normalised
(20_memory.md R56, 40_word_model.md R101). -/
def Obligations.WrwReplacesOneElement : Prop :=
  ∀ (s : State) (t : Ty) (r : RegNum) (vw : View) (idx : BitVec 12), s.ready → vw.bits ≤ s.cfg.W →
    readable t (s.reg r) → elementInRange s.cfg t vw.bits idx.toNat →
    ∃ v, exec (.wrw t r vw idx) s = .next (s.write r v) ∧
      v.wf s.cfg ∧ v.app = (s.reg r).app ∧ v.err = (s.reg r).err ∧
      (match t with
        | .sys _ n => v.len = words n
        | .arb _ => v.normal s.cfg) ∧
      ∀ j, (match t with
            | .sys _ n => j < bitLen s.cfg n
            | .arb _ => True) →
        patternBit s.cfg t v j =
          if vw.bits * idx.toNat ≤ j ∧ j < vw.bits * (idx.toNat + 1) then s.din.testBit (j - vw.bits * idx.toNat)
          else patternBit s.cfg t (s.reg r) j

/-- `WRAPP` sets the appendix, keeps the flag, and drops exactly the top Words that the new appendix makes redundant
(40_word_model.md R102). -/
def Obligations.WrappSetsTheAppendix : Prop :=
  ∀ (s : State) (sgn : Bool) (r : RegNum) (bit : Bool), s.fault = false →
    ∃ v k, exec (.wrapp sgn r bit) s = .next (s.write r v) ∧
      v.app = bit ∧ v.err = (s.reg r).err ∧ v.normal s.cfg ∧
      (s.reg r).body = v.body ++ List.replicate k (extWord s.cfg bit)

/-- `RDW` answers the element: bit `j` below the width is bit `V * idx + j` of the register's pattern, past the stored
Words the extension (20_memory.md R55, 40_word_model.md R103). -/
def Obligations.RdwReadsOneElement : Prop :=
  ∀ (s : State) (t : Ty) (r : RegNum) (vw : View) (idx : BitVec 12), s.ready → readable t (s.reg r) →
    ∃ x, exec (.rdw t r vw idx) s = .next (s.answer x false) ∧
      ∀ j, x.testBit j = (decide (j < vw.bits) && patternBit s.cfg t (s.reg r) (vw.bits * idx.toNat + j))

/-- `RDBIT` answers one bit of the pattern, `RDAPP` whether the pattern is negative, `RDLEN` the number of stored Words and
`RDE` the error flag (40_word_model.md R104 to R107). -/
def Obligations.BitAndFieldReads : Prop :=
  ∀ s : State, s.ready →
    (∀ (t : Ty) (r : RegNum) (idx : BitVec 12), readable t (s.reg r) →
      exec (.rdbit t r idx) s = .next (s.answer (patternBit s.cfg t (s.reg r) idx.toNat).toNat false)) ∧
    (∀ (t : Ty) (r : RegNum), readable t (s.reg r) →
      exec (.rdapp t r) s = .next (s.answer (if valueOf s.cfg t (s.reg r) < 0 then 1 else 0) false)) ∧
    (∀ r : RegNum, exec (.rdlen r) s = .next (s.answer (s.reg r).body.length false)) ∧
    (∀ r : RegNum, exec (.rde r) s = .next (s.answer (if (s.reg r).err = true then 1 else 0) false))

/-- In every state, the fault state too, `RDSTAT` answers `FAULT + 2 * FCAUSE` and `RDCFG` the table of the configuration
(10_state.md R35, R36; 40_word_model.md R113, R114). -/
def Obligations.StatusAndConfigurationReads : Prop :=
  ∀ s : State,
    exec .rdstat s = .next (s.answer ((if s.fault = true then 1 else 0) + 2 * s.fcause.toNat) false) ∧
    (∃ x, exec (.rdcfg 0) s = .next (s.answer x false) ∧ s.cfg.W = 8 * 2 ^ x) ∧
    exec (.rdcfg 1) s = .next (s.answer s.cfg.CAP false) ∧
    exec (.rdcfg 2) s = .next (s.answer 16 false) ∧
    exec (.rdcfg 3) s = .next (s.answer 4 false) ∧
    exec (.rdcfg 4) s = .next (s.answer 1 false) ∧
    ∀ idx : BitVec 12, 5 ≤ idx.toNat → exec (.rdcfg idx) s = .next (s.answer 0 false)

/-- `CNT` writes the number of bits equal to `bit`: of the `L` bits of a systems value; of the infinite pattern of an
arbitrary one, infinite when the appendix is `bit` (40_word_model.md R108). -/
def Obligations.CntCountsBits : Prop :=
  ∀ (s : State) (t : Ty) (rd ra : RegNum) (bit : Bool), s.ready → readable t (s.reg ra) →
    ∃ v, exec (.cnt t rd ra bit) s = .next (s.write rd v) ∧ v.err = (s.reg ra).err ∧
      match t with
      | .sys _ n =>
        holdsCount s.cfg v
          (.finite ((Finset.range (bitLen s.cfg n)).filter fun j => patternBit s.cfg t (s.reg ra) j = bit).card)
      | .arb _ =>
        if (s.reg ra).app = bit then holdsCount s.cfg v .infinite
        else ∃ m : Finset Nat, (∀ j, j ∈ m ↔ patternBit s.cfg t (s.reg ra) j = bit) ∧
          holdsCount s.cfg v (.finite m.card)

/-- `ASC` writes the length of the run of bits equal to `bit` from bit 0 up: at most `L` for a systems value; infinite for
an arbitrary value whose every bit is `bit` (40_word_model.md R109). -/
def Obligations.AscCountsTheLowRun : Prop :=
  ∀ (s : State) (t : Ty) (rd ra : RegNum) (bit : Bool), s.ready → readable t (s.reg ra) →
    ∃ v, exec (.asc t rd ra bit) s = .next (s.write rd v) ∧ v.err = (s.reg ra).err ∧
      match t with
      | .sys _ n =>
        ∃ m ≤ bitLen s.cfg n, holdsCount s.cfg v (.finite m) ∧
          (∀ j < m, patternBit s.cfg t (s.reg ra) j = bit) ∧
          (m < bitLen s.cfg n → patternBit s.cfg t (s.reg ra) m ≠ bit)
      | .arb _ =>
        (∃ m, holdsCount s.cfg v (.finite m) ∧ (∀ j < m, patternBit s.cfg t (s.reg ra) j = bit) ∧
          patternBit s.cfg t (s.reg ra) m ≠ bit) ∨
        (holdsCount s.cfg v .infinite ∧ ∀ j, patternBit s.cfg t (s.reg ra) j = bit)

/-- `DSC` writes the length of the run of bits equal to `bit` from the most significant end down: of a systems value's `L`
bits; of an arbitrary value infinite or 0, as its appendix is `bit` or not (40_word_model.md R110). -/
def Obligations.DscCountsTheHighRun : Prop :=
  ∀ (s : State) (t : Ty) (rd ra : RegNum) (bit : Bool), s.ready → readable t (s.reg ra) →
    ∃ v, exec (.dsc t rd ra bit) s = .next (s.write rd v) ∧ v.err = (s.reg ra).err ∧
      match t with
      | .sys _ n =>
        ∃ m ≤ bitLen s.cfg n, holdsCount s.cfg v (.finite m) ∧
          (∀ j, bitLen s.cfg n - m ≤ j → j < bitLen s.cfg n → patternBit s.cfg t (s.reg ra) j = bit) ∧
          (m < bitLen s.cfg n → patternBit s.cfg t (s.reg ra) (bitLen s.cfg n - 1 - m) ≠ bit)
      | .arb _ => holdsCount s.cfg v (if (s.reg ra).app = bit then .infinite else .finite 0)

/-- `BSWAP` writes the value whose byte `j` is byte `L / 8 - 1 - j` of the source, with the source's flag
(40_word_model.md R111). -/
def Obligations.BswapReversesTheBytes : Prop :=
  ∀ (s : State) (sgn : Bool) (n : Size) (rd ra : RegNum), s.ready → (s.reg ra).len = words n →
    ∃ v, exec (.bswap sgn n rd ra) s = .next (s.write rd v) ∧
      v.wf s.cfg ∧ v.len = words n ∧ v.app = false ∧ v.err = (s.reg ra).err ∧
      ∀ j < bitLen s.cfg n / 8,
        v.nat s.cfg / 256 ^ j % 256 = (s.reg ra).nat s.cfg / 256 ^ (bitLen s.cfg n / 8 - 1 - j) % 256

/-- `CVT` writes the source's pattern cut to the destination type, and sets the flag when the destination does not hold
the same value; it never runs out of capacity (40_word_model.md R112). -/
def Obligations.CvtConvertsExactly : Prop :=
  ∀ (s : State) (ts td : Ty) (rd ra : RegNum), s.ready → readable ts (s.reg ra) →
    ∃ v own, exec (.cvt ts td rd ra) s = .next (s.write rd v) ∧
      holds s.cfg td v (valueOf s.cfg ts (s.reg ra)) ∧ v.err = ((s.reg ra).err || own) ∧
      (own = false ↔
        (isInfinite ts (s.reg ra) = false ∧ inDomain s.cfg td (valueOf s.cfg ts (s.reg ra))) ∨
        (isInfinite ts (s.reg ra) = true ∧ td = .arb false))

/-! ## The Overflow Contract -/

/-- `VETO` copies a register and ORs its modifier into the flag; `UNWRAP` copies a register and clears the flag
(41_overflow_contract.md R130, R131). -/
def Obligations.VetoAndUnwrapCopy : Prop :=
  ∀ (s : State) (rd ra : RegNum), s.fault = false →
    (∀ b : Bool, exec (.veto rd ra b) s =
      .next (s.write rd { body := (s.reg ra).body, app := (s.reg ra).app, err := (s.reg ra).err || b })) ∧
    exec (.unwrap rd ra) s = .next (s.write rd { body := (s.reg ra).body, app := (s.reg ra).app, err := false })

/-- `FEQ` answers 1 when both registers read as one integer and have one flag, else 0 (41_overflow_contract.md R132). -/
def Obligations.FeqComparesValueAndFlag : Prop :=
  ∀ (s : State) (t : Ty) (ra rb : RegNum), s.ready → readable t (s.reg ra) → readable t (s.reg rb) →
    exec (.feq t ra rb) s =
      .next (s.answer
        (if valueOf s.cfg t (s.reg ra) = valueOf s.cfg t (s.reg rb) ∧ (s.reg ra).err = (s.reg rb).err then 1 else 0)
        false)

/-- The guards answer `nil` for the value they reject and change nothing: `GNZ` zero, `GNAT` a negative or infinite value,
`GFIN` an infinite value (41_overflow_contract.md R133 to R135). -/
def Obligations.GuardsAnswerNil : Prop :=
  ∀ (s : State) (t : Ty) (ra : RegNum), s.ready → readable t (s.reg ra) →
    exec (.gnz t ra) s = .next (s.answer 0 (decide (valueOf s.cfg t (s.reg ra) = 0))) ∧
    exec (.gnat t ra) s = .next (s.answer 0 (decide (valueOf s.cfg t (s.reg ra) < 0))) ∧
    exec (.gfin t ra) s = .next (s.answer 0 (isInfinite t (s.reg ra)))

/-! ## The adder -/

/-- `ADD` and `SUB` write the true sum and the true difference cut to the type; the flag is the OR of the operands' flags
and of a result outside the type. Under `ux` a negative difference is written as its pattern with the flag set
(42_adder.md R140, R141). -/
def Obligations.AddAndSubWriteTheTrueResult : Prop :=
  ∀ (s : State) (t : Ty) (rd ra rb : RegNum) (a b : Int), s.ready →
    readable t (s.reg ra) → readable t (s.reg rb) →
    isInfinite t (s.reg ra) = false → isInfinite t (s.reg rb) = false →
    a = valueOf s.cfg t (s.reg ra) → b = valueOf s.cfg t (s.reg rb) →
    (inCapacity s.cfg t (a + b) →
      ∃ v own, exec (.add t rd ra rb) s = .next (s.write rd v) ∧ holds s.cfg t v (a + b) ∧
        v.err = ((s.reg ra).err || (s.reg rb).err || own) ∧ (own = false ↔ inDomain s.cfg t (a + b))) ∧
    (inCapacity s.cfg t (a - b) →
      ∃ v own, exec (.sub t rd ra rb) s = .next (s.write rd v) ∧ holds s.cfg t v (a - b) ∧
        v.err = ((s.reg ra).err || (s.reg rb).err || own) ∧ (own = false ↔ inDomain s.cfg t (a - b)))

/-- The word-level ripple of Word additions writes the records that `ADD` and `SUB` write, own error bit and capacity fault
included, for operands that pass the length and finiteness checks (42_adder.md R142). -/
def Obligations.RippleAdderIsAddAndSub : Prop :=
  ∀ (s : State) (t : Ty) (rd ra rb : RegNum) (sub : Bool), s.ready →
    readable t (s.reg ra) → readable t (s.reg rb) →
    isInfinite t (s.reg ra) = false → isInfinite t (s.reg rb) = false →
    exec (if sub then .sub t rd ra rb else .add t rd ra rb) s =
      match rippleRecord s.cfg t sub (s.reg ra) (s.reg rb) with
      | .ok v => .next (s.write rd v)
      | .error k => .next (s.raise k)

/-! ## The Complement/Magnitude Engine -/

/-- `NOT` inverts every bit of the pattern, the appendix included, keeps the flag, and never faults on a readable operand
(43_complement.md R150). -/
def Obligations.NotInvertsThePattern : Prop :=
  ∀ (s : State) (t : Ty) (rd ra : RegNum), s.ready → readable t (s.reg ra) →
    ∃ v, exec (.bnot t rd ra) s = .next (s.write rd v) ∧
      holds s.cfg t v (-valueOf s.cfg t (s.reg ra) - 1) ∧ v.err = (s.reg ra).err ∧
      (match t with
        | .sys _ n => ∀ j < bitLen s.cfg n, patternBit s.cfg t v j = !patternBit s.cfg t (s.reg ra) j
        | .arb _ => ∀ j, patternBit s.cfg t v j = !patternBit s.cfg t (s.reg ra) j)

/-- `CPL` inverts the pattern and adds its modifier; it overflows only when it negates the least value of a signed systems
type (43_complement.md R151). -/
def Obligations.CplComplements : Prop :=
  ∀ (s : State) (t : Ty) (rd ra : RegNum) (inc : Bool), s.ready → readable t (s.reg ra) →
    inCapacity s.cfg t (-valueOf s.cfg t (s.reg ra) - 1 + (if inc then 1 else 0)) →
    ∃ v own, exec (.cpl t rd ra inc) s = .next (s.write rd v) ∧
      holds s.cfg t v (-valueOf s.cfg t (s.reg ra) - 1 + (if inc then 1 else 0)) ∧
      v.err = ((s.reg ra).err || own) ∧
      (own = true ↔ inc = true ∧
        ∃ n, t = .sys true n ∧ valueOf s.cfg t (s.reg ra) = -(2 ^ (bitLen s.cfg n - 1)))

/-- `MAG` writes the magnitude of a signed value and copies an unsigned one, infinite or not; it overflows only on the
least value of a signed systems type (43_complement.md R152). -/
def Obligations.MagWritesTheMagnitude : Prop :=
  ∀ (s : State) (t : Ty) (rd ra : RegNum), s.ready → readable t (s.reg ra) →
    inCapacity s.cfg t (magnitudeOf t (valueOf s.cfg t (s.reg ra))) →
    ∃ v own, exec (.mag t rd ra) s = .next (s.write rd v) ∧
      holds s.cfg t v (magnitudeOf t (valueOf s.cfg t (s.reg ra))) ∧
      v.err = ((s.reg ra).err || own) ∧
      (own = true ↔ ∃ n, t = .sys true n ∧ valueOf s.cfg t (s.reg ra) = -(2 ^ (bitLen s.cfg n - 1)))

/-- The round-trip law: for every signed type the record `MAG` writes is the one `CPL` with increment writes when the
operand is negative, and reads as the operand otherwise, the least value included (43_complement.md R153). -/
def Obligations.MagnitudeRoundTrip : Prop :=
  ∀ (s : State) (t : Ty) (rd ra : RegNum), s.ready → (∃ n, t = .sys true n) ∨ t = .arb true →
    readable t (s.reg ra) → inCapacity s.cfg t (-valueOf s.cfg t (s.reg ra)) →
    ∃ m n : Reg, exec (.mag t rd ra) s = .next (s.write rd m) ∧ exec (.cpl t rd ra true) s = .next (s.write rd n) ∧
      (valueOf s.cfg t (s.reg ra) < 0 → m.body = n.body ∧ m.app = n.app) ∧
      (0 ≤ valueOf s.cfg t (s.reg ra) → readable t m ∧ valueOf s.cfg t m = valueOf s.cfg t (s.reg ra))

/-! ## The Shift Engine -/

/-- `SHL` by a finite distance `d` writes `a * 2^d` cut to the type, so an overshift of a systems value writes 0; by the
infinite distance it writes 0; a shift never sets the flag (44_shift.md R159, R160). -/
def Obligations.ShlShiftsUp : Prop :=
  ∀ (s : State) (t : Ty) (rd ra rb : RegNum), s.ready → readable t (s.reg ra) →
    ((s.reg rb).app = false →
      inCapacity s.cfg t (valueOf s.cfg t (s.reg ra) * 2 ^ distance s.cfg (s.reg rb))) →
    ∃ v, exec (.shl t rd ra rb) s = .next (s.write rd v) ∧
      holds s.cfg t v
        (if (s.reg rb).app = true then 0 else valueOf s.cfg t (s.reg ra) * 2 ^ distance s.cfg (s.reg rb)) ∧
      v.err = ((s.reg ra).err || (s.reg rb).err)

/-- `SHR` by a finite distance `d` writes the floor of `a / 2^d`, so an overshift writes the all-appendix pattern; by the
infinite distance it writes the all-appendix pattern; a shift never sets the flag and `SHR` never runs out of capacity
(44_shift.md R159, R161). -/
def Obligations.ShrShiftsDown : Prop :=
  ∀ (s : State) (t : Ty) (rd ra rb : RegNum), s.ready → readable t (s.reg ra) →
    ∃ v, exec (.shr t rd ra rb) s = .next (s.write rd v) ∧
      holds s.cfg t v
        (if (s.reg rb).app = true then (if valueOf s.cfg t (s.reg ra) < 0 then -1 else 0)
          else valueOf s.cfg t (s.reg ra) / 2 ^ distance s.cfg (s.reg rb)) ∧
      v.err = ((s.reg ra).err || (s.reg rb).err)

/-- `SHLM` and `SHRM` reduce a finite distance modulo `L` and then shift (44_shift.md R162, R163). -/
def Obligations.MaskedShiftsReduceTheDistance : Prop :=
  ∀ (s : State) (sgn : Bool) (n : Size) (rd ra rb : RegNum), s.ready → (s.reg ra).len = words n →
    (s.reg rb).app = false →
    (∃ v, exec (.shlm sgn n rd ra rb) s = .next (s.write rd v) ∧
      holds s.cfg (.sys sgn n) v
        (valueOf s.cfg (.sys sgn n) (s.reg ra) * 2 ^ (distance s.cfg (s.reg rb) % bitLen s.cfg n)) ∧
      v.err = ((s.reg ra).err || (s.reg rb).err)) ∧
    (∃ v, exec (.shrm sgn n rd ra rb) s = .next (s.write rd v) ∧
      holds s.cfg (.sys sgn n) v
        (valueOf s.cfg (.sys sgn n) (s.reg ra) / 2 ^ (distance s.cfg (s.reg rb) % bitLen s.cfg n)) ∧
      v.err = ((s.reg ra).err || (s.reg rb).err))

/-- The shift laws: a shift by distance 0 either way reads as the operand; and shifting up and then down by one distance
gives the operand back when no bits are shifted out, which for a signed systems type means that the top `d + 1` bits are
equal, for an unsigned one that the top `d` bits are 0, and for an arbitrary type always holds (44_shift.md R164). -/
def Obligations.ShiftLaws : Prop :=
  (∀ (s : State) (t : Ty) (rd ra rb : RegNum), s.ready → readable t (s.reg ra) →
    (s.reg rb).app = false → distance s.cfg (s.reg rb) = 0 → (s.reg rb).err = false →
    ∃ u v : Reg, exec (.shl t rd ra rb) s = .next (s.write rd u) ∧ exec (.shr t rd ra rb) s = .next (s.write rd v) ∧
      u = v ∧ readable t u ∧ valueOf s.cfg t u = valueOf s.cfg t (s.reg ra) ∧ u.err = (s.reg ra).err) ∧
  (∀ (s : State) (t : Ty) (rd ra rb : RegNum), s.ready → readable t (s.reg ra) → rd ≠ rb →
    (s.reg rb).app = false → (s.reg rb).err = false →
    (match t with
      | .sys true n => distance s.cfg (s.reg rb) < bitLen s.cfg n ∧
        ∀ j < bitLen s.cfg n, bitLen s.cfg n - 1 - distance s.cfg (s.reg rb) ≤ j →
          patternBit s.cfg t (s.reg ra) j = patternBit s.cfg t (s.reg ra) (bitLen s.cfg n - 1)
      | .sys false n => distance s.cfg (s.reg rb) < bitLen s.cfg n ∧
        ∀ j < bitLen s.cfg n, bitLen s.cfg n - distance s.cfg (s.reg rb) ≤ j →
          patternBit s.cfg t (s.reg ra) j = false
      | .arb _ => inCapacity s.cfg t (valueOf s.cfg t (s.reg ra) * 2 ^ distance s.cfg (s.reg rb))) →
    ∃ (s' : State) (v : Reg), exec (.shl t rd ra rb) s = .next s' ∧ exec (.shr t rd rd rb) s' = .next (s'.write rd v) ∧
      readable t v ∧ valueOf s.cfg t v = valueOf s.cfg t (s.reg ra) ∧ v.err = (s.reg ra).err)

/-- The word-level shifter writes the records of `SHL` and `SHR`: for a systems type by a distance below `L`, for an
arbitrary type by every finite distance, the capacity fault included (44_shift.md R165). -/
def Obligations.WordShifterIsShlAndShr : Prop :=
  ∀ (s : State) (t : Ty) (rd ra rb : RegNum), s.ready → readable t (s.reg ra) →
    (s.reg rb).app = false →
    (match t with
      | .sys _ n => distance s.cfg (s.reg rb) < bitLen s.cfg n
      | .arb _ => True) →
    (exec (.shl t rd ra rb) s =
      match shiftUpRecord s.cfg t (s.reg ra) (distance s.cfg (s.reg rb)) ((s.reg ra).err || (s.reg rb).err) with
      | .ok v => .next (s.write rd v)
      | .error k => .next (s.raise k)) ∧
    (exec (.shr t rd ra rb) s =
      match shiftDownRecord s.cfg t (s.reg ra) (distance s.cfg (s.reg rb)) ((s.reg ra).err || (s.reg rb).err) with
      | .ok v => .next (s.write rd v)
      | .error k => .next (s.raise k))

/-! ## The Multiplication Engine -/

/-- `MUL` writes the true product cut to the type, with the OR of the operands' flags and of a product outside the type;
`SQR` writes the true square likewise, and in every state does what `MUL` does with both operands the one source
(45_multiply.md R170, R172). -/
def Obligations.MulAndSqrWriteTheProduct : Prop :=
  (∀ (s : State) (t : Ty) (rd ra rb : RegNum) (a b : Int), s.ready →
    readable t (s.reg ra) → readable t (s.reg rb) →
    isInfinite t (s.reg ra) = false → isInfinite t (s.reg rb) = false →
    a = valueOf s.cfg t (s.reg ra) → b = valueOf s.cfg t (s.reg rb) →
    (inCapacity s.cfg t (a * b) →
      ∃ v own, exec (.mul t rd ra rb) s = .next (s.write rd v) ∧ holds s.cfg t v (a * b) ∧
        v.err = ((s.reg ra).err || (s.reg rb).err || own) ∧ (own = false ↔ inDomain s.cfg t (a * b))) ∧
    (inCapacity s.cfg t (a * a) →
      ∃ v own, exec (.sqr t rd ra) s = .next (s.write rd v) ∧ holds s.cfg t v (a * a) ∧
        v.err = ((s.reg ra).err || own) ∧ (own = false ↔ inDomain s.cfg t (a * a)))) ∧
  (∀ (s : State) (t : Ty) (rd ra : RegNum), exec (.sqr t rd ra) s = exec (.mul t rd ra ra) s)

/-- `MULF` writes the full product as a Doublet of `2N` Words with no error of its own: no product is lost
(45_multiply.md R171). -/
def Obligations.MulfWritesTheDoublet : Prop :=
  ∀ (s : State) (sgn : Bool) (n : Size) (rd ra rb : RegNum), s.ready →
    (s.reg ra).len = words n → (s.reg rb).len = words n →
    ∃ v, exec (.mulf sgn n rd ra rb) s = .next (s.write rd v) ∧
      (∀ w ∈ v.body, w < s.cfg.B) ∧ v.len = 2 * words n ∧ v.app = false ∧
      v.err = ((s.reg ra).err || (s.reg rb).err) ∧
      (if sgn = true ∧ 2 ^ (2 * bitLen s.cfg n - 1) ≤ v.nat s.cfg then
          (v.nat s.cfg : Int) - 2 ^ (2 * bitLen s.cfg n)
        else v.nat s.cfg) =
        valueOf s.cfg (.sys sgn n) (s.reg ra) * valueOf s.cfg (.sys sgn n) (s.reg rb)

/-- Distributivity, with the operands in `v0` to `v3` and the results in `v4` to `v13`: for finite operands and, under an
arbitrary type, intermediate results that fit, the ten commands all complete and the payload of `(a + b) * (c + d)` is
that of `(a*c + a*d) + (b*c + b*d)` (45_multiply.md R173). -/
def Obligations.Distributivity : Prop :=
  ∀ (s : State) (t : Ty) (a b c d : Int), s.ready →
    (∀ r : RegNum, r.val < 4 → readable t (s.reg r) ∧ isInfinite t (s.reg r) = false) →
    a = valueOf s.cfg t (s.reg 0) → b = valueOf s.cfg t (s.reg 1) →
    c = valueOf s.cfg t (s.reg 2) → d = valueOf s.cfg t (s.reg 3) →
    (∀ v ∈ [a + b, c + d, (a + b) * (c + d), a * c, a * d, b * c, b * d, a * c + a * d, b * c + b * d],
      inCapacity s.cfg t v) →
    ∃ s', execAll [.add t 4 0 1, .add t 5 2 3, .mul t 6 4 5, .mul t 7 0 2, .mul t 8 0 3, .mul t 9 1 2,
        .mul t 10 1 3, .add t 11 7 8, .add t 12 9 10, .add t 13 11 12] s = .next s' ∧
      (s'.reg 6).body = (s'.reg 13).body ∧ (s'.reg 6).app = (s'.reg 13).app

/-- The schoolbook multi-word product is the product, and with the correction of the high half it gives the record that
`MULF` writes (45_multiply.md R174). -/
def Obligations.SchoolbookIsMulf : Prop :=
  (∀ (b : Nat) (us vs : List Nat), 2 ≤ b → (∀ u ∈ us, u < b) → (∀ v ∈ vs, v < b) →
    (schoolbook b us vs).length = us.length + vs.length ∧ (∀ p ∈ schoolbook b us vs, p < b) ∧
    natOf b (schoolbook b us vs) = natOf b us * natOf b vs) ∧
  (∀ (s : State) (sgn : Bool) (n : Size) (rd ra rb : RegNum), s.ready →
    (s.reg ra).len = words n → (s.reg rb).len = words n →
    exec (.mulf sgn n rd ra rb) s = .next (s.write rd (mulfRecord s.cfg sgn n (s.reg ra) (s.reg rb))))

/-! ## The Division Engine -/

/-- `DIV` on two finite values with a nonzero divisor writes the quotient rounded toward zero and the remainder with the
dividend's sign, both with one flag: the OR of the operands' flags and of a quotient outside the type
(46_divide.md R179, R180). -/
def Obligations.DivDividesFiniteValues : Prop :=
  ∀ (s : State) (t : Ty) (rd re ra rb : RegNum) (a b : Int), s.ready →
    readable t (s.reg ra) → readable t (s.reg rb) →
    isInfinite t (s.reg ra) = false → isInfinite t (s.reg rb) = false →
    a = valueOf s.cfg t (s.reg ra) → b = valueOf s.cfg t (s.reg rb) → b ≠ 0 →
    inCapacity s.cfg t (a.tdiv b) →
    ∃ q r own, exec (.div t rd re ra rb) s = .next (s.write2 rd q re r 0) ∧
      holds s.cfg t q (a.tdiv b) ∧ holds s.cfg t r (a - a.tdiv b * b) ∧
      q.err = ((s.reg ra).err || (s.reg rb).err || own) ∧ r.err = q.err ∧
      (own = false ↔ inDomain s.cfg t (a.tdiv b))

/-- Under a systems type the one overflow of `DIV` on flag-free operands is the least value by -1 under a signed type; its
quotient then reads as the least value and its remainder as 0 (46_divide.md R181). -/
def Obligations.DivOverflowsOnlyOnMinByMinusOne : Prop :=
  ∀ (s : State) (sgn : Bool) (n : Size) (rd re ra rb : RegNum), s.ready →
    (s.reg ra).len = words n → (s.reg rb).len = words n →
    (s.reg ra).err = false → (s.reg rb).err = false → valueOf s.cfg (.sys sgn n) (s.reg rb) ≠ 0 →
    ∃ q r, exec (.div (.sys sgn n) rd re ra rb) s = .next (s.write2 rd q re r 0) ∧
      (q.err = true ↔ sgn = true ∧
        valueOf s.cfg (.sys sgn n) (s.reg ra) = -(2 ^ (bitLen s.cfg n - 1)) ∧
        valueOf s.cfg (.sys sgn n) (s.reg rb) = -1) ∧
      r.err = q.err ∧
      (q.err = true → valueOf s.cfg (.sys sgn n) q = -(2 ^ (bitLen s.cfg n - 1)) ∧
        valueOf s.cfg (.sys sgn n) r = 0)

/-- Under `ux`, a finite dividend by an infinite divisor gives quotient 0 and the dividend as remainder with no error; an
infinite dividend by a finite nonzero divisor gives the signed quotient and remainder of the patterns, with the
parameter `INFDIV_ERR` as the own error bit (46_divide.md R183, R184). -/
def Obligations.DivWithOneInfiniteOperand : Prop :=
  ∀ (s : State) (rd re ra rb : RegNum) (a b : Int), s.ready →
    a = valueOf s.cfg (.arb false) (s.reg ra) → b = valueOf s.cfg (.arb false) (s.reg rb) →
    ((s.reg ra).app = false → (s.reg rb).app = true →
      ∃ q r, exec (.div (.arb false) rd re ra rb) s = .next (s.write2 rd q re r 0) ∧
        holds s.cfg (.arb false) q 0 ∧ holds s.cfg (.arb false) r a ∧
        q.err = ((s.reg ra).err || (s.reg rb).err) ∧ r.err = q.err) ∧
    ((s.reg ra).app = true → (s.reg rb).app = false → b ≠ 0 →
      ∃ q r, exec (.div (.arb false) rd re ra rb) s = .next (s.write2 rd q re r 0) ∧
        holds s.cfg (.arb false) q (a.tdiv b) ∧ holds s.cfg (.arb false) r (a - a.tdiv b * b) ∧
        q.err = ((s.reg ra).err || (s.reg rb).err || s.cfg.infdivErr) ∧ r.err = q.err)

/-- `DIV21` divides a Doublet of the type by a nonzero value: the low `L` bits of the true quotient, flagged when it is
outside the type, and the exact remainder (46_divide.md R185). -/
def Obligations.Div21DividesADoublet : Prop :=
  ∀ (s : State) (sgn : Bool) (n : Size) (rd re ra rb : RegNum) (a b : Int), s.ready →
    (s.reg ra).len = 2 * words n → (s.reg rb).len = words n →
    a = (if sgn = true ∧ 2 ^ (2 * bitLen s.cfg n - 1) ≤ (s.reg ra).nat s.cfg then
          ((s.reg ra).nat s.cfg : Int) - 2 ^ (2 * bitLen s.cfg n)
        else (s.reg ra).nat s.cfg) →
    b = valueOf s.cfg (.sys sgn n) (s.reg rb) → b ≠ 0 →
    ∃ q r own, exec (.div21 sgn n rd re ra rb) s = .next (s.write2 rd q re r 0) ∧
      holds s.cfg (.sys sgn n) q (a.tdiv b) ∧ holds s.cfg (.sys sgn n) r (a - a.tdiv b * b) ∧
      valueOf s.cfg (.sys sgn n) r = a - a.tdiv b * b ∧
      q.err = ((s.reg ra).err || (s.reg rb).err || own) ∧ r.err = q.err ∧
      (own = false ↔ inDomain s.cfg (.sys sgn n) (a.tdiv b))

/-- The division-inverse law for finite operands: when `DIV` sets no flag, `MUL` of the quotient by the divisor and then
`ADD` of the remainder complete, set no flag, and read as the dividend (46_divide.md R186, 42_adder.md R143). The quotient
and the remainder may replace the dividend but not the divisor, and the product may not replace the remainder: the later
commands read them. -/
def Obligations.DivisionInverse : Prop :=
  ∀ (s s1 : State) (t : Ty) (rq rr ra rb rp : RegNum), s.ready →
    isInfinite t (s.reg ra) = false → isInfinite t (s.reg rb) = false →
    rq ≠ rr → rq ≠ rb → rr ≠ rb → rp ≠ rr →
    exec (.div t rq rr ra rb) s = .next s1 → s1.fault = false → (s1.reg rq).err = false →
    ∃ s2 s3, exec (.mul t rp rq rb) s1 = .next s2 ∧ exec (.add t rp rp rr) s2 = .next s3 ∧
      s3.fault = false ∧ readable t (s3.reg rp) ∧
      valueOf s.cfg t (s3.reg rp) = valueOf s.cfg t (s.reg ra) ∧ (s3.reg rp).err = false

/-- The 3-by-2 trial step: for a normalised divisor (`v1 >= B/2`) and three remainder Words whose top two do not exceed the
divisor's, the digit is the true 3-by-2 quotient, or `B - 1` where that quotient would be `B` or more
(46_divide.md R188). -/
def Obligations.TrialDigitIsTheQuotient : Prop :=
  ∀ b u2 u1 u0 v1 v0 : Nat, 2 ≤ b → u2 < b → u1 < b → u0 < b → v1 < b → v0 < b → b ≤ 2 * v1 →
    u2 * b + u1 ≤ v1 * b + v0 →
    div3by2 b u2 u1 u0 v1 v0 = min (b - 1) ((u2 * b ^ 2 + u1 * b + u0) / (v1 * b + v0))

/-- The word-level reference of long division, with its short case, its normalisation, its trial digits and its add-back, gives the quotient
and the remainder (46_divide.md R187). -/
def Obligations.LongDivisionDivides : Prop :=
  ∀ (c : Config) (us vs : List Nat), (∀ u ∈ us, u < c.B) → (∀ v ∈ vs, v < c.B) →
    vs ≠ [] → vs.getLastD 0 ≠ 0 →
    udivmod c us vs = (natOf c.B us / natOf c.B vs, natOf c.B us % natOf c.B vs)

/-! ## The Reciprocal Divider -/

/-- `RCPSET` and `RCP21SET` with a nonzero divisor write one slot whole, and with a zero divisor answer `nil` and change
nothing else; the source's flag goes into the slot (47_reciprocal.md R200, R203; 70_reset_and_hazards.md R263). -/
def Obligations.ConstructionWritesTheSlot : Prop :=
  ∀ (s : State) (n : Size) (k : SlotNum) (ra : RegNum), s.ready → (s.reg ra).len = words n →
    ((s.reg ra).nat s.cfg = 0 →
      exec (.rcpset n k ra) s = .next (s.answer 0 true) ∧ exec (.rcp21set n k ra) s = .next (s.answer 0 true)) ∧
    ((s.reg ra).nat s.cfg ≠ 0 →
      (∃ d : Slot, exec (.rcpset n k ra) s = .next ((s.setSlot k d).answer 0 false) ∧
        d.valid = true ∧ d.k21 = false ∧ d.size = words n ∧ d.divisor = (s.reg ra).nat s.cfg ∧
        (d.mul, d.add, d.shift) = rcpConst ((s.reg ra).nat s.cfg) (bitLen s.cfg n) ∧ d.err = (s.reg ra).err) ∧
      (∃ d : Slot, exec (.rcp21set n k ra) s = .next ((s.setSlot k d).answer 0 false) ∧
        d.valid = true ∧ d.k21 = true ∧ d.size = words n ∧ d.divisor = (s.reg ra).nat s.cfg ∧
        (d.mul, d.add, d.shift) = rcpConst ((s.reg ra).nat s.cfg) (2 * bitLen s.cfg n) ∧ d.err = (s.reg ra).err))

/-- The constants of a divisor `d` for dividends of `ll` bits: with `2^k` the greatest power of two not above `d`, the
multiplier, the add flag and the shift amount are those of the construction; the multiplier fills `ll` bits; and
multiply, add and shift, within twice `ll` bits, give the true quotient of every dividend (47_reciprocal.md R201). -/
def Obligations.RcpConstantsAreExact : Prop :=
  ∀ d ll : Nat, 1 ≤ d → d < 2 ^ ll →
    ∃ k mul add, rcpConst d ll = (mul, add, ll + k) ∧ 2 ^ k ≤ d ∧ d < 2 ^ (k + 1) ∧ k < ll ∧
      (d = 2 ^ k → mul = 2 ^ ll - 1 ∧ add = true) ∧
      (d ≠ 2 ^ k → d - 2 ^ (ll + k) % d ≤ 2 ^ k → mul = 2 ^ (ll + k) / d + 1 ∧ add = false) ∧
      (d ≠ 2 ^ k → 2 ^ k < d - 2 ^ (ll + k) % d → mul = 2 ^ (ll + k) / d ∧ add = true) ∧
      (d ≠ 2 ^ k → 2 ^ (ll - 1) ≤ 2 ^ (ll + k) / d ∧ 2 ^ (ll + k) / d ≤ 2 ^ ll - 2 ∧ 0 < 2 ^ (ll + k) % d) ∧
      2 ^ (ll - 1) ≤ mul ∧ mul < 2 ^ ll ∧
      ∀ x < 2 ^ ll, x * mul + (if add then mul else 0) < 2 ^ (2 * ll) ∧
        (x * mul + (if add then mul else 0)) / 2 ^ (ll + k) = x / d

/-- `RCPDIV` and `RCP21DIV` with a slot of their kind and size write the quotient and the remainder of division by the
slot's divisor, flagged with the operand's and the slot's flag, and for `RCP21DIV` when the quotient does not fit
(47_reciprocal.md R202, R204). -/
def Obligations.ReciprocalDivides : Prop :=
  ∀ (s : State) (n : Size) (rd re ra : RegNum) (k : SlotNum), s.ready →
    (s.slot k).valid = true → (s.slot k).size = words n →
    ((s.slot k).k21 = false → (s.reg ra).len = words n →
      ∃ q r, exec (.rcpdiv n rd re ra k) s = .next (s.write2 rd q re r 0) ∧
        holds s.cfg (.sys false n) q (((s.reg ra).nat s.cfg / (s.slot k).divisor : Nat) : Int) ∧
        holds s.cfg (.sys false n) r (((s.reg ra).nat s.cfg % (s.slot k).divisor : Nat) : Int) ∧
        q.err = ((s.reg ra).err || (s.slot k).err) ∧ r.err = q.err) ∧
    ((s.slot k).k21 = true → (s.reg ra).len = 2 * words n →
      ∃ q r, exec (.rcp21div n rd re ra k) s = .next (s.write2 rd q re r 0) ∧
        holds s.cfg (.sys false n) q (((s.reg ra).nat s.cfg / (s.slot k).divisor : Nat) : Int) ∧
        holds s.cfg (.sys false n) r (((s.reg ra).nat s.cfg % (s.slot k).divisor : Nat) : Int) ∧
        q.err = ((s.reg ra).err || (s.slot k).err ||
          decide (2 ^ bitLen s.cfg n ≤ (s.reg ra).nat s.cfg / (s.slot k).divisor)) ∧
        r.err = q.err)

/-- `RCPRD` writes the multiplier over one or two sizes of Words and the shift amount in count format, both with the slot's
flag, and answers the add flag (47_reciprocal.md R205). -/
def Obligations.RcprdReadsTheConstants : Prop :=
  ∀ (s : State) (rd re : RegNum) (k : SlotNum), s.ready → (s.slot k).valid = true →
    ∃ m h, exec (.rcprd rd re k) s =
        .next (s.write2 rd m re h (if (s.slot k).add = true then 1 else 0)) ∧
      m.wf s.cfg ∧ m.len = (if (s.slot k).k21 = true then 2 * (s.slot k).size else (s.slot k).size) ∧
      m.app = false ∧ m.nat s.cfg = (s.slot k).mul ∧ m.err = (s.slot k).err ∧
      holdsCount s.cfg h (.finite (s.slot k).shift) ∧ h.err = (s.slot k).err

/-- Reciprocal equivalence: for every size and nonzero divisor, `RCPSET` and then `RCPDIV` writes exactly what `DIV` by that
divisor writes, flags included, and `RCP21SET` and then `RCP21DIV` what `DIV21` writes; and with the two pairs in
different registers `FEQ` answers 1 on each (47_reciprocal.md R206). The quotient and the remainder of the first division
do not replace the dividend or the divisor, which the second division reads again. -/
def Obligations.ReciprocalEqualsDivision : Prop :=
  ∀ (s : State) (n : Size) (rd re rd' re' rx rv : RegNum) (k : SlotNum), s.ready →
    (s.reg rv).len = words n → (s.reg rv).nat s.cfg ≠ 0 →
    rd ≠ rx → rd ≠ rv → re ≠ rx → re ≠ rv → rd ≠ re → rd' ≠ re' →
    rd' ≠ rd → rd' ≠ re → re' ≠ rd → re' ≠ re →
    ((s.reg rx).len = words n →
      ∃ s1 t u, exec (.rcpset n k rv) s = .next s1 ∧ exec (.rcpdiv n rd re rx k) s1 = .next t ∧
        exec (.div (.sys false n) rd re rx rv) s1 = .next t ∧ t.fault = false ∧
        exec (.div (.sys false n) rd' re' rx rv) t = .next u ∧
        exec (.feq (.sys false n) rd rd') u = .next (u.answer 1 false) ∧
        exec (.feq (.sys false n) re re') u = .next (u.answer 1 false)) ∧
    ((s.reg rx).len = 2 * words n →
      ∃ s1 t u, exec (.rcp21set n k rv) s = .next s1 ∧ exec (.rcp21div n rd re rx k) s1 = .next t ∧
        exec (.div21 false n rd re rx rv) s1 = .next t ∧ t.fault = false ∧
        exec (.div21 false n rd' re' rx rv) t = .next u ∧
        exec (.feq (.sys false n) rd rd') u = .next (u.answer 1 false) ∧
        exec (.feq (.sys false n) re re') u = .next (u.answer 1 false))
end

