-- ==== Sys2Proof/Laws/Words.lean ====
section
/-! SUPPORT. Word sequences and the numbers they spell: `natOf`, `wordsOf`, `trimTop`. -/

namespace Sys2Proof

/-! ### The base -/

theorem Config.W_pos (c : Config) : 8 ≤ c.W := by
  rcases c with ⟨w, _, _⟩; cases w <;> simp [Config.W, Width.bits]

theorem Config.W_le (c : Config) : c.W ≤ 64 := by
  rcases c with ⟨w, _, _⟩; cases w <;> simp [Config.W, Width.bits]

theorem Config.W_mod (c : Config) : c.W % 8 = 0 := by
  rcases c with ⟨w, _, _⟩; cases w <;> simp [Config.W, Width.bits]

theorem Config.B_ge (c : Config) : 256 ≤ c.B := by
  have := Nat.pow_le_pow_right (show 0 < 2 by omega) c.W_pos
  simpa [Config.B] using this

theorem Config.B_pos (c : Config) : 0 < c.B := by have := c.B_ge; omega

theorem Config.CAP_ge (c : Config) : 2 ≤ c.CAP := by simp [Config.CAP]

theorem Config.CAP_le (c : Config) : c.CAP ≤ 64 := by have := c.capMinus2.isLt; simp only [Config.CAP]; omega

theorem Config.B_pow (c : Config) (n : Nat) : c.B ^ n = 2 ^ (n * c.W) := by
  rw [Config.B, ← pow_mul, Nat.mul_comm]

theorem Config.B_pow_int (c : Config) (n : Nat) : (c.B : Int) ^ n = 2 ^ (n * c.W) := by
  exact_mod_cast c.B_pow n

end Sys2Proof

namespace Sys2Proof.Machine

/-! ### `natOf` -/

@[simp] theorem natOf_nil (b : Nat) : natOf b [] = 0 := rfl
@[simp] theorem natOf_cons (b w : Nat) (ws : List Nat) : natOf b (w :: ws) = w + b * natOf b ws := rfl

theorem natOf_append (b : Nat) (us vs : List Nat) :
    natOf b (us ++ vs) = natOf b us + b ^ us.length * natOf b vs := by
  induction us with
  | nil => simp
  | cons u us ih => simp only [List.cons_append, natOf_cons, ih, List.length_cons, pow_succ]; ring

theorem natOf_lt {b : Nat} : ∀ {ws : List Nat}, (∀ w ∈ ws, w < b) → natOf b ws < b ^ ws.length
  | [], _ => by simp
  | w :: ws, h => by
    have h1 := natOf_lt (ws := ws) fun x hx => h x (List.mem_cons_of_mem _ hx)
    have h2 := h w List.mem_cons_self
    have h3 : b * natOf b ws + b ≤ b * b ^ ws.length := by
      rw [← Nat.mul_succ]; exact Nat.mul_le_mul_left b h1
    simp only [natOf_cons, List.length_cons, pow_succ, Nat.mul_comm (b ^ ws.length)]
    omega

theorem natOf_replicate_zero (b n : Nat) : natOf b (List.replicate n 0) = 0 := by
  induction n with
  | zero => rfl
  | succ n ih => simp [List.replicate_succ, ih]

theorem natOf_replicate_max (b n : Nat) (hb : 0 < b) : natOf b (List.replicate n (b - 1)) + 1 = b ^ n := by
  induction n with
  | zero => rfl
  | succ n ih =>
    simp only [List.replicate_succ, natOf_cons, pow_succ, ← ih]
    obtain ⟨m, rfl⟩ : ∃ m, b = m + 1 := ⟨b - 1, by omega⟩
    simp only [Nat.add_sub_cancel]
    ring

/-- Word `i` of a word sequence, as a digit of its number. -/
theorem natOf_digit {b : Nat} : ∀ {ws : List Nat} (i : Nat), (∀ w ∈ ws, w < b) →
    natOf b ws / b ^ i % b = ws.getD i 0
  | [], i, _ => by simp
  | w :: ws, 0, h => by
    have := h w List.mem_cons_self
    simp [Nat.mod_eq_of_lt this]
  | w :: ws, i + 1, h => by
    have h1 := h w List.mem_cons_self
    have h2 := natOf_digit (ws := ws) i fun x hx => h x (List.mem_cons_of_mem _ hx)
    have hb : 0 < b := by omega
    rw [natOf_cons, pow_succ, Nat.mul_comm (b ^ i) b, ← Nat.div_div_eq_div_mul,
      Nat.add_mul_div_left _ _ hb, Nat.div_eq_of_lt h1, Nat.zero_add, h2]
    simp

/-- Two word sequences of one length and one number are equal. -/
theorem natOf_inj {b : Nat} {us vs : List Nat} (hu : ∀ w ∈ us, w < b) (hv : ∀ w ∈ vs, w < b)
    (hl : us.length = vs.length) (h : natOf b us = natOf b vs) : us = vs := by
  induction us generalizing vs with
  | nil => exact (List.length_eq_zero_iff.1 hl.symm).symm
  | cons u us ih =>
    obtain _ | ⟨v, vs⟩ := vs
    · simp at hl
    have h1 := hu u List.mem_cons_self
    have h2 := hv v List.mem_cons_self
    simp only [natOf_cons] at h
    have hb : 0 < b := by omega
    have e1 : u = v := by
      have := congrArg (· % b) h
      simpa [Nat.add_mul_mod_self_left, Nat.mod_eq_of_lt h1, Nat.mod_eq_of_lt h2] using this
    have e2 : natOf b us = natOf b vs := by
      subst e1
      exact Nat.eq_of_mul_eq_mul_left hb (by omega)
    rw [e1, ih (fun x hx => hu x (List.mem_cons_of_mem _ hx)) (fun x hx => hv x (List.mem_cons_of_mem _ hx))
      (by simpa using hl) e2]

/-! ### `wordsOf` -/

@[simp] theorem wordsOf_length (b n u : Nat) : (wordsOf b n u).length = n := by
  induction n generalizing u with
  | zero => rfl
  | succ n ih => simp [wordsOf, ih]

theorem wordsOf_lt {b : Nat} (hb : 0 < b) (n u : Nat) : ∀ w ∈ wordsOf b n u, w < b := by
  induction n generalizing u with
  | zero => simp [wordsOf]
  | succ n ih =>
    intro w hw
    simp only [wordsOf, List.mem_cons] at hw
    obtain rfl | hw := hw
    · exact Nat.mod_lt _ hb
    · exact ih _ w hw

theorem natOf_wordsOf (b n u : Nat) : natOf b (wordsOf b n u) = u % b ^ n := by
  induction n generalizing u with
  | zero => simp [wordsOf, Nat.mod_one]
  | succ n ih => simp only [wordsOf, natOf_cons, ih, pow_succ, Nat.mul_comm (b ^ n) b, Nat.mod_mul]

theorem wordsOf_natOf {b : Nat} {ws : List Nat} (h : ∀ w ∈ ws, w < b) :
    wordsOf b ws.length (natOf b ws) = ws := by
  by_cases hb : 0 < b
  · refine natOf_inj (wordsOf_lt hb _ _) h (wordsOf_length _ _ _) ?_
    rw [natOf_wordsOf, Nat.mod_eq_of_lt (natOf_lt h)]
  · obtain _ | ⟨w, ws⟩ := ws
    · rfl
    · have := h w List.mem_cons_self; omega

theorem extWord_lt (c : Config) (a : Bool) : extWord c a < c.B := by
  have := c.B_pos
  cases a <;> simp [extWord] <;> omega

theorem words_pos (n : Size) : 1 ≤ words n := by simp [words]

theorem bitLen_pos (c : Config) (n : Size) : 8 ≤ bitLen c n := by
  have h1 := c.W_pos
  have h2 := words_pos n
  exact le_trans h1 (Nat.le_mul_of_pos_left _ h2)

/-! ### `trimTop` -/

/-- What `trimTop e` does: it drops exactly the top Words equal to `e`. -/
theorem trimTop_spec (e : Nat) (ws : List Nat) :
    ∃ k, ws = trimTop e ws ++ List.replicate k e ∧ (trimTop e ws).getLast? ≠ some e := by
  induction ws with
  | nil => exact ⟨0, by simp [trimTop]⟩
  | cons w ws ih =>
    obtain ⟨k, h1, h2⟩ := ih
    cases ht : trimTop e ws with
    | nil =>
      rw [ht] at h1
      by_cases hw : w = e
      · refine ⟨k + 1, ?_⟩
        subst hw
        simp only [trimTop, ht, if_true]
        simp only [List.nil_append] at h1 ⊢
        exact ⟨by rw [List.replicate_succ, ← h1], by simp⟩
      · refine ⟨k, ?_⟩
        simp only [trimTop, ht, if_neg hw]
        refine ⟨by rw [h1]; simp, by simpa using hw⟩
    | cons v vs =>
      refine ⟨k, ?_⟩
      simp only [trimTop, ht]
      rw [ht] at h1 h2
      refine ⟨by rw [List.cons_append, ← h1], by simpa [List.getLast?_cons_cons] using h2⟩

theorem trimTop_length_le (e : Nat) (ws : List Nat) : (trimTop e ws).length ≤ ws.length := by
  obtain ⟨k, h, _⟩ := trimTop_spec e ws
  have := congrArg List.length h
  simp at this
  omega

theorem mem_of_mem_trimTop {e w : Nat} {ws : List Nat} (h : w ∈ trimTop e ws) : w ∈ ws := by
  obtain ⟨k, h1, _⟩ := trimTop_spec e ws
  rw [h1]
  exact List.mem_append_left _ h

/-- A sequence whose top Word is not `e` is left alone. -/
theorem trimTop_eq_self {e : Nat} {ws : List Nat} (h : ws.getLast? ≠ some e) : trimTop e ws = ws := by
  obtain ⟨k, h1, _⟩ := trimTop_spec e ws
  cases k with
  | zero => simpa using h1.symm
  | succ k =>
    exfalso
    apply h
    rw [h1, List.getLast?_append, List.replicate_succ', List.getLast?_append]
    simp

/-- The word sequence without redundant top Words spells the same infinite pattern. -/
theorem natOf_trimTop (c : Config) (a : Bool) (ws : List Nat) :
    (natOf c.B (trimTop (extWord c a) ws) : Int) - (if a then (c.B : Int) ^ (trimTop (extWord c a) ws).length else 0) =
      (natOf c.B ws : Int) - (if a then (c.B : Int) ^ ws.length else 0) := by
  obtain ⟨k, h, _⟩ := trimTop_spec (extWord c a) ws
  conv_rhs => rw [h]
  rw [natOf_append, List.length_append, List.length_replicate]
  cases a with
  | false => simp [extWord, natOf_replicate_zero]
  | true =>
    have h2 := natOf_replicate_max c.B k c.B_pos
    simp only [extWord, if_true, pow_add]
    push_cast
    have h3 : (natOf c.B (List.replicate k (c.B - 1)) : Int) = (c.B : Int) ^ k - 1 := by
      have : ((natOf c.B (List.replicate k (c.B - 1)) + 1 : Nat) : Int) = ((c.B ^ k : Nat) : Int) := by rw [h2]
      push_cast at this
      linarith
    rw [h3]
    ring

/-! ### Stored Words and numbers of a register -/

theorem Reg.nat_lt {c : Config} {r : Reg} (h : ∀ w ∈ r.body, w < c.B) : r.nat c < 2 ^ (r.len * c.W) := by
  rw [← c.B_pow]
  exact natOf_lt h

theorem Reg.nat_lt_bitLen {c : Config} {r : Reg} {n : Size} (h : r.wf c) (hl : r.len = words n) :
    r.nat c < 2 ^ bitLen c n := by
  have := Reg.nat_lt h.2
  rwa [hl] at this

end Sys2Proof.Machine
end

