-- ==== Sys2Proof/Laws/Operands.lean ====
section
/-! SUPPORT. Operand fetch: what `sysnat`, `opnd`, `checkLen`, `effBitOf` and `effAppOf` answer, in the terms statements use
(`readable`, `valueOf`, `isInfinite`, `patternBit`). -/

namespace Sys2Proof.Machine

variable {c : Config} {t : Ty} {r : Reg} {n : Size} {sgn : Bool}

/-! ### The length check -/

theorem sysnat_eq (c : Config) (r : Reg) (m : Nat) :
    sysnat c r m = if r.len = m then .ok (r.nat c) else .error .operand := rfl

theorem sysnat_ok {m : Nat} (h : r.len = m) : sysnat c r m = .ok (r.nat c) := if_pos h

theorem sysnat_error {m : Nat} (h : r.len ≠ m) : sysnat c r m = .error .operand := if_neg h

theorem checkLen_ok (h : readable t r) : checkLen t r = .ok () := by
  cases t
  · exact if_pos h
  · rfl

theorem checkLen_error (h : ¬readable t r) : checkLen t r = .error .operand := by
  cases t
  · exact if_neg h
  · exact absurd trivial h

/-! ### Testing the top bit -/

/-- The top bit of an `l`-bit number says that it is at least `2^(l-1)`. -/
theorem testBit_top {l u : Nat} (hl : 0 < l) (hu : u < 2 ^ l) : u.testBit (l - 1) = decide (2 ^ (l - 1) ≤ u) := by
  obtain ⟨m, rfl⟩ : ∃ m, l = m + 1 := ⟨l - 1, by omega⟩
  simp only [Nat.add_sub_cancel]
  rw [Nat.testBit_eq_decide_div_mod_eq]
  rw [pow_succ] at hu
  have hp : 0 < 2 ^ m := Nat.two_pow_pos m
  by_cases h : 2 ^ m ≤ u
  · have : u / 2 ^ m = 1 := Nat.div_eq_of_lt_le (by omega) (by omega)
    simp [this, h]
  · have : u / 2 ^ m = 0 := Nat.div_eq_of_lt (by omega)
    simp [this, h]

theorem signedOf_eq {l u : Nat} (hl : 0 < l) (hu : u < 2 ^ l) :
    signedOf l u = if 2 ^ (l - 1) ≤ u then (u : Int) - 2 ^ l else u := by
  simp [signedOf, testBit_top hl hu]

/-! ### Values -/

theorem valueOf_arb (c : Config) (sgn : Bool) (r : Reg) : valueOf c (.arb sgn) r = r.int c := rfl

theorem valueOf_unsigned (c : Config) (n : Size) (r : Reg) : valueOf c (.sys false n) r = r.nat c := rfl

theorem isInfinite_sys (sgn : Bool) (n : Size) (r : Reg) : isInfinite (.sys sgn n) r = false := by
  cases sgn <;> rfl

theorem isInfinite_sx (r : Reg) : isInfinite (.arb true) r = false := rfl

theorem isInfinite_ux (r : Reg) : isInfinite (.arb false) r = r.app := rfl

/-- The operand fetch of a readable register answers the integer it reads as. -/
theorem opnd_ok (hw : r.wf c) (h : readable t r) : opnd c t r = .ok (valueOf c t r, isInfinite t r) := by
  cases t with
  | sys sgn n =>
    have h' : r.len = words n := h
    simp only [opnd, sysnat_ok h', isInfinite_sys]
    cases sgn with
    | false => rfl
    | true =>
      have := signedOf_eq (by have := bitLen_pos c n; omega) (Reg.nat_lt_bitLen hw h')
      simp only [valueOf, ← this]
      rfl
  | arb sgn => cases sgn <;> rfl

/-- The operand fetch of an unreadable register fails the length check. -/
theorem opnd_error (h : ¬readable t r) : opnd c t r = .error .operand := by
  cases t with
  | sys sgn n =>
    simp only [opnd, sysnat_error (m := words n) h]
    rfl
  | arb sgn => exact absurd trivial h

/-- The integer a systems value reads as is congruent to the stored number. -/
theorem valueOf_sys_mod (c : Config) (sgn : Bool) (n : Size) (r : Reg) :
    valueOf c (.sys sgn n) r % 2 ^ bitLen c n = (r.nat c : Int) % 2 ^ bitLen c n := by
  cases sgn
  · rfl
  · simp only [valueOf]
    split
    · rw [Int.sub_emod_right]
    · rfl

theorem valueOf_sys_inDomain (hw : r.wf c) (h : r.len = words n) : inDomain c (.sys sgn n) (valueOf c (.sys sgn n) r) := by
  have hu := Reg.nat_lt_bitLen hw h
  have hl := bitLen_pos c n
  have hu' : (r.nat c : Int) < 2 ^ bitLen c n := by exact_mod_cast hu
  have hp : (2 : Int) ^ bitLen c n = 2 ^ (bitLen c n - 1) + 2 ^ (bitLen c n - 1) := by
    rw [← two_mul, ← pow_succ']
    congr 1
    omega
  cases sgn
  · exact ⟨by simp [valueOf], hu'⟩
  · simp only [inDomain, valueOf]
    split
    · rename_i h1
      have h1' : (2 : Int) ^ (bitLen c n - 1) ≤ r.nat c := by exact_mod_cast h1
      constructor <;> linarith
    · rename_i h1
      have h1' : (r.nat c : Int) < 2 ^ (bitLen c n - 1) := by exact_mod_cast not_le.1 h1
      have : (0 : Int) < 2 ^ (bitLen c n - 1) := by positivity
      constructor
      · have : (0 : Int) ≤ r.nat c := by positivity
        linarith
      · exact h1'

theorem nat_lt_pow (hw : r.wf c) : (r.nat c : Int) < (c.B : Int) ^ r.len := by
  have := natOf_lt hw.2
  exact_mod_cast this

/-- An arbitrary reading is negative exactly when the appendix is 1. -/
theorem valueOf_arb_neg_iff (hw : r.wf c) (sgn : Bool) : valueOf c (.arb sgn) r < 0 ↔ r.app = true := by
  have h := nat_lt_pow hw
  cases ha : r.app
  · simp [valueOf, ha]
  · simp [valueOf, ha]
    exact h

/-- Every arbitrary reading of a stored register is within the capacity. -/
theorem valueOf_arb_inCapacity (hw : r.wf c) (sgn : Bool) : inCapacity c (.arb sgn) (valueOf c (.arb sgn) r) := by
  have h := nat_lt_pow hw
  have hB : (1 : Int) ≤ c.B := by have := c.B_pos; exact_mod_cast this
  have h2 : (c.B : Int) ^ r.len ≤ (c.B : Int) ^ c.CAP := pow_le_pow_right₀ hB hw.1
  have h3 : (0 : Int) ≤ r.nat c := by positivity
  simp only [inCapacity, valueOf]
  split <;> constructor <;> linarith

theorem valueOf_inCapacity (hw : r.wf c) (h : readable t r) : inCapacity c t (valueOf c t r) := by
  cases t
  · trivial
  · exact valueOf_arb_inCapacity hw _

/-- A readable value that is not infinite is in the domain of its type. -/
theorem valueOf_inDomain (hw : r.wf c) (h : readable t r) (hi : isInfinite t r = false) :
    inDomain c t (valueOf c t r) := by
  cases t with
  | sys sgn n => exact valueOf_sys_inDomain hw h
  | arb sgn =>
    cases sgn
    · have := (valueOf_arb_neg_iff hw false).not.2 (by simpa [isInfinite] using hi)
      exact not_lt.1 this
    · trivial

/-- An infinite value reads as a negative integer. -/
theorem valueOf_neg_of_isInfinite (hw : r.wf c) (hi : isInfinite t r = true) : valueOf c t r < 0 := by
  cases t with
  | sys sgn n => simp [isInfinite_sys] at hi
  | arb sgn =>
    cases sgn
    · exact (valueOf_arb_neg_iff hw false).2 hi
    · simp [isInfinite] at hi

/-! ### Bits -/

theorem int_testBit_natCast (u i : Nat) : (u : Int).testBit i = u.testBit i := rfl

/-- The bits of `u - 2^l`, the two's-complement reading with an endless tail of ones. -/
theorem int_testBit_sub_pow {u l : Nat} (hu : u < 2 ^ l) (i : Nat) :
    ((u : Int) - 2 ^ l).testBit i = if i < l then u.testBit i else true := by
  obtain ⟨m, hm⟩ : ∃ m, 2 ^ l = u + m + 1 := ⟨2 ^ l - u - 1, by omega⟩
  have e : (u : Int) - 2 ^ l = Int.negSucc m := by
    have : (2 : Int) ^ l = ((2 ^ l : Nat) : Int) := by push_cast; rfl
    rw [this, hm, Int.negSucc_eq]
    push_cast
    ring
  rw [e]
  have hm2 : m = 2 ^ l - (u + 1) := by omega
  show (!m.testBit i) = _
  rw [hm2, Nat.testBit_two_pow_sub_succ hu]
  by_cases h : i < l <;> simp [h]

/-- Bit `i` of a word sequence is a bit of one of its Words. -/
theorem natOf_testBit (c : Config) {ws : List Nat} (h : ∀ w ∈ ws, w < c.B) (i : Nat) :
    (natOf c.B ws).testBit i = (ws.getD (i / c.W) 0).testBit (i % c.W) := by
  have hW : 0 < c.W := by have := c.W_pos; omega
  rw [← natOf_digit (i / c.W) h, c.B_pow, Config.B, ← Nat.shiftRight_eq_div_pow, Nat.testBit_mod_two_pow,
    Nat.testBit_shiftRight]
  have h1 : i % c.W < c.W := Nat.mod_lt _ hW
  have h2 : i / c.W * c.W + i % c.W = i := by rw [Nat.mul_comm]; exact Nat.div_add_mod i c.W
  simp [h1, h2]

theorem extWord_testBit (c : Config) (a : Bool) {i : Nat} (hi : i < c.W) : (extWord c a).testBit i = a := by
  cases a
  · simp [extWord]
  · simp [extWord, Config.B, Nat.testBit_two_pow_sub_one, hi]

/-- The bits of an arbitrary reading: those of the stored Words, then the appendix for ever. -/
theorem valueOf_arb_testBit (hw : ∀ w ∈ r.body, w < c.B) (sgn : Bool) (i : Nat) :
    (valueOf c (.arb sgn) r).testBit i = (word c r (i / c.W)).testBit (i % c.W) := by
  have hW : 0 < c.W := by have := c.W_pos; omega
  have h1 : i % c.W < c.W := Nat.mod_lt _ hW
  have hlen : i < r.len * c.W ↔ i / c.W < r.len := (Nat.div_lt_iff_lt_mul hW).symm
  have hnat : (r.nat c).testBit i = (r.body.getD (i / c.W) 0).testBit (i % c.W) := natOf_testBit c hw i
  by_cases hi : i / c.W < r.len
  · have hg : ∀ d, r.body.getD (i / c.W) d = r.body[i / c.W] := fun d => List.getD_eq_getElem _ _ hi
    simp only [word, hg]
    rw [hg] at hnat
    cases ha : r.app
    · simp only [valueOf, ha, Bool.false_eq_true, if_false, sub_zero, int_testBit_natCast, hnat]
    · simp only [valueOf, ha, if_true, c.B_pow_int]
      rw [int_testBit_sub_pow (Reg.nat_lt hw), if_pos (hlen.2 hi), hnat]
  · have hg : ∀ d, r.body.getD (i / c.W) d = d := fun d => List.getD_eq_default _ _ (not_lt.1 hi)
    simp only [word, hg, extWord_testBit c r.app h1]
    cases ha : r.app
    · simp only [valueOf, ha, Bool.false_eq_true, if_false, sub_zero, int_testBit_natCast]
      rw [hnat, hg]
      simp
    · simp only [valueOf, ha, if_true, c.B_pow_int]
      rw [int_testBit_sub_pow (Reg.nat_lt hw), if_neg (fun h => hi (hlen.1 h))]

/-- The bits of a systems reading below `L`. -/
theorem valueOf_sys_testBit (hw : ∀ w ∈ r.body, w < c.B) (h : r.len = words n) {i : Nat} (hi : i < bitLen c n) :
    (valueOf c (.sys sgn n) r).testBit i = (r.nat c).testBit i := by
  have hu : r.nat c < 2 ^ bitLen c n := by
    have := Reg.nat_lt hw
    rwa [h] at this
  cases sgn
  · rfl
  · simp only [valueOf]
    split
    · rw [int_testBit_sub_pow hu, if_pos hi]
    · rfl

end Sys2Proof.Machine
end

