-- ==== Sys2Proof/Laws/Records.lean ====
section
/-! SUPPORT. Building records: what `sysrec`, `arbrec`, `res` and `cntrec` write, in terms of `holds`, and what a record that
holds an integer reads as. -/

namespace Sys2Proof.Machine

variable {c : Config} {t : Ty} {r r' : Reg} {n : Size} {sgn : Bool} {v : Int} {e : Bool}

/-! ### Fitting into Words -/

theorem fitsWords_iff (c : Config) (v : Int) (n : Nat) :
    fitsWords c v n = true ↔ -((c.B : Int) ^ n) ≤ v ∧ v < (c.B : Int) ^ n := by
  have h : (0 : Int) < (c.B : Int) ^ n := by have := c.B_pos; positivity
  simp only [fitsWords]
  split
  · rw [decide_eq_true_iff]
    constructor
    · intro h1; exact ⟨by linarith, h1⟩
    · exact fun h1 => h1.2
  · rw [decide_eq_true_iff]
    constructor
    · intro h1; exact ⟨h1, by linarith⟩
    · exact fun h1 => h1.1

theorem fitsWords_mono {c : Config} {v : Int} {m n : Nat} (h : m ≤ n) (hf : fitsWords c v m = true) :
    fitsWords c v n = true := by
  rw [fitsWords_iff] at *
  have hB : (1 : Int) ≤ c.B := by have := c.B_pos; exact_mod_cast this
  have := pow_le_pow_right₀ hB h
  exact ⟨by linarith, by linarith⟩

/-- The first number below a bound that passes a test. -/
theorem find_range_eq_some_iff {p : Nat → Bool} {m n : Nat} :
    (List.range m).find? p = some n ↔ p n = true ∧ n < m ∧ ∀ k < n, p k = false := by
  rw [List.find?_range_eq_some]
  simp

theorem find_range_eq_none_iff {p : Nat → Bool} {m : Nat} :
    (List.range m).find? p = none ↔ ∀ k < m, p k = false := by
  simp [List.find?_eq_none]

/-! ### `sysrec` -/

theorem toNat_emod_pow (v : Int) (l : Nat) : ((v % 2 ^ l).toNat : Int) = v % 2 ^ l :=
  Int.toNat_of_nonneg (Int.emod_nonneg _ (by positivity))

theorem toNat_emod_pow_lt (v : Int) (l : Nat) : (v % 2 ^ l).toNat < 2 ^ l := by
  have h := Int.emod_lt_of_pos v (show (0 : Int) < 2 ^ l by positivity)
  have h2 := toNat_emod_pow v l
  have h3 : ((v % 2 ^ l).toNat : Int) < ((2 ^ l : Nat) : Int) := by rw [h2]; exact_mod_cast h
  exact_mod_cast h3

@[simp] theorem sysrec_len (c : Config) (m : Nat) (v : Int) (e : Bool) : (sysrec c m v e).len = m :=
  wordsOf_length _ _ _

@[simp] theorem sysrec_app (c : Config) (m : Nat) (v : Int) (e : Bool) : (sysrec c m v e).app = false := rfl

@[simp] theorem sysrec_err (c : Config) (m : Nat) (v : Int) (e : Bool) : (sysrec c m v e).err = e := rfl

theorem sysrec_words (c : Config) (m : Nat) (v : Int) (e : Bool) : ∀ w ∈ (sysrec c m v e).body, w < c.B :=
  wordsOf_lt c.B_pos _ _

theorem sysrec_nat (c : Config) (m : Nat) (v : Int) (e : Bool) :
    ((sysrec c m v e).nat c : Int) = v % 2 ^ (m * c.W) := by
  have : (sysrec c m v e).nat c = (v % 2 ^ (m * c.W)).toNat := by
    show natOf c.B (wordsOf c.B m _) = _
    rw [natOf_wordsOf, c.B_pow, Nat.mod_eq_of_lt (toNat_emod_pow_lt v _)]
  rw [this, toNat_emod_pow]

/-- `sysrec` writes the record that holds the integer under a systems type. -/
theorem sysrec_holds (c : Config) (sgn : Bool) (n : Size) (v : Int) (e : Bool) :
    holds c (.sys sgn n) (sysrec c (words n) v e) v :=
  ⟨sysrec_words c _ v e, sysrec_len c _ v e, rfl, sysrec_nat c _ v e⟩

/-- `sysrec` depends on the integer modulo the size only. -/
theorem sysrec_congr {m : Nat} {v v' : Int} (h : v % 2 ^ (m * c.W) = v' % 2 ^ (m * c.W)) (e : Bool) :
    sysrec c m v e = sysrec c m v' e := by
  simp only [sysrec, h]

/-! ### `arbrec` -/

/-- The two's-complement reading of the low `n` Words of an integer that fits them. -/
theorem emod_pow_of_fits {p v : Int} (h1 : -p ≤ v) (h2 : v < p) :
    v % p = if v < 0 then v + p else v := by
  split
  · rename_i h
    rw [← Int.add_emod_right, Int.emod_eq_of_lt (by linarith) (by linarith)]
  · rename_i h
    exact Int.emod_eq_of_lt (by linarith) h2

/-- What `arbrec` writes when the integer fits the capacity. -/
theorem arbrec_ok (e : Bool) (sgn : Bool) (h : inCapacity c (.arb sgn) v) :
    ∃ r, arbrec c v e = .ok r ∧ holds c (.arb sgn) r v ∧ r.app = decide (v < 0) ∧ r.err = e := by
  have hf : fitsWords c v c.CAP = true := (fitsWords_iff _ _ _).2 h
  cases hfind : (List.range (c.CAP + 1)).find? (fitsWords c v) with
  | none =>
    have := find_range_eq_none_iff.1 hfind c.CAP (Nat.lt_succ_self _)
    rw [hf] at this
    cases this
  | some m =>
    obtain ⟨h1, h2, h3⟩ := find_range_eq_some_iff.1 hfind
    refine ⟨_, by simp only [arbrec, hfind]; rfl, ⟨wordsOf_lt c.B_pos _ _, ?_, ?_, ?_⟩, rfl, rfl⟩
    · show (wordsOf _ _ _).length ≤ _
      rw [wordsOf_length]
      omega
    · -- normal form: with a redundant top Word, one Word fewer would do
      intro htop
      rw [fitsWords_iff] at h1
      obtain ⟨k, rfl⟩ : ∃ k, m = k + 1 := by
        cases m with
        | zero => simp [wordsOf] at htop
        | succ k => exact ⟨k, rfl⟩
      have hk := h3 k (Nat.lt_succ_self _)
      have hp : (0 : Int) < (c.B : Int) ^ (k + 1) := by have := c.B_pos; positivity
      have hp' : (0 : Int) < (c.B : Int) ^ k := by have := c.B_pos; positivity
      -- the top Word is the number divided by `B^k`
      set u := (v % (c.B : Int) ^ (k + 1)).toNat with hu
      have hue : (u : Int) = v % (c.B : Int) ^ (k + 1) := by
        rw [hu]; exact Int.toNat_of_nonneg (Int.emod_nonneg _ hp.ne')
      have hult : u < c.B ^ (k + 1) := by
        have := Int.emod_lt_of_pos v hp
        rw [← hue] at this
        exact_mod_cast this
      have htop2 : u / c.B ^ k = extWord c (decide (v < 0)) := by
        have hd := natOf_digit (b := c.B) (ws := wordsOf c.B (k + 1) u) k (wordsOf_lt c.B_pos _ _)
        rw [natOf_wordsOf, Nat.mod_eq_of_lt hult] at hd
        have hlt : u / c.B ^ k < c.B := by
          rw [Nat.div_lt_iff_lt_mul (Nat.pow_pos c.B_pos), Nat.mul_comm, ← pow_succ]
          exact hult
        rw [Nat.mod_eq_of_lt hlt] at hd
        rw [hd]
        have hl : (wordsOf c.B (k + 1) u).length = k + 1 := wordsOf_length _ _ _
        rw [List.getLast?_eq_getElem?, hl] at htop
        simp only [Nat.add_sub_cancel] at htop
        rw [List.getD_eq_getElem?_getD, htop]
        rfl
      have hcontra : fitsWords c v k = true := by
        rw [fitsWords_iff]
        rw [emod_pow_of_fits h1.1 h1.2] at hue
        by_cases hv : v < 0
        · simp only [hv, decide_true, extWord, if_true] at htop2 hue
          have h4 : (c.B - 1) * c.B ^ k ≤ u := by rw [← htop2]; exact Nat.div_mul_le_self _ _
          have h5 : ((c.B : Int) - 1) * (c.B : Int) ^ k ≤ u := by
            have : (((c.B - 1) * c.B ^ k : Nat) : Int) ≤ (u : Int) := by exact_mod_cast h4
            rw [Nat.cast_mul, Nat.cast_sub c.B_pos] at this
            push_cast at this
            exact this
          rw [hue, pow_succ] at h5
          constructor <;> nlinarith
        · simp only [hv, decide_false, extWord, if_false, Bool.false_eq_true] at htop2 hue
          have h4 : u < c.B ^ k := by
            rcases Nat.div_eq_zero_iff.1 htop2 with h | h
            · exact absurd h (Nat.pow_pos c.B_pos).ne'
            · exact h
          have h5 : (u : Int) < (c.B : Int) ^ k := by exact_mod_cast h4
          constructor <;> linarith
      rw [hk] at hcontra
      cases hcontra
    · -- the value
      rw [fitsWords_iff] at h1
      have hp : (0 : Int) < (c.B : Int) ^ m := by have := c.B_pos; positivity
      set u := (v % (c.B : Int) ^ m).toNat with hu
      have hue : (u : Int) = v % (c.B : Int) ^ m := by
        rw [hu]; exact Int.toNat_of_nonneg (Int.emod_nonneg _ hp.ne')
      have hult : u < c.B ^ m := by
        have := Int.emod_lt_of_pos v hp
        rw [← hue] at this
        exact_mod_cast this
      have hn : natOf c.B (wordsOf c.B m u) = u := by rw [natOf_wordsOf, Nat.mod_eq_of_lt hult]
      simp only [valueOf, Reg.nat, Reg.len, wordsOf_length, hn, hue]
      rw [emod_pow_of_fits h1.1 h1.2]
      by_cases hv : v < 0 <;> simp [hv]

/-- What `arbrec` answers when the integer does not fit the capacity. -/
theorem arbrec_error (e : Bool) (sgn : Bool) (h : ¬inCapacity c (.arb sgn) v) : arbrec c v e = .error .capacity := by
  have hf : ¬fitsWords c v c.CAP = true := fun hf => h ((fitsWords_iff _ _ _).1 hf)
  have : (List.range (c.CAP + 1)).find? (fitsWords c v) = none := by
    rw [find_range_eq_none_iff]
    intro k hk
    by_contra hk2
    exact hf (fitsWords_mono (Nat.lt_succ_iff.1 hk) (by simpa using hk2))
  simp only [arbrec, this]

/-! ### `res` -/

/-- Everything `res` can do: the record that holds the integer, or the capacity fault. -/
theorem res_ok (e : Bool) (h : inCapacity c t v) : ∃ r, res c t v e = .ok r ∧ holds c t r v ∧ r.err = e := by
  cases t with
  | sys sgn n => exact ⟨_, rfl, sysrec_holds c sgn n v e, rfl⟩
  | arb sgn =>
    obtain ⟨r, h1, h2, _, h4⟩ := arbrec_ok e sgn h
    exact ⟨r, h1, h2, h4⟩

theorem res_error (e : Bool) (h : ¬inCapacity c t v) : res c t v e = .error .capacity := by
  cases t with
  | sys sgn n => exact absurd trivial h
  | arb sgn => exact arbrec_error e sgn h

/-- The cause `res` can raise. -/
theorem res_cause {k : Cause} (h : res c t v e = .error k) : k = .capacity ∧ ¬inCapacity c t v := by
  by_cases hc : inCapacity c t v
  · obtain ⟨r, h1, _⟩ := res_ok (e := e) hc
    rw [h1] at h
    cases h
  · rw [res_error e hc] at h
    exact ⟨by injection h with h; exact h.symm, hc⟩

/-! ### What a record that holds an integer reads as -/

theorem holds_readable (h : holds c t r v) : readable t r := by
  cases t with
  | sys sgn n => exact h.2.1
  | arb sgn => trivial

/-- A record that holds an integer is stored within the capacity, where its size is. -/
theorem holds_wf (h : holds c t r v) (hf : t.fits c = true) : r.wf c := by
  refine ⟨?_, h.1⟩
  cases t with
  | sys sgn n =>
    rw [h.2.1]
    simpa [Ty.fits, words] using hf
  | arb sgn => exact h.2.1

/-- An arbitrary record reads as the integer it holds. -/
theorem valueOf_of_holds_arb (h : holds c (.arb sgn) r v) : valueOf c (.arb sgn) r = v := h.2.2.2

/-- A systems record reads as the integer it holds when that is in the domain. -/
theorem valueOf_of_holds_sys (h : holds c (.sys sgn n) r v) (hd : inDomain c (.sys sgn n) v) :
    valueOf c (.sys sgn n) r = v := by
  obtain ⟨-, h2, -, h3⟩ := h
  have hl := bitLen_pos c n
  have hp : (2 : Int) ^ bitLen c n = 2 ^ (bitLen c n - 1) + 2 ^ (bitLen c n - 1) := by
    rw [← two_mul, ← pow_succ']
    congr 1
    omega
  have hp0 : (0 : Int) < 2 ^ (bitLen c n - 1) := by positivity
  cases sgn
  · simp only [inDomain] at hd
    rw [valueOf_unsigned, h3, Int.emod_eq_of_lt hd.1 hd.2]
  · simp only [inDomain] at hd
    have hc : (2 ^ (bitLen c n - 1) ≤ r.nat c) ↔ (2 : Int) ^ (bitLen c n - 1) ≤ r.nat c := by
      rw [← Nat.cast_le (α := Int)]; push_cast; rfl
    simp only [valueOf, hc, h3]
    rw [emod_pow_of_fits (by linarith) (by linarith)]
    by_cases hv : v < 0
    · simp only [hv, if_true]
      rw [if_pos (by linarith)]
      ring
    · simp only [hv, if_false]
      rw [if_neg (by linarith)]

theorem valueOf_of_holds (h : holds c t r v) (hd : inDomain c t v) : valueOf c t r = v := by
  cases t with
  | sys sgn n => exact valueOf_of_holds_sys h hd
  | arb sgn => exact valueOf_of_holds_arb h

/-- A stored register reads as one integer and is normal: two such registers are one record. -/
theorem arb_unique (hw : ∀ w ∈ r.body, w < c.B) (hw' : ∀ w ∈ r'.body, w < c.B) (hn : r.normal c) (hn' : r'.normal c)
    (h : valueOf c (.arb true) r = valueOf c (.arb true) r') : r.body = r'.body ∧ r.app = r'.app := by
  -- the appendix is the sign
  have sign : ∀ {q : Reg}, (∀ w ∈ q.body, w < c.B) → (valueOf c (.arb true) q < 0 ↔ q.app = true) := by
    intro q hq
    have hlt := natOf_lt hq
    have hlt' : (q.nat c : Int) < (c.B : Int) ^ q.len := by exact_mod_cast hlt
    cases ha : q.app
    · simp [valueOf, ha]
    · simp [valueOf, ha, hlt']
  have happ : r.app = r'.app := by
    have h1 := sign hw
    have h2 := sign hw'
    rw [h] at h1
    cases ha : r.app <;> cases hb : r'.app <;> simp_all
  refine ⟨?_, happ⟩
  -- a normal body is at least as large in length as any body of the same value forces
  have shorter : ∀ {q q' : Reg}, (∀ w ∈ q.body, w < c.B) → (∀ w ∈ q'.body, w < c.B) → q'.normal c →
      q.app = q'.app → valueOf c (.arb true) q = valueOf c (.arb true) q' → q'.len ≤ q.len := by
    intro q q' hq hq' hn' ha hv
    by_contra hlen
    have hlen : q.len < q'.len := not_le.1 hlen
    have hne : q'.body ≠ [] := by
      intro h0
      simp [Reg.len, h0] at hlen
    apply hn'
    rw [List.getLast?_eq_some_getLast hne]
    congr 1
    obtain ⟨k, hk⟩ : ∃ k, q'.len = k + 1 := ⟨q'.len - 1, by omega⟩
    have hk' : q'.body.length = k + 1 := hk
    have hdig := natOf_digit (b := c.B) (ws := q'.body) k hq'
    have hgd : q'.body.getD k 0 = q'.body.getLast hne := by
      rw [List.getD_eq_getElem _ _ (by omega), List.getLast_eq_getElem]
      simp [hk']
    rw [hgd] at hdig
    have hlt : natOf c.B q'.body / c.B ^ k < c.B := by
      rw [Nat.div_lt_iff_lt_mul (Nat.pow_pos c.B_pos), Nat.mul_comm, ← pow_succ]
      have := natOf_lt hq'
      rwa [hk'] at this
    rw [Nat.mod_eq_of_lt hlt] at hdig
    rw [← hdig]
    have hq1 : natOf c.B q.body < c.B ^ k :=
      lt_of_lt_of_le (natOf_lt hq) (Nat.pow_le_pow_right c.B_pos (by simp only [Reg.len] at *; omega))
    cases hb : q'.app
    · rw [hb] at ha
      simp only [valueOf, ha, hb, Bool.false_eq_true, if_false, sub_zero] at hv
      have : natOf c.B q'.body = natOf c.B q.body := by
        have : (Reg.nat c q : Int) = Reg.nat c q' := hv
        exact_mod_cast this.symm
      rw [this, Nat.div_eq_of_lt hq1]
      rfl
    · rw [hb] at ha
      simp only [valueOf, ha, hb, if_true] at hv
      have hBk : (c.B : Int) ^ q.len ≤ (c.B : Int) ^ k :=
        pow_le_pow_right₀ (by have := c.B_pos; exact_mod_cast this) (by omega)
      have h0 : (0 : Int) ≤ Reg.nat c q := by positivity
      have h1 : (c.B : Int) ^ q'.len - (c.B : Int) ^ k ≤ Reg.nat c q' := by linarith
      have h2 : (c.B - 1) * c.B ^ k ≤ natOf c.B q'.body := by
        rw [hk, pow_succ] at h1
        have h3 : (((c.B - 1) * c.B ^ k : Nat) : Int) ≤ (natOf c.B q'.body : Int) := by
          rw [Nat.cast_mul, Nat.cast_sub c.B_pos]
          push_cast
          have : (Reg.nat c q' : Int) = natOf c.B q'.body := rfl
          linarith
        exact_mod_cast h3
      have h4 : c.B - 1 ≤ natOf c.B q'.body / c.B ^ k := (Nat.le_div_iff_mul_le (Nat.pow_pos c.B_pos)).2 h2
      simp only [extWord, if_true]
      omega
  have hlen : r.len = r'.len := le_antisymm (shorter hw' hw hn happ.symm h.symm) (shorter hw hw' hn' happ h)
  refine natOf_inj hw hw' hlen ?_
  simp only [valueOf, happ, hlen] at h
  have : (Reg.nat c r : Int) = Reg.nat c r' := by linarith
  exact_mod_cast this

/-- The integer a record holds determines its payload. -/
theorem holds_unique (h : holds c t r v) (h' : holds c t r' v) : r.body = r'.body ∧ r.app = r'.app := by
  cases t with
  | sys sgn n =>
    obtain ⟨w1, l1, a1, n1⟩ := h
    obtain ⟨w2, l2, a2, n2⟩ := h'
    refine ⟨natOf_inj w1 w2 (show r.len = r'.len by rw [l1, l2]) ?_, by rw [a1, a2]⟩
    have : (Reg.nat c r : Int) = Reg.nat c r' := by rw [n1, n2]
    exact_mod_cast this
  | arb sgn =>
    exact arb_unique h.1 h'.1 h.2.2.1 h'.2.2.1 (by rw [h.2.2.2, h'.2.2.2])

/-- `res` writes the one record that holds the integer with the flag. -/
theorem res_eq_of_holds (h : holds c t r v) : res c t v r.err = .ok r := by
  have hc : inCapacity c t v := by
    cases t with
    | sys sgn n => trivial
    | arb sgn =>
      have := valueOf_arb_inCapacity (c := c) (r := r) ⟨h.2.1, h.1⟩ sgn
      rwa [valueOf_of_holds_arb h] at this
  obtain ⟨q, h1, h2, h3⟩ := res_ok (e := r.err) hc
  rw [h1]
  obtain ⟨h4, h5⟩ := holds_unique h2 h
  cases q
  cases r
  simp_all

/-! ### `cntrec` and counts -/

theorem cntrec_infinite (c : Config) (e : Bool) : cntrec c .infinite e = .ok { body := [], app := true, err := e } := rfl

/-- A count below `B^2` always fits a register: `CAP` is at least 2. -/
theorem cntrec_ok {k : Count} (h : ∀ m, k = .finite m → m < c.B ^ 2) :
    ∃ r, cntrec c k e = .ok r ∧ holdsCount c r k ∧ r.err = e := by
  cases k with
  | infinite => exact ⟨_, rfl, ⟨rfl, rfl⟩, rfl⟩
  | finite m =>
    have hm := h m rfl
    have hB : c.B ^ 2 ≤ c.B ^ c.CAP := Nat.pow_le_pow_right c.B_pos c.CAP_ge
    have hcap : inCapacity c (.arb false) (m : Int) := by
      have h1 : (m : Int) < (c.B : Int) ^ c.CAP := by exact_mod_cast lt_of_lt_of_le hm hB
      have h2 : (0 : Int) ≤ (c.B : Int) ^ c.CAP := by positivity
      exact ⟨by have : (0 : Int) ≤ m := by positivity
                linarith, h1⟩
    obtain ⟨r, h1, h2, _, h3⟩ := arbrec_ok e false hcap
    exact ⟨r, h1, h2, h3⟩

/-- Every number of bits or Words that the block counts is below `B^2`. -/
theorem small_lt_B_sq (c : Config) {m : Nat} (h : m ≤ 8192) : m < c.B ^ 2 := by
  have := c.B_ge
  nlinarith

theorem stored_bits_le (h : r.wf c) : c.W * r.len ≤ 4096 := by
  have h1 := c.W_le
  have h2 := le_trans h.1 c.CAP_le
  calc c.W * r.len ≤ 64 * 64 := Nat.mul_le_mul h1 h2
    _ = 4096 := rfl

end Sys2Proof.Machine
end

