-- ==== Sys2Proof/Laws/State.lean ====
section
/-! SUPPORT. One lemma per field and per update of the state, and the reads of registers and slots after a write. -/

namespace Sys2Proof.Machine

variable (s : State) (r r' : RegNum) (k k' : SlotNum) (v v' : Reg) (d : Slot) (x y : Nat) (z z' : Bool)
  (c : Cause) (rest : List HostAction) (cf : Config)

/-! ### `setReg` -/

@[simp] theorem State.setReg_cfg : (s.setReg r v).cfg = s.cfg := rfl
@[simp] theorem State.setReg_regs : (s.setReg r v).regs = s.regs.set r v := rfl
@[simp] theorem State.setReg_slots : (s.setReg r v).slots = s.slots := rfl
@[simp] theorem State.setReg_fault : (s.setReg r v).fault = s.fault := rfl
@[simp] theorem State.setReg_fcause : (s.setReg r v).fcause = s.fcause := rfl
@[simp] theorem State.setReg_dout : (s.setReg r v).dout = s.dout := rfl
@[simp] theorem State.setReg_nil : (s.setReg r v).nil = s.nil := rfl
@[simp] theorem State.setReg_din : (s.setReg r v).din = s.din := rfl
@[simp] theorem State.setReg_input : (s.setReg r v).input = s.input := rfl

/-! ### `setSlot` -/

@[simp] theorem State.setSlot_cfg : (s.setSlot k d).cfg = s.cfg := rfl
@[simp] theorem State.setSlot_regs : (s.setSlot k d).regs = s.regs := rfl
@[simp] theorem State.setSlot_slots : (s.setSlot k d).slots = s.slots.set k d := rfl
@[simp] theorem State.setSlot_fault : (s.setSlot k d).fault = s.fault := rfl
@[simp] theorem State.setSlot_fcause : (s.setSlot k d).fcause = s.fcause := rfl
@[simp] theorem State.setSlot_dout : (s.setSlot k d).dout = s.dout := rfl
@[simp] theorem State.setSlot_nil : (s.setSlot k d).nil = s.nil := rfl
@[simp] theorem State.setSlot_din : (s.setSlot k d).din = s.din := rfl
@[simp] theorem State.setSlot_input : (s.setSlot k d).input = s.input := rfl

/-! ### `answer` -/

@[simp] theorem State.answer_cfg : (s.answer x z).cfg = s.cfg := rfl
@[simp] theorem State.answer_regs : (s.answer x z).regs = s.regs := rfl
@[simp] theorem State.answer_slots : (s.answer x z).slots = s.slots := rfl
@[simp] theorem State.answer_fault : (s.answer x z).fault = s.fault := rfl
@[simp] theorem State.answer_fcause : (s.answer x z).fcause = s.fcause := rfl
@[simp] theorem State.answer_dout : (s.answer x z).dout = x := rfl
@[simp] theorem State.answer_nil : (s.answer x z).nil = z := rfl
@[simp] theorem State.answer_din : (s.answer x z).din = s.din := rfl
@[simp] theorem State.answer_input : (s.answer x z).input = s.input := rfl

/-! ### `write` -/

@[simp] theorem State.write_cfg : (s.write r v).cfg = s.cfg := rfl
@[simp] theorem State.write_regs : (s.write r v).regs = s.regs.set r v := rfl
@[simp] theorem State.write_slots : (s.write r v).slots = s.slots := rfl
@[simp] theorem State.write_fault : (s.write r v).fault = s.fault := rfl
@[simp] theorem State.write_fcause : (s.write r v).fcause = s.fcause := rfl
@[simp] theorem State.write_dout : (s.write r v).dout = 0 := rfl
@[simp] theorem State.write_nil : (s.write r v).nil = false := rfl
@[simp] theorem State.write_din : (s.write r v).din = s.din := rfl
@[simp] theorem State.write_input : (s.write r v).input = s.input := rfl

/-! ### `write2` -/

@[simp] theorem State.write2_cfg : (s.write2 r v r' v' x).cfg = s.cfg := rfl
@[simp] theorem State.write2_regs : (s.write2 r v r' v' x).regs = (s.regs.set r v).set r' v' := rfl
@[simp] theorem State.write2_slots : (s.write2 r v r' v' x).slots = s.slots := rfl
@[simp] theorem State.write2_fault : (s.write2 r v r' v' x).fault = s.fault := rfl
@[simp] theorem State.write2_fcause : (s.write2 r v r' v' x).fcause = s.fcause := rfl
@[simp] theorem State.write2_dout : (s.write2 r v r' v' x).dout = x := rfl
@[simp] theorem State.write2_nil : (s.write2 r v r' v' x).nil = false := rfl
@[simp] theorem State.write2_din : (s.write2 r v r' v' x).din = s.din := rfl
@[simp] theorem State.write2_input : (s.write2 r v r' v' x).input = s.input := rfl

/-! ### `raise` -/

@[simp] theorem State.raise_cfg : (s.raise c).cfg = s.cfg := rfl
@[simp] theorem State.raise_regs : (s.raise c).regs = s.regs := rfl
@[simp] theorem State.raise_slots : (s.raise c).slots = s.slots := rfl
@[simp] theorem State.raise_fault : (s.raise c).fault = true := rfl
@[simp] theorem State.raise_fcause : (s.raise c).fcause = c.code := rfl
@[simp] theorem State.raise_dout : (s.raise c).dout = 0 := rfl
@[simp] theorem State.raise_nil : (s.raise c).nil = false := rfl
@[simp] theorem State.raise_din : (s.raise c).din = s.din := rfl
@[simp] theorem State.raise_input : (s.raise c).input = s.input := rfl

/-! ### `ignore` -/

@[simp] theorem State.ignore_cfg : (s.ignore).cfg = s.cfg := rfl
@[simp] theorem State.ignore_regs : (s.ignore).regs = s.regs := rfl
@[simp] theorem State.ignore_slots : (s.ignore).slots = s.slots := rfl
@[simp] theorem State.ignore_fault : (s.ignore).fault = s.fault := rfl
@[simp] theorem State.ignore_fcause : (s.ignore).fcause = s.fcause := rfl
@[simp] theorem State.ignore_dout : (s.ignore).dout = 0 := rfl
@[simp] theorem State.ignore_nil : (s.ignore).nil = false := rfl
@[simp] theorem State.ignore_din : (s.ignore).din = s.din := rfl
@[simp] theorem State.ignore_input : (s.ignore).input = s.input := rfl

/-! ### `present` -/

@[simp] theorem State.present_cfg : (s.present x rest).cfg = s.cfg := rfl
@[simp] theorem State.present_regs : (s.present x rest).regs = s.regs := rfl
@[simp] theorem State.present_slots : (s.present x rest).slots = s.slots := rfl
@[simp] theorem State.present_fault : (s.present x rest).fault = s.fault := rfl
@[simp] theorem State.present_fcause : (s.present x rest).fcause = s.fcause := rfl
@[simp] theorem State.present_dout : (s.present x rest).dout = s.dout := rfl
@[simp] theorem State.present_nil : (s.present x rest).nil = s.nil := rfl
@[simp] theorem State.present_din : (s.present x rest).din = x % s.cfg.B := rfl
@[simp] theorem State.present_input : (s.present x rest).input = rest := rfl

/-! ### `hostReset` -/

@[simp] theorem State.hostReset_cfg : (s.hostReset rest).cfg = s.cfg := rfl
@[simp] theorem State.hostReset_regs : (s.hostReset rest).regs = Vector.replicate 16 resetReg := rfl
@[simp] theorem State.hostReset_slots : (s.hostReset rest).slots = Vector.replicate 4 resetSlot := rfl
@[simp] theorem State.hostReset_fault : (s.hostReset rest).fault = false := rfl
@[simp] theorem State.hostReset_fcause : (s.hostReset rest).fcause = 0 := rfl
@[simp] theorem State.hostReset_dout : (s.hostReset rest).dout = 0 := rfl
@[simp] theorem State.hostReset_nil : (s.hostReset rest).nil = false := rfl
@[simp] theorem State.hostReset_din : (s.hostReset rest).din = 0 := rfl
@[simp] theorem State.hostReset_input : (s.hostReset rest).input = rest := rfl

/-! ### `resetState` -/

@[simp] theorem resetState_cfg : (resetState cf rest).cfg = cf := rfl
@[simp] theorem resetState_regs : (resetState cf rest).regs = Vector.replicate 16 resetReg := rfl
@[simp] theorem resetState_slots : (resetState cf rest).slots = Vector.replicate 4 resetSlot := rfl
@[simp] theorem resetState_fault : (resetState cf rest).fault = false := rfl
@[simp] theorem resetState_fcause : (resetState cf rest).fcause = 0 := rfl
@[simp] theorem resetState_dout : (resetState cf rest).dout = 0 := rfl
@[simp] theorem resetState_nil : (resetState cf rest).nil = false := rfl
@[simp] theorem resetState_din : (resetState cf rest).din = 0 := rfl
@[simp] theorem resetState_input : (resetState cf rest).input = rest := rfl

/-! ### Registers and slots after an update -/

theorem State.reg_eq_of_regs {s t : State} (h : t.regs = s.regs) : t.reg r = s.reg r := by
  simp [State.reg, h]

theorem State.slot_eq_of_slots {s t : State} (h : t.slots = s.slots) : t.slot k = s.slot k := by
  simp [State.slot, h]

theorem State.reg_setReg : (s.setReg r v).reg r' = if r' = r then v else s.reg r' := by
  simp only [State.reg, State.setReg, Fin.getElem_fin, Vector.getElem_set, Fin.ext_iff, eq_comm (a := r.val)]

theorem State.slot_setSlot : (s.setSlot k d).slot k' = if k' = k then d else s.slot k' := by
  simp only [State.slot, State.setSlot, Fin.getElem_fin, Vector.getElem_set, Fin.ext_iff, eq_comm (a := k.val)]

@[simp] theorem State.reg_setReg_self : (s.setReg r v).reg r = v := by simp [State.reg_setReg]
@[simp] theorem State.slot_setSlot_self : (s.setSlot k d).slot k = d := by simp [State.slot_setSlot]
@[simp] theorem State.slot_setReg : (s.setReg r v).slot k = s.slot k := rfl
@[simp] theorem State.reg_setSlot : (s.setSlot k d).reg r = s.reg r := rfl
@[simp] theorem State.reg_answer : (s.answer x z).reg r = s.reg r := rfl
@[simp] theorem State.slot_answer : (s.answer x z).slot k = s.slot k := rfl
@[simp] theorem State.reg_raise : (s.raise c).reg r = s.reg r := rfl
@[simp] theorem State.slot_raise : (s.raise c).slot k = s.slot k := rfl
@[simp] theorem State.reg_ignore : s.ignore.reg r = s.reg r := rfl
@[simp] theorem State.slot_ignore : s.ignore.slot k = s.slot k := rfl
@[simp] theorem State.reg_present : (s.present x rest).reg r = s.reg r := rfl
@[simp] theorem State.slot_present : (s.present x rest).slot k = s.slot k := rfl
@[simp] theorem State.slot_write : (s.write r v).slot k = s.slot k := rfl
@[simp] theorem State.slot_write2 : (s.write2 r v r' v' x).slot k = s.slot k := rfl

theorem State.reg_write : (s.write r v).reg r' = if r' = r then v else s.reg r' := State.reg_setReg s r r' v

@[simp] theorem State.reg_write_self : (s.write r v).reg r = v := State.reg_setReg_self s r v

theorem State.reg_write_ne (h : r' ≠ r) : (s.write r v).reg r' = s.reg r' := by simp [State.reg_write, h]

theorem State.reg_write2 (q : RegNum) :
    (s.write2 r v r' v' x).reg q = if q = r' then v' else if q = r then v else s.reg q := by
  simp [State.write2, State.reg_setReg]

@[simp] theorem State.reg_write2_snd : (s.write2 r v r' v' x).reg r' = v' := by simp [State.reg_write2]

theorem State.reg_write2_fst (h : r ≠ r') : (s.write2 r v r' v' x).reg r = v := by simp [State.reg_write2, h]

@[simp] theorem resetState_reg : (resetState cf rest).reg r = resetReg := by
  simp [State.reg, Vector.getElem_replicate]

@[simp] theorem resetState_slot : (resetState cf rest).slot k = resetSlot := by
  simp [State.slot, Vector.getElem_replicate]

/-- Two updates of the response: the second one stands. -/
@[simp] theorem State.answer_answer (x' : Nat) : (s.answer x z).answer x' z' = s.answer x' z' := rfl

@[simp] theorem State.write_answer : (s.answer x z).write r v = s.write r v := rfl
@[simp] theorem State.write2_answer : (s.answer y z).write2 r v r' v' x = s.write2 r v r' v' x := rfl
@[simp] theorem State.raise_answer : (s.answer x z).raise c = s.raise c := rfl
@[simp] theorem State.ignore_answer : (s.answer x z).ignore = s.ignore := rfl

/-- Two states are equal when their fields are. -/
theorem State.ext_fields {s t : State} (h1 : t.cfg = s.cfg) (h2 : t.regs = s.regs) (h3 : t.slots = s.slots)
    (h4 : t.fault = s.fault) (h5 : t.fcause = s.fcause) (h6 : t.dout = s.dout) (h7 : t.nil = s.nil)
    (h8 : t.din = s.din) (h9 : t.input = s.input) : t = s := by
  cases s; cases t; simp_all

end Sys2Proof.Machine
end

