-- ==== Sys2Proof/Laws/Commands.lean ====
section
/-! SUPPORT. The frame of every command, and what a command can do: once for all commands (`exec_cases`), and once for each
shape that several commands share. -/

namespace Sys2Proof.Machine

/-! ### Chains of checks -/

theorem bind_ok {ε α β : Type} (a : α) (f : α → Except ε β) : (Except.ok a >>= f) = f a := rfl

theorem bind_error {ε α β : Type} (k : ε) (f : α → Except ε β) : (Except.error k >>= f) = .error k := rfl

theorem pure_ok {ε α : Type} (a : α) : (pure a : Except ε α) = .ok a := rfl

theorem bind_eq_ok {ε α β : Type} {x : Except ε α} {f : α → Except ε β} {b : β} :
    (x >>= f) = .ok b ↔ ∃ a, x = .ok a ∧ f a = .ok b := by
  cases x with
  | ok a => simp [bind_ok]
  | error k => simp [bind_error]

theorem bind_eq_error {ε α β : Type} {x : Except ε α} {f : α → Except ε β} {k : ε} :
    (x >>= f) = .error k ↔ x = .error k ∨ ∃ a, x = .ok a ∧ f a = .error k := by
  cases x with
  | ok a => simp [bind_ok]
  | error k' => simp [bind_error]

@[simp] theorem check_true (k : Cause) : check true k = .ok () := rfl

@[simp] theorem check_false (k : Cause) : check false k = .error k := rfl

theorem check_eq_ok {b : Bool} {k : Cause} {u : Unit} : check b k = .ok u ↔ b = true := by
  cases b <;> simp

theorem check_eq_error {b : Bool} {k k' : Cause} : check b k = .error k' ↔ b = false ∧ k = k' := by
  cases b <;> simp

/-! ### The frame of a command -/

theorem command_fault {s : State} (h : s.fault = true) (body : Except Cause State) :
    command s body = .next s.ignore := by
  simp [command, h]

theorem command_ok {s t : State} {body : Except Cause State} (h : s.fault = false) (hb : body = .ok t) :
    command s body = .next t := by
  simp [command, h, hb]

theorem command_error {s : State} {body : Except Cause State} {k : Cause} (h : s.fault = false)
    (hb : body = .error k) : command s body = .next (s.raise k) := by
  simp [command, h, hb]

/-- Everything the frame of a command can do. -/
theorem command_cases {s t : State} {body : Except Cause State} (h : command s body = .next t) :
    (s.fault = true ∧ t = s.ignore) ∨
    (s.fault = false ∧ (body = .ok t ∨ ∃ k, body = .error k ∧ t = s.raise k)) := by
  simp only [command] at h
  split at h
  · rename_i hf
    exact .inl ⟨hf, by injection h with h; exact h.symm⟩
  · rename_i hf
    refine .inr ⟨by simpa using hf, ?_⟩
    split at h
    · injection h with h
      exact .inl (by rw [h])
    · injection h with h
      exact .inr ⟨_, rfl, h.symm⟩

/-- Every command whose result is written in its frame answers. -/
theorem command_next (s : State) (body : Except Cause State) : ∃ t, command s body = .next t := by
  simp only [command]
  split
  · exact ⟨_, rfl⟩
  · split <;> exact ⟨_, rfl⟩

theorem command_body_congr {s : State} {b b' : Except Cause State} (h : b = b') : command s b = command s b' := by
  rw [h]

/-! ### What a command can do -/

/-- What a command can leave: the state it was given with another response, a fault, or one of the three kinds of write. -/
def Leaves (i : Instr) (s t : State) : Prop :=
  (∃ x z, t = s.answer x z) ∨ (s.fault = false ∧ ∃ k, t = s.raise k) ∨
  (s.fault = false ∧ ∃ rd v, i.dests = [rd] ∧ t = s.write rd v) ∨
  (s.fault = false ∧ ∃ rd re v v' x, i.dests = [rd, re] ∧ t = s.write2 rd v re v' x) ∨
  (s.fault = false ∧ ∃ k d, i.destSlot = some k ∧ t = (s.setSlot k d).answer 0 false)

theorem command_leaves {i : Instr} {s t : State} {body : Except Cause State} (h : command s body = .next t)
    (hb : s.fault = false → body = .ok t → Leaves i s t) : Leaves i s t := by
  obtain ⟨_, rfl⟩ | ⟨hf, h1 | ⟨k, _, rfl⟩⟩ := command_cases h
  · exact .inl ⟨0, false, rfl⟩
  · exact hb hf h1
  · exact .inr (.inl ⟨hf, k, rfl⟩)

theorem leaves_answer {i : Instr} {s : State} (x : Nat) (z : Bool) : Leaves i s (s.answer x z) := .inl ⟨x, z, rfl⟩

theorem leaves_write {i : Instr} {s : State} {rd : RegNum} (v : Reg) (hf : s.fault = false) (hd : i.dests = [rd]) :
    Leaves i s (s.write rd v) := .inr (.inr (.inl ⟨hf, rd, v, hd, rfl⟩))

theorem leaves_write2 {i : Instr} {s : State} {rd re : RegNum} (v v' : Reg) (x : Nat) (hf : s.fault = false)
    (hd : i.dests = [rd, re]) : Leaves i s (s.write2 rd v re v' x) :=
  .inr (.inr (.inr (.inl ⟨hf, rd, re, v, v', x, hd, rfl⟩)))

theorem leaves_slot {i : Instr} {s : State} {k : SlotNum} (d : Slot) (hf : s.fault = false)
    (hd : i.destSlot = some k) : Leaves i s ((s.setSlot k d).answer 0 false) :=
  .inr (.inr (.inr (.inr ⟨hf, k, d, hd, rfl⟩)))

theorem ok_inj {ε α : Type} {a b : α} : (Except.ok a : Except ε α) = .ok b ↔ a = b := by
  constructor
  · intro h; injection h
  · rintro rfl; rfl

theorem binaryFinite_leaves {i : Instr} {f : Int → Int → Int} {t : Ty} {rd ra rb : RegNum} {s u : State}
    (hd : i.dests = [rd]) (h : binaryFinite f t rd ra rb s = .next u) : Leaves i s u := by
  refine command_leaves h fun hf hb => ?_
  simp only [bind_eq_ok, pure_ok, ok_inj] at hb
  obtain ⟨a, _, b, _, _, _, v, _, rfl⟩ := hb
  exact leaves_write v hf hd

theorem unary_leaves {i : Instr} {f : Int → Int} {own : Int → Bool} {t : Ty} {rd ra : RegNum} {s u : State}
    (hd : i.dests = [rd]) (h : unary f own t rd ra s = .next u) : Leaves i s u := by
  refine command_leaves h fun hf hb => ?_
  simp only [bind_eq_ok, pure_ok, ok_inj] at hb
  obtain ⟨a, _, v, _, rfl⟩ := hb
  exact leaves_write v hf hd

theorem counting_leaves {i : Instr} {count : Reg → Count} {t : Ty} {rd ra : RegNum} {s u : State}
    (hd : i.dests = [rd]) (h : counting count t rd ra s = .next u) : Leaves i s u := by
  refine command_leaves h fun hf hb => ?_
  simp only [bind_eq_ok, pure_ok, ok_inj] at hb
  obtain ⟨_, _, v, _, rfl⟩ := hb
  exact leaves_write v hf hd

theorem maskedShift_leaves {i : Instr} {f : Int → Nat → Int} {sgn : Bool} {n : Size} {rd ra rb : RegNum}
    {s u : State} (hd : i.dests = [rd]) (h : maskedShift f sgn n rd ra rb s = .next u) : Leaves i s u := by
  refine command_leaves h fun hf hb => ?_
  simp only [bind_eq_ok] at hb
  obtain ⟨a, _, hb⟩ := hb
  split at hb
  · cases hb
  · simp only [pure_ok, ok_inj] at hb
    subst hb
    exact leaves_write _ hf hd

theorem rcpConstruct_leaves {i : Instr} {k21 : Bool} {n : Size} {k : SlotNum} {ra : RegNum} {s u : State}
    (hd : i.destSlot = some k) (h : rcpConstruct k21 n k ra s = .next u) : Leaves i s u := by
  refine command_leaves h fun hf hb => ?_
  simp only [bind_eq_ok] at hb
  obtain ⟨d, _, hb⟩ := hb
  split at hb
  · simp only [pure_ok, ok_inj] at hb
    subst hb
    exact leaves_answer _ _
  · simp only [pure_ok, ok_inj] at hb
    subst hb
    exact leaves_slot _ hf hd

theorem rcpApply_leaves {i : Instr} {k21 : Bool} {n : Size} {rd re ra : RegNum} {k : SlotNum} {s u : State}
    (hd : i.dests = [rd, re]) (h : rcpApply k21 n rd re ra k s = .next u) : Leaves i s u := by
  refine command_leaves h fun hf hb => ?_
  simp only [bind_eq_ok, pure_ok, ok_inj] at hb
  obtain ⟨x, _, _, _, rfl⟩ := hb
  exact leaves_write2 _ _ _ hf hd

/-- Everything a command can do, whichever it is. -/
theorem exec_cases {i : Instr} {s t : State} (h : exec i s = .next t) : Leaves i s t := by
  cases i <;> simp only [exec] at h
  case cnt => exact counting_leaves rfl h
  case asc => exact counting_leaves rfl h
  case dsc => exact counting_leaves rfl h
  case add => exact binaryFinite_leaves rfl h
  case sub => exact binaryFinite_leaves rfl h
  case mul => exact binaryFinite_leaves rfl h
  case sqr => exact binaryFinite_leaves rfl h
  case bnot => exact unary_leaves rfl h
  case cpl => exact unary_leaves rfl h
  case mag => exact unary_leaves rfl h
  case shlm => exact maskedShift_leaves rfl h
  case shrm => exact maskedShift_leaves rfl h
  case rcpset => exact rcpConstruct_leaves rfl h
  case rcp21set => exact rcpConstruct_leaves rfl h
  case rcpdiv => exact rcpApply_leaves rfl h
  case rcp21div => exact rcpApply_leaves rfl h
  case rdstat => cases h; exact leaves_answer _ _
  case rdcfg => cases h; exact leaves_answer _ _
  case init | wrw | wrapp | bswap | cvt | veto | unwrap | shl | shr | mulf =>
    refine command_leaves h fun hf hb => ?_
    simp only [bind_eq_ok, pure_ok, ok_inj] at hb
    first
      | (subst hb; exact leaves_write _ hf rfl)
      | (obtain ⟨_, _, rfl⟩ := hb; exact leaves_write _ hf rfl)
      | (obtain ⟨_, _, _, _, rfl⟩ := hb; exact leaves_write _ hf rfl)
  case rdw | rdbit | rdlen | rdapp | rde | feq | gnz | gnat | gfin =>
    refine command_leaves h fun hf hb => ?_
    simp only [bind_eq_ok, pure_ok, ok_inj] at hb
    first
      | (subst hb; exact leaves_answer _ _)
      | (obtain ⟨_, _, rfl⟩ := hb; exact leaves_answer _ _)
      | (obtain ⟨_, _, _, _, rfl⟩ := hb; exact leaves_answer _ _)
  case div | div21 | rcprd =>
    refine command_leaves h fun hf hb => ?_
    simp only [bind_eq_ok, pure_ok, ok_inj] at hb
    obtain ⟨_, _, _, _, _, _, _, _, _, _, _, _, rfl⟩ := hb
    exact leaves_write2 _ _ _ hf rfl

end Sys2Proof.Machine
end

