-- ==== Sys2Proof/Laws/Arithmetic.lean ====
section
/-! SUPPORT. The shared shapes of the arithmetic commands: each lemma says once what the shape does when its preconditions
hold, and which fault it raises when one does not. -/

namespace Sys2Proof.Machine

variable {c : Config} {s : State} {t : Ty} {rd re ra rb : RegNum} {n : Size} {sgn : Bool} {v : Int}

/-! ### Flags -/

theorem indom_eq_true : indom c t v = true ↔ inDomain c t v := by
  cases t with
  | sys sgn n => cases sgn <;> simp [indom, inDomain]
  | arb sgn => cases sgn <;> simp [indom, inDomain]

theorem indom_eq_false : indom c t v = false ↔ ¬inDomain c t v := by
  rw [← indom_eq_true]
  simp

theorem overflows_eq_false : overflows c t v = false ↔ inDomain c t v := by
  simp [overflows, indom_eq_true]

theorem isLeast_eq_true : isLeast c t v = true ↔ ∃ n, t = .sys true n ∧ v = -(2 ^ (bitLen c n - 1)) := by
  cases t with
  | sys sgn n => cases sgn <;> simp [isLeast]
  | arb sgn => simp [isLeast]

theorem quotientOverflows_eq_false (h : ∀ sgn, t = .arb sgn → inDomain c t v) :
    quotientOverflows c t v = false ↔ inDomain c t v := by
  cases t with
  | sys sgn n => simp [quotientOverflows, indom_eq_true]
  | arb sgn => simp [quotientOverflows, h sgn rfl]

theorem rdCount_finite {r : Reg} (h : r.app = false) : rdCount c r = .finite (distance c r) := by
  simp [rdCount, h, distance]

theorem rdCount_infinite {r : Reg} (h : r.app = true) : rdCount c r = .infinite := by
  simp [rdCount, h]

/-! ### Two finite operands, one result -/

theorem binaryFinite_next (f : Int → Int → Int) (hs : s.ready) (ha : readable t (s.reg ra))
    (hb : readable t (s.reg rb)) (hia : isInfinite t (s.reg ra) = false) (hib : isInfinite t (s.reg rb) = false)
    (hc : inCapacity s.cfg t (f (valueOf s.cfg t (s.reg ra)) (valueOf s.cfg t (s.reg rb)))) :
    ∃ v own, binaryFinite f t rd ra rb s = .next (s.write rd v) ∧
      holds s.cfg t v (f (valueOf s.cfg t (s.reg ra)) (valueOf s.cfg t (s.reg rb))) ∧
      v.err = ((s.reg ra).err || (s.reg rb).err || own) ∧
      (own = false ↔ inDomain s.cfg t (f (valueOf s.cfg t (s.reg ra)) (valueOf s.cfg t (s.reg rb)))) := by
  obtain ⟨r, h1, h2, h3⟩ := res_ok (e := (s.reg ra).err || (s.reg rb).err ||
    overflows s.cfg t (f (valueOf s.cfg t (s.reg ra)) (valueOf s.cfg t (s.reg rb)))) hc
  refine ⟨r, _, command_ok hs.1 ?_, h2, h3, overflows_eq_false⟩
  simp only [opnd_ok (hs.2.1 ra) ha, opnd_ok (hs.2.1 rb) hb, bind_ok, hia, hib, Bool.not_false, Bool.and_self,
    check_true, h1, pure_ok]

theorem binaryFinite_operand (f : Int → Int → Int) (hf : s.fault = false) (hw : s.wf)
    (h : ¬readable t (s.reg ra) ∨ ¬readable t (s.reg rb)) :
    binaryFinite f t rd ra rb s = .next (s.raise .operand) := by
  refine command_error hf ?_
  by_cases ha : readable t (s.reg ra)
  · have hb := h.resolve_left (not_not.2 ha)
    simp only [opnd_ok (hw.1 ra) ha, opnd_error hb, bind_ok, bind_error]
  · simp only [opnd_error ha, bind_error]

theorem binaryFinite_finite (f : Int → Int → Int) (hs : s.ready) (ha : readable t (s.reg ra))
    (hb : readable t (s.reg rb)) (h : isInfinite t (s.reg ra) = true ∨ isInfinite t (s.reg rb) = true) :
    binaryFinite f t rd ra rb s = .next (s.raise .finite) := by
  refine command_error hs.1 ?_
  have : (!isInfinite t (s.reg ra) && !isInfinite t (s.reg rb)) = false := by
    obtain h | h := h <;> simp [h]
  simp only [opnd_ok (hs.2.1 ra) ha, opnd_ok (hs.2.1 rb) hb, bind_ok, this, check_false, bind_error]

theorem binaryFinite_capacity (f : Int → Int → Int) (hs : s.ready) (ha : readable t (s.reg ra))
    (hb : readable t (s.reg rb)) (hia : isInfinite t (s.reg ra) = false) (hib : isInfinite t (s.reg rb) = false)
    (hc : ¬inCapacity s.cfg t (f (valueOf s.cfg t (s.reg ra)) (valueOf s.cfg t (s.reg rb)))) :
    binaryFinite f t rd ra rb s = .next (s.raise .capacity) := by
  refine command_error hs.1 ?_
  simp only [opnd_ok (hs.2.1 ra) ha, opnd_ok (hs.2.1 rb) hb, bind_ok, hia, hib, Bool.not_false, Bool.and_self,
    check_true, res_error _ hc, bind_error]

/-! ### One operand, one result -/

theorem unary_next (f : Int → Int) (own : Int → Bool) (hs : s.ready) (ha : readable t (s.reg ra))
    (hc : inCapacity s.cfg t (f (valueOf s.cfg t (s.reg ra)))) :
    ∃ v, unary f own t rd ra s = .next (s.write rd v) ∧
      holds s.cfg t v (f (valueOf s.cfg t (s.reg ra))) ∧
      v.err = ((s.reg ra).err || own (valueOf s.cfg t (s.reg ra))) := by
  obtain ⟨r, h1, h2, h3⟩ := res_ok (e := (s.reg ra).err || own (valueOf s.cfg t (s.reg ra))) hc
  refine ⟨r, command_ok hs.1 ?_, h2, h3⟩
  simp only [opnd_ok (hs.2.1 ra) ha, bind_ok, h1, pure_ok]

theorem unary_operand (f : Int → Int) (own : Int → Bool) (hf : s.fault = false) (ha : ¬readable t (s.reg ra)) :
    unary f own t rd ra s = .next (s.raise .operand) :=
  command_error hf (by simp only [opnd_error ha, bind_error])

theorem unary_capacity (f : Int → Int) (own : Int → Bool) (hs : s.ready) (ha : readable t (s.reg ra))
    (hc : ¬inCapacity s.cfg t (f (valueOf s.cfg t (s.reg ra)))) :
    unary f own t rd ra s = .next (s.raise .capacity) :=
  command_error hs.1 (by simp only [opnd_ok (hs.2.1 ra) ha, bind_ok, res_error _ hc, bind_error])

/-! ### Counts -/

theorem counting_next {count : Reg → Count} (hf : s.fault = false) (ha : readable t (s.reg ra))
    (hm : ∀ m, count (s.reg ra) = .finite m → m ≤ 8192) :
    ∃ v, counting count t rd ra s = .next (s.write rd v) ∧ holdsCount s.cfg v (count (s.reg ra)) ∧
      v.err = (s.reg ra).err := by
  obtain ⟨r, h1, h2, h3⟩ := cntrec_ok (c := s.cfg) (e := (s.reg ra).err) (k := count (s.reg ra))
    fun m h => small_lt_B_sq _ (hm m h)
  refine ⟨r, command_ok hf ?_, h2, h3⟩
  simp only [checkLen_ok ha, bind_ok, h1, pure_ok]

theorem counting_operand {count : Reg → Count} (hf : s.fault = false) (ha : ¬readable t (s.reg ra)) :
    counting count t rd ra s = .next (s.raise .operand) :=
  command_error hf (by simp only [checkLen_error ha, bind_error])

/-- The bits that a count runs over are few. -/
theorem storedBits_le {r : Reg} (hw : r.wf c) (h : readable t r) : storedBits c t r ≤ 4096 := by
  cases t with
  | sys sgn n =>
    have hl : r.len = words n := h
    have := stored_bits_le hw
    rw [hl, Nat.mul_comm] at this
    exact this
  | arb sgn => exact stored_bits_le hw

/-! ### Shifts -/

/-- `floorShift` is the floor of the quotient by a power of two. -/
theorem floorShift_eq (a : Int) (d : Nat) : floorShift a d = a / 2 ^ d := by
  simp only [floorShift]
  split
  · rename_i h
    have hlt : a.natAbs < 2 ^ d := by
      by_cases h0 : a.natAbs = 0
      · rw [h0]; positivity
      · exact lt_of_lt_of_le Nat.lt_log2_self (Nat.pow_le_pow_right (by omega) h)
    have hlt' : |a| < 2 ^ d := by
      rw [Int.abs_eq_natAbs]
      exact_mod_cast hlt
    obtain ⟨h1, h2⟩ := abs_lt.1 hlt'
    split
    · rename_i hn
      exact ((Int.ediv_eq_iff_of_pos (by positivity)).2 ⟨by linarith, by linarith⟩).symm
    · rename_i hn
      exact (Int.ediv_eq_zero_of_lt (not_lt.1 hn) h2).symm
  · rfl

/-- A value of a systems type shifted down by its size or more is its sign. -/
theorem ediv_pow_of_inDomain {l d : Nat} {a : Int} (h1 : -(2 ^ l) ≤ a) (h2 : a < 2 ^ l) (hd : l ≤ d) :
    a / 2 ^ d = if a < 0 then -1 else 0 := by
  have h3 : (2 : Int) ^ l ≤ 2 ^ d := pow_le_pow_right₀ (by norm_num) hd
  split
  · rename_i hn
    exact (Int.ediv_eq_iff_of_pos (by positivity)).2 ⟨by linarith, by linarith⟩
  · rename_i hn
    exact Int.ediv_eq_zero_of_lt (not_lt.1 hn) (by linarith)

/-- A systems value lies strictly within its size in bits. -/
theorem inDomain_bounds (h : inDomain c (.sys sgn n) v) : -(2 ^ bitLen c n) ≤ v ∧ v < 2 ^ bitLen c n := by
  have hl := bitLen_pos c n
  have hp : (2 : Int) ^ bitLen c n = 2 ^ (bitLen c n - 1) + 2 ^ (bitLen c n - 1) := by
    rw [← two_mul, ← pow_succ']
    congr 1
    omega
  have hp0 : (0 : Int) < 2 ^ (bitLen c n - 1) := by positivity
  cases sgn
  · simp only [inDomain] at h
    exact ⟨by linarith, h.2⟩
  · simp only [inDomain] at h
    exact ⟨by linarith, by linarith⟩

/-- The record of an up-shift by a finite distance. -/
theorem shiftUp_finite (c : Config) (t : Ty) (a : Int) (d : Nat) (e : Bool) :
    shiftUp c t a (.finite d) e = res c t (a * 2 ^ d) e := by
  cases t with
  | sys sgn n =>
    simp only [shiftUp]
    split
    · rename_i h
      simp only [res]
      congr 1
      apply sysrec_congr
      have : (2 : Int) ^ d = 2 ^ (words n * c.W) * 2 ^ (d - words n * c.W) := by
        rw [← pow_add]
        congr 1
        have : words n * c.W ≤ d := h
        omega
      rw [this, ← mul_assoc, mul_right_comm, Int.mul_emod_left, Int.zero_emod]
    · rfl
  | arb sgn =>
    simp only [shiftUp]
    split
    · rename_i h
      rw [h, zero_mul]
    · rename_i h
      split
      · rename_i hd
        refine (res_error (t := .arb sgn) e ?_).symm
        intro hc
        simp only [inCapacity, c.B_pow_int] at hc
        have h2 : (2 : Int) ^ (c.CAP * c.W + 1) ≤ 2 ^ d := pow_le_pow_right₀ (by norm_num) hd
        have hp : (0 : Int) < 2 ^ (c.CAP * c.W) := by positivity
        rw [pow_succ] at h2
        rcases lt_or_gt_of_ne h with h0 | h0
        · nlinarith
        · nlinarith
      · rfl

theorem shiftUp_infinite (c : Config) (t : Ty) (a : Int) (e : Bool) : shiftUp c t a .infinite e = res c t 0 e := by
  cases t <;> rfl

/-- The integer of a down-shift by a finite distance. -/
theorem shiftDown_finite (a : Int) (d : Nat) (h : ∀ sgn n, t = .sys sgn n → inDomain c t a) :
    shiftDown c t a (.finite d) = a / 2 ^ d := by
  cases t with
  | sys sgn n =>
    simp only [shiftDown, floorShift_eq]
    split
    · rename_i hd
      obtain ⟨h1, h2⟩ := inDomain_bounds (h sgn n rfl)
      exact (ediv_pow_of_inDomain h1 h2 hd).symm
    · rfl
  | arb sgn => exact floorShift_eq a d

theorem shiftDown_infinite (a : Int) : shiftDown c t a .infinite = if a < 0 then -1 else 0 := by
  cases t <;> rfl

/-- Shifting down keeps an integer within the capacity. -/
theorem inCapacity_ediv (d : Nat) (h : inCapacity c t v) : inCapacity c t (v / 2 ^ d) := by
  cases t with
  | sys sgn n => trivial
  | arb sgn =>
    have hp : (0 : Int) < (c.B : Int) ^ c.CAP := by have := c.B_pos; positivity
    have hd : (0 : Int) < 2 ^ d := by positivity
    have hd1 : (1 : Int) ≤ 2 ^ d := hd
    constructor
    · rw [Int.le_ediv_iff_mul_le hd]
      nlinarith [h.1]
    · rcases lt_or_ge v 0 with hv | hv
      · exact lt_trans (Int.ediv_neg_of_neg_of_pos hv hd) hp
      · exact lt_of_le_of_lt (Int.ediv_le_self _ hv) h.2

theorem inCapacity_zero (c : Config) (t : Ty) : inCapacity c t 0 := by
  have hp : (0 : Int) < (c.B : Int) ^ c.CAP := by have := c.B_pos; positivity
  cases t with
  | sys sgn n => trivial
  | arb sgn => exact ⟨by linarith, hp⟩

theorem inCapacity_neg_one (c : Config) (t : Ty) : inCapacity c t (-1) := by
  have hp : (1 : Int) ≤ (c.B : Int) ^ c.CAP := by
    have : (1 : Int) ≤ c.B := by have := c.B_pos; exact_mod_cast this
    exact one_le_pow₀ this
  cases t with
  | sys sgn n => trivial
  | arb sgn => exact ⟨by linarith, by linarith⟩

/-! ### Division -/

/-- The truncated quotient is no larger in magnitude than the dividend. -/
theorem inCapacity_tdiv {b : Int} (h : inCapacity c t v) (hb : 0 < b) : inCapacity c t (v.tdiv b) := by
  cases t with
  | sys sgn n => trivial
  | arb sgn =>
    have h1 : |v.tdiv b| ≤ |v| := by
      rw [Int.abs_eq_natAbs, Int.abs_eq_natAbs, Int.natAbs_tdiv]
      exact_mod_cast Nat.div_le_self _ _
    rcases lt_or_ge v 0 with hv | hv
    · have h2 : v.tdiv b ≤ 0 := by
        have := Int.tdiv_nonneg (a := -v) (b := b) (by linarith) hb.le
        rw [Int.neg_tdiv] at this
        linarith
      rw [abs_of_nonpos h2, abs_of_neg hv] at h1
      have hp : (0 : Int) < (c.B : Int) ^ c.CAP := by have := c.B_pos; positivity
      exact ⟨by linarith [h.1], by linarith⟩
    · have h2 : 0 ≤ v.tdiv b := Int.tdiv_nonneg hv hb.le
      rw [abs_of_nonneg h2, abs_of_nonneg hv] at h1
      have hp : (0 : Int) < (c.B : Int) ^ c.CAP := by have := c.B_pos; positivity
      exact ⟨by linarith, by linarith [h.2]⟩

theorem tdiv_eq (a b : Int) : tdiv a b = a.tdiv b := rfl

theorem trem_eq (a b : Int) : trem a b = a - a.tdiv b * b := rfl

theorem trem_eq_tmod (a b : Int) : trem a b = a.tmod b := by
  rw [trem_eq]
  have := Int.mul_tdiv_add_tmod a b
  rw [mul_comm] at this
  linarith

/-- The remainder is no larger in magnitude than the dividend, and has its sign. -/
theorem inCapacity_tmod {b : Int} (h : inCapacity c t v) : inCapacity c t (v.tmod b) := by
  cases t with
  | sys sgn n => trivial
  | arb sgn =>
    have h1 : |v.tmod b| ≤ |v| := by
      rw [Int.abs_eq_natAbs, Int.abs_eq_natAbs, Int.natAbs_tmod]
      exact_mod_cast Nat.mod_le _ _
    have hp : (0 : Int) < (c.B : Int) ^ c.CAP := by have := c.B_pos; positivity
    rcases lt_or_ge v 0 with hv | hv
    · have h2 : v.tmod b ≤ 0 := by
        have := Int.tmod_nonneg (a := -v) b (by linarith)
        rw [Int.neg_tmod] at this
        linarith
      rw [abs_of_nonpos h2, abs_of_neg hv] at h1
      exact ⟨by linarith [h.1], by linarith⟩
    · have h2 : 0 ≤ v.tmod b := Int.tmod_nonneg b hv
      rw [abs_of_nonneg h2, abs_of_nonneg hv] at h1
      exact ⟨by linarith, by linarith [h.2]⟩

end Sys2Proof.Machine
end

