-- ==== Sys2Proof/Laws/Bits.lean ====
section
/-! SUPPORT. Bits of integers and of records: `Int.testBit` under complement, reduction and shifts, and the pattern bits of a
record that holds an integer. -/

namespace Sys2Proof.Machine

variable {c : Config} {t : Ty} {r : Reg} {n : Size} {sgn : Bool} {v : Int}

/-- The complement inverts every bit. -/
theorem int_testBit_compl (a : Int) (i : Nat) : (-a - 1).testBit i = !a.testBit i := by
  cases a with
  | ofNat m =>
    have : -(Int.ofNat m) - 1 = Int.negSucc m := by
      rw [Int.negSucc_eq]
      show -(m : Int) - 1 = _
      ring
    rw [this]
    rfl
  | negSucc m =>
    have : -(Int.negSucc m) - 1 = (m : Int) := by
      rw [Int.negSucc_eq]
      ring
    rw [this]
    show m.testBit i = !!m.testBit i
    simp

/-- A bit of an integer is the parity of the floor of its quotient by a power of two. -/
theorem int_testBit_eq (a : Int) (i : Nat) : a.testBit i = decide (a / 2 ^ i % 2 = 1) := by
  cases a with
  | ofNat m =>
    show m.testBit i = _
    rw [Nat.testBit_eq_decide_div_mod_eq]
    have : (Int.ofNat m) / 2 ^ i % 2 = ((m / 2 ^ i % 2 : Nat) : Int) := by push_cast; rfl
    rw [this]
    congr 1
    simp only [eq_iff_iff]
    norm_cast
  | negSucc m =>
    show (!m.testBit i) = _
    rw [Nat.testBit_eq_decide_div_mod_eq]
    have h : Int.negSucc m / 2 ^ i = -((m / 2 ^ i : Nat) : Int) - 1 := by
      have hp : (0 : Int) < 2 ^ i := by positivity
      rw [Int.ediv_eq_iff_of_pos hp, Int.negSucc_eq]
      have h1 : m / 2 ^ i * 2 ^ i + m % 2 ^ i = m := by rw [Nat.mul_comm]; exact Nat.div_add_mod m _
      have h2 : m % 2 ^ i < 2 ^ i := Nat.mod_lt _ (Nat.two_pow_pos i)
      have h1' : ((m / 2 ^ i : Nat) : Int) * 2 ^ i + ((m % 2 ^ i : Nat) : Int) = m := by exact_mod_cast h1
      have h2' : ((m % 2 ^ i : Nat) : Int) < 2 ^ i := by exact_mod_cast h2
      have h3' : (0 : Int) ≤ ((m % 2 ^ i : Nat) : Int) := by positivity
      constructor <;> nlinarith
    rw [h, ← decide_not]
    congr 1
    simp only [eq_iff_iff]
    omega

/-- Reduction modulo `2^l` keeps the bits below `l`. -/
theorem int_testBit_emod {l i : Nat} (a : Int) (h : i < l) : (a % 2 ^ l).testBit i = a.testBit i := by
  rw [int_testBit_eq, int_testBit_eq]
  congr 2
  obtain ⟨k, rfl⟩ : ∃ k, l = i + 1 + k := ⟨l - (i + 1), by omega⟩
  have e : a = a % 2 ^ (i + 1 + k) + 2 ^ i * (2 * (2 ^ k * (a / 2 ^ (i + 1 + k)))) := by
    have := Int.emod_add_mul_ediv a (2 ^ (i + 1 + k))
    rw [← mul_assoc, ← mul_assoc, ← pow_succ, ← pow_add]
    linarith
  conv_rhs => rw [e, Int.add_mul_ediv_left _ _ (by positivity), Int.add_mul_emod_self_left]

/-- The floor of a quotient by a power of two drops the low bits. -/
theorem int_testBit_ediv (a : Int) (d i : Nat) : (a / 2 ^ d).testBit i = a.testBit (i + d) := by
  rw [int_testBit_eq, int_testBit_eq]
  congr 2
  rw [Int.ediv_ediv_of_nonneg (by positivity), ← pow_add, Nat.add_comm]

/-- An integer is negative when its bits are 1 from some place on. -/
theorem int_testBit_of_lt {a : Int} {l i : Nat} (h1 : -(2 ^ l) ≤ a) (h2 : a < 2 ^ l) (hi : l ≤ i) :
    a.testBit i = decide (a < 0) := by
  rw [int_testBit_eq, ediv_pow_of_inDomain h1 h2 hi]
  by_cases h : a < 0 <;> simp [h]

/-- Integers with the same bits are equal. -/
theorem int_eq_of_testBit {a b : Int} (h : ∀ i, a.testBit i = b.testBit i) : a = b := by
  have key : ∀ m k : Nat, (∀ i, m.testBit i = !k.testBit i) → False := by
    intro m k hmk
    have h1 := Nat.testBit_lt_two_pow (x := m) (i := m + k) (lt_of_lt_of_le Nat.lt_two_pow_self (Nat.pow_le_pow_right (by omega) (by omega)))
    have h2 := Nat.testBit_lt_two_pow (x := k) (i := m + k) (lt_of_lt_of_le Nat.lt_two_pow_self (Nat.pow_le_pow_right (by omega) (by omega)))
    have := hmk (m + k)
    rw [h1, h2] at this
    cases this
  cases a with
  | ofNat m =>
    cases b with
    | ofNat k => exact congrArg Int.ofNat (Nat.eq_of_testBit_eq h)
    | negSucc k => exact (key m k h).elim
  | negSucc m =>
    cases b with
    | ofNat k => exact (key k m fun i => (h i).symm).elim
    | negSucc k =>
      refine congrArg Int.negSucc (Nat.eq_of_testBit_eq fun i => ?_)
      have : (!m.testBit i) = !k.testBit i := h i
      simpa using this

/-- The pattern bits of a systems record are the low bits of the integer it holds. -/
theorem holds_patternBit_sys (h : holds c (.sys sgn n) r v) {i : Nat} (hi : i < bitLen c n) :
    patternBit c (.sys sgn n) r i = v.testBit i := by
  obtain ⟨h1, h2, -, h4⟩ := h
  have : (r.nat c).testBit i = ((r.nat c : Int)).testBit i := rfl
  rw [patternBit, valueOf_sys_testBit h1 h2 hi, this, h4, int_testBit_emod _ hi]

/-- The pattern bits of an arbitrary record are the bits of the integer it holds. -/
theorem holds_patternBit_arb (h : holds c (.arb sgn) r v) (i : Nat) : patternBit c (.arb sgn) r i = v.testBit i := by
  rw [patternBit, valueOf_of_holds_arb h]

/-- The number whose bits, least significant first, are the list. -/
theorem natOfBits_testBit (bits : List Bool) (i : Nat) : (natOfBits bits).testBit i = bits.getD i false := by
  induction bits generalizing i with
  | nil => simp [natOfBits]
  | cons b bs ih =>
    have e : natOfBits (b :: bs) = 2 * natOfBits bs + b.toNat := by simp [natOfBits, Nat.add_comm]
    rw [e]
    cases i with
    | zero => cases b <;> simp [Nat.testBit_zero]
    | succ i =>
      rw [Nat.testBit_succ]
      have : (2 * natOfBits bs + b.toNat) / 2 = natOfBits bs := by
        cases b
        · simp
        · simp; omega
      rw [this, ih]
      simp

/-- The bits of a number with a field replaced (20_memory.md R56). -/
theorem replaceBits_testBit (u lo len d i : Nat) :
    (replaceBits u lo len d).testBit i =
      if lo ≤ i ∧ i < lo + len then d.testBit (i - lo) else u.testBit i := by
  have h1 : u % 2 ^ lo < 2 ^ lo := Nat.mod_lt _ (Nat.two_pow_pos _)
  have h2 : d % 2 ^ len < 2 ^ len := Nat.mod_lt _ (Nat.two_pow_pos _)
  have h3 : u % 2 ^ lo + d % 2 ^ len * 2 ^ lo < 2 ^ (lo + len) := by
    have : d % 2 ^ len * 2 ^ lo + 2 ^ lo ≤ 2 ^ len * 2 ^ lo := by
      rw [← Nat.succ_mul]
      exact Nat.mul_le_mul_right _ h2
    rw [pow_add, Nat.mul_comm (2 ^ lo)]
    omega
  rw [replaceBits, Nat.add_comm, Nat.mul_comm (u / 2 ^ (lo + len)), Nat.testBit_two_pow_mul_add _ h3]
  split
  · rename_i hi
    rw [Nat.add_comm, Nat.mul_comm, Nat.testBit_two_pow_mul_add _ h1]
    by_cases hlo : i < lo
    · rw [if_pos hlo, if_neg (by omega), Nat.testBit_mod_two_pow]
      simp [hlo]
    · rw [if_neg hlo, if_pos (by omega), Nat.testBit_mod_two_pow]
      have : i - lo < len := by omega
      simp [this]
  · rename_i hi
    rw [if_neg (by omega), Nat.testBit_div_two_pow]
    congr 1
    omega

end Sys2Proof.Machine
end

