-- ==== Sys2Proof/Laws/Elements.lean ====
section
/-! SUPPORT. Element writes: everything `elemWr` can do (20_memory.md R56), and the bits of a record after one. -/

namespace Sys2Proof.Machine

variable {c : Config} {r : Reg} {n : Size} {sgn : Bool} {v k d : Nat}

/-- An element width divides the Word width that it does not exceed. -/
theorem View.bits_dvd (c : Config) (vw : View) (h : vw.bits ≤ c.W) : vw.bits ∣ c.W := by
  rcases c with ⟨w, _, _⟩
  cases w <;> cases vw <;> simp_all [Config.W, Width.bits, View.bits]

theorem View.bits_pos (vw : View) : 8 ≤ vw.bits := by
  cases vw <;> simp [View.bits]

/-! ### Systems types -/

/-- An element write under a systems type whose element lies within the type. -/
theorem elemWr_sys_ok (hw : r.wf c) (hl : r.len = words n) (he : v * (k + 1) ≤ bitLen c n) :
    ∃ r', elemWr c (.sys sgn n) r v k d = .ok r' ∧ r'.wf c ∧ r'.len = words n ∧ r'.app = r.app ∧ r'.err = r.err ∧
      ∀ j < bitLen c n, (r'.nat c).testBit j =
        if v * k ≤ j ∧ j < v * (k + 1) then d.testBit (j - v * k) else (r.nat c).testBit j := by
  have hu' : replaceBits (r.nat c) (v * k) v d < 2 ^ bitLen c n := by
    apply Nat.lt_pow_two_of_testBit
    intro i hi
    rw [replaceBits_testBit, if_neg (by rw [Nat.mul_succ] at he; omega)]
    exact Nat.testBit_lt_two_pow
      (lt_of_lt_of_le (Reg.nat_lt_bitLen hw hl) (Nat.pow_le_pow_right (by omega) hi))
  refine ⟨{ r with body := wordsOf c.B (words n) (replaceBits (r.nat c) (v * k) v d) }, ?_, ⟨?_, ?_⟩,
    wordsOf_length _ _ _, rfl, rfl, ?_⟩
  · simp only [elemWr, sysnat_ok hl, bind_ok, if_neg (not_lt.2 he), pure_ok]
  · show (wordsOf _ _ _).length ≤ _
    rw [wordsOf_length, ← hl]
    exact hw.1
  · exact wordsOf_lt c.B_pos _ _
  · intro j _
    have : Reg.nat c { r with body := wordsOf c.B (words n) (replaceBits (r.nat c) (v * k) v d) } =
        replaceBits (r.nat c) (v * k) v d := by
      show natOf _ (wordsOf _ _ _) = _
      rw [natOf_wordsOf, c.B_pow]
      exact Nat.mod_eq_of_lt hu'
    rw [this, replaceBits_testBit]
    simp only [Nat.mul_succ]

theorem elemWr_sys_operand (hl : r.len ≠ words n) : elemWr c (.sys sgn n) r v k d = .error .operand := by
  simp only [elemWr, sysnat_error hl, bind_error]

theorem elemWr_sys_index (hl : r.len = words n) (he : ¬v * (k + 1) ≤ bitLen c n) :
    elemWr c (.sys sgn n) r v k d = .error .index := by
  simp only [elemWr, sysnat_ok hl, bind_ok, if_pos (not_le.1 he)]

/-! ### Arbitrary types -/

theorem word_lt (hw : ∀ w ∈ r.body, w < c.B) (i : Nat) : word c r i < c.B := by
  by_cases hi : i < r.body.length
  · rw [word, List.getD_eq_getElem _ _ hi]
    exact hw _ (List.getElem_mem hi)
  · rw [word, List.getD_eq_default _ _ (not_lt.1 hi)]
    exact extWord_lt c r.app

theorem word_of_len_le {i : Nat} (h : r.len ≤ i) : word c r i = extWord c r.app := by
  rw [word, List.getD_eq_default _ _ h]

/-- The position of a bit of an element: its Word, and its place in the Word. -/
theorem element_bit {W j : Nat} (hv : v ∣ W) (hpos : 0 < v) :
    (v * k ≤ j ∧ j < v * k + v) ↔
      (j / W = v * k / W ∧ v * k % W ≤ j % W ∧ j % W < v * k % W + v) := by
  obtain ⟨m, rfl⟩ := hv
  rcases Nat.eq_zero_or_pos m with rfl | hm
  · simp
  have hW : 0 < v * m := Nat.mul_pos hpos hm
  have e1 : v * k / (v * m) = k / m := Nat.mul_div_mul_left _ _ hpos
  have e2 : v * k % (v * m) = v * (k % m) := Nat.mul_mod_mul_left _ _ _
  rw [e1, e2]
  have h1 := Nat.div_add_mod j (v * m)
  have h2 := Nat.div_add_mod k m
  have h3 := Nat.mod_lt j hW
  have h4 := Nat.mod_lt k hm
  have h5 : v * (k % m) + v ≤ v * m := by
    rw [← Nat.mul_succ]
    exact Nat.mul_le_mul_left _ h4
  have h6 : v * k = v * m * (k / m) + v * (k % m) := by
    conv_lhs => rw [← h2]
    rw [Nat.mul_add, Nat.mul_assoc]
  constructor
  · rintro ⟨ha, hb⟩
    have hq : j / (v * m) = k / m := by
      refine Nat.div_eq_of_lt_le ?_ ?_
      · rw [Nat.mul_comm]; omega
      · rw [Nat.succ_mul, Nat.mul_comm (k / m)]; omega
    rw [hq] at h1
    exact ⟨hq, by omega, by omega⟩
  · rintro ⟨hq, ha, hb⟩
    rw [hq] at h1
    constructor <;> omega

/-- An element write under an arbitrary type whose Word lies within the capacity. -/
theorem elemWr_arb_ok (hw : r.wf c) (hv : v ∣ c.W) (hpos : 0 < v) (he : v * k / c.W < c.CAP) :
    ∃ r', elemWr c (.arb sgn) r v k d = .ok r' ∧ r'.wf c ∧ r'.app = r.app ∧ r'.err = r.err ∧ r'.normal c ∧
      ∀ j, (valueOf c (.arb sgn) r').testBit j =
        if v * k ≤ j ∧ j < v * (k + 1) then d.testBit (j - v * k) else (valueOf c (.arb sgn) r).testBit j := by
  have hW : 0 < c.W := by have := c.W_pos; omega
  set wi := v * k / c.W with hwi
  set x := replaceBits (word c r wi) (v * k % c.W) v d with hx
  set grown := (List.range (max r.len (wi + 1))).map (word c r) with hgrown
  set written := grown.set wi x with hwritten
  have hglen : grown.length = max r.len (wi + 1) := by simp [hgrown]
  have hwlen : written.length = max r.len (wi + 1) := by simp [hwritten, hglen]
  have hwilt : wi < written.length := by rw [hwlen]; omega
  -- the field lies inside one Word
  have hfit : v * k % c.W + v ≤ c.W := by
    obtain ⟨m, hm⟩ := hv
    have hm0 : 0 < m := by
      rcases Nat.eq_zero_or_pos m with rfl | h
      · omega
      · exact h
    rw [hm, Nat.mul_mod_mul_left, ← Nat.mul_succ]
    exact Nat.mul_le_mul_left _ (Nat.mod_lt _ hm0)
  have hxlt : x < c.B := by
    apply Nat.lt_pow_two_of_testBit
    intro i hi
    rw [hx, replaceBits_testBit, if_neg (by omega)]
    exact Nat.testBit_lt_two_pow (lt_of_lt_of_le (word_lt hw.2 _) (Nat.pow_le_pow_right (by omega) hi))
  have hwords : ∀ w ∈ written, w < c.B := by
    intro w hm
    obtain hm | rfl := List.mem_or_eq_of_mem_set hm
    · rw [hgrown, List.mem_map] at hm
      obtain ⟨i, _, rfl⟩ := hm
      exact word_lt hw.2 i
    · exact hxlt
  obtain ⟨kk, ht1, ht2⟩ := trimTop_spec (extWord c r.app) written
  have hbig : ∀ w ∈ ({ r with body := written } : Reg).body, w < c.B := hwords
  refine ⟨{ r with body := trimTop (extWord c r.app) written }, ?_, ⟨?_, ?_⟩, rfl, rfl, ht2, ?_⟩
  · simp only [elemWr]
    rw [if_neg (not_le.2 he)]
  · refine le_trans (trimTop_length_le _ _) ?_
    rw [hwlen]
    exact max_le hw.1 he
  · intro w hm
    exact hwords w (mem_of_mem_trimTop hm)
  · intro j
    have hval : valueOf c (.arb sgn) { r with body := trimTop (extWord c r.app) written } =
        valueOf c (.arb sgn) { r with body := written } := natOf_trimTop c r.app written
    rw [hval, valueOf_arb_testBit hbig, valueOf_arb_testBit hw.2]
    have hword : word c { r with body := written } (j / c.W) = if j / c.W = wi then x else word c r (j / c.W) := by
      simp only [word]
      by_cases hj : j / c.W < written.length
      · rw [List.getD_eq_getElem _ _ hj]
        simp only [hwritten, List.getElem_set]
        by_cases hjw : j / c.W = wi
        · rw [if_pos hjw.symm, if_pos hjw]
        · rw [if_neg (Ne.symm hjw), if_neg hjw]
          simp only [hgrown, List.getElem_map, List.getElem_range]
          rfl
      · rw [List.getD_eq_default _ _ (not_lt.1 hj), if_neg (by omega)]
        have : r.len ≤ j / c.W := by rw [hwlen] at hj; omega
        exact (word_of_len_le this).symm
    rw [hword, Nat.mul_succ]
    have hiff := element_bit (k := k) (j := j) hv hpos
    by_cases hjw : j / c.W = wi
    · rw [if_pos hjw, hx, replaceBits_testBit, ← hjw]
      by_cases hin : v * k ≤ j ∧ j < v * k + v
      · rw [if_pos hin, if_pos (hiff.1 hin).2]
        congr 1
        have h1 := Nat.div_add_mod j c.W
        have h2 := Nat.div_add_mod (v * k) c.W
        rw [← hwi, ← hjw] at h2
        omega
      · rw [if_neg hin, if_neg fun h => hin (hiff.2 ⟨hjw, h⟩)]
    · rw [if_neg hjw, if_neg fun h => hjw (hiff.1 h).1]

theorem elemWr_arb_capacity (he : ¬v * k / c.W < c.CAP) : elemWr c (.arb sgn) r v k d = .error .capacity := by
  simp only [elemWr]
  rw [if_pos (not_lt.1 he)]

end Sys2Proof.Machine
end

