-- ==== Sys2Proof/Laws/Encoding.lean ====
section
/-! SUPPORT. The fields of an encoded word: for each format of 30_encoding.md R71 to R74, what the decoder's field reader
finds in the word that the encoder packs. -/

namespace Sys2Proof.Laws

/-- An opcode has six bits. -/
theorem code_lt (o : Op) : o.code < 64 := by cases o <;> decide

/-- The opcode map gives each opcode its own code. -/
theorem ofCode_code (o : Op) : Op.ofCode o.code = some o := by cases o <;> decide

/-- The low 14 bits of a word, as one number. -/
theorem packType_lt (o : Op) (sgn arb : Bool) (n : Nat) (hn : n < 64) : packType o sgn arb n < 2 ^ 14 := by
  have := code_lt o
  cases sgn <;> cases arb <;> simp [packType] <;> omega

/-- Every field of a format R word. -/
theorem packR_fields (low rd re ra rb m : Nat) (hl : low < 2 ^ 14) (hd : rd < 16) (he : re < 16) (ha : ra < 16)
    (hb : rb < 16) (hm : m < 4) :
    (packR low rd re ra rb m).toNat % 2 ^ 14 = low ∧ slice (packR low rd re ra rb m) 17 14 = rd ∧
    slice (packR low rd re ra rb m) 21 18 = re ∧ slice (packR low rd re ra rb m) 25 22 = ra ∧
    slice (packR low rd re ra rb m) 29 26 = rb ∧ slice (packR low rd re ra rb m) 31 30 = m := by
  simp only [packR, slice, BitVec.toNat_ofNat]
  norm_num at hl ⊢
  refine ⟨?_, ?_, ?_, ?_, ?_, ?_⟩ <;> omega

/-- Every field of a format X word. -/
theorem packX_fields (low r vw idx : Nat) (hl : low < 2 ^ 14) (hr : r < 16) (hv : vw < 4) (hi : idx < 4096) :
    (packX low r vw idx).toNat % 2 ^ 14 = low ∧ slice (packX low r vw idx) 17 14 = r ∧
    slice (packX low r vw idx) 19 18 = vw ∧ slice (packX low r vw idx) 31 20 = idx := by
  simp only [packX, slice, BitVec.toNat_ofNat]
  norm_num at hl ⊢
  refine ⟨?_, ?_, ?_, ?_⟩ <;> omega

/-- Every field of a format C word. -/
theorem packC_fields (low rd ra dn : Nat) (dsgn darb : Bool) (hl : low < 2 ^ 14) (hd : rd < 16) (ha : ra < 16)
    (hn : dn < 64) :
    (packC low rd ra dn dsgn darb).toNat % 2 ^ 14 = low ∧ slice (packC low rd ra dn dsgn darb) 17 14 = rd ∧
    slice (packC low rd ra dn dsgn darb) 21 18 = ra ∧ slice (packC low rd ra dn dsgn darb) 27 22 = dn ∧
    slice (packC low rd ra dn dsgn darb) 28 28 = dsgn.toNat ∧ slice (packC low rd ra dn dsgn darb) 29 29 = darb.toNat ∧
    slice (packC low rd ra dn dsgn darb) 31 30 = 0 := by
  have h1 := dsgn.toNat_lt
  have h2 := darb.toNat_lt
  simp only [packC, slice, BitVec.toNat_ofNat]
  norm_num at hl ⊢
  refine ⟨?_, ?_, ?_, ?_, ?_, ?_, ?_⟩ <;> omega

/-- The fields of the low 14 bits, in any word that has them. -/
theorem packType_fields (w : Cmd) (o : Op) (sgn arb : Bool) (n : Nat)
    (h : w.toNat % 2 ^ 14 = packType o sgn arb n) :
    slice w 5 0 = o.code ∧ slice w 6 6 = sgn.toNat ∧ slice w 7 7 = arb.toNat ∧ slice w 13 8 = n := by
  have hc := code_lt o
  have h1 := sgn.toNat_lt
  have h2 := arb.toNat_lt
  simp only [packType, slice] at h ⊢
  norm_num at h ⊢
  refine ⟨?_, ?_, ?_, ?_⟩ <;> omega

/-- The opcode of a format R word, whatever its other fields hold. -/
theorem packR_opcode (o : Op) (sgn arb : Bool) (n rd re ra rb m : Nat) :
    slice (packR (packType o sgn arb n) rd re ra rb m) 5 0 = o.code := by
  have := code_lt o
  simp only [packR, packType, slice, BitVec.toNat_ofNat]
  omega

/-- The opcode of a format X word, whatever its other fields hold. -/
theorem packX_opcode (o : Op) (sgn arb : Bool) (n r vw idx : Nat) :
    slice (packX (packType o sgn arb n) r vw idx) 5 0 = o.code := by
  have := code_lt o
  simp only [packX, packType, slice, BitVec.toNat_ofNat]
  omega

/-- The opcode of a format C word, whatever its other fields hold. -/
theorem packC_opcode (o : Op) (sgn arb : Bool) (n rd ra dn : Nat) (dsgn darb : Bool) :
    slice (packC (packType o sgn arb n) rd ra dn dsgn darb) 5 0 = o.code := by
  have := code_lt o
  simp only [packC, packType, slice, BitVec.toNat_ofNat]
  omega

end Sys2Proof.Laws
end

