-- ==== Sys2Proof/Laws/PerInstr.lean ====
section
/-! SUPPORT. Statements made per instruction. `EncodedOpcode`: the word of a command carries the opcode of the command's
row in the opcode map, and decoding starts from it (30_encoding.md R71, R76). -/

namespace Sys2Proof.Laws

/-- The row of the opcode map that a command's mnemonic has (30_encoding.md R76). -/
def opOf : Instr → Op
  | .init _ _ => .init
  | .wrw _ _ _ _ => .wrw
  | .wrapp _ _ _ => .wrapp
  | .rdw _ _ _ _ => .rdw
  | .rdbit _ _ _ => .rdbit
  | .rdlen _ => .rdlen
  | .rdapp _ _ => .rdapp
  | .rde _ => .rde
  | .cnt _ _ _ _ => .cnt
  | .asc _ _ _ _ => .asc
  | .dsc _ _ _ _ => .dsc
  | .bswap _ _ _ _ => .bswap
  | .cvt _ _ _ _ => .cvt
  | .veto _ _ _ => .contract
  | .unwrap _ _ => .contract
  | .feq _ _ _ => .feq
  | .gnz _ _ => .guard
  | .gnat _ _ => .guard
  | .gfin _ _ => .guard
  | .add _ _ _ _ => .add
  | .sub _ _ _ _ => .sub
  | .bnot _ _ _ => .bnot
  | .cpl _ _ _ _ => .cpl
  | .mag _ _ _ => .mag
  | .shl _ _ _ _ => .shl
  | .shr _ _ _ _ => .shr
  | .shlm _ _ _ _ _ => .shlm
  | .shrm _ _ _ _ _ => .shrm
  | .mul _ _ _ _ => .mul
  | .mulf _ _ _ _ _ => .mulf
  | .sqr _ _ _ => .sqr
  | .div _ _ _ _ _ => .div
  | .div21 _ _ _ _ _ _ => .div21
  | .rcpset _ _ _ => .rcpset
  | .rcpdiv _ _ _ _ _ => .rcpdiv
  | .rcp21set _ _ _ => .rcp21set
  | .rcp21div _ _ _ _ _ => .rcp21div
  | .rcprd _ _ _ => .rcprd
  | .rdstat => .rdstat
  | .rdcfg _ => .rdcfg

/-- The word of the command has the command's opcode, and the opcode map reads it back. -/
def EncodedOpcode.Statement (i : Instr) : Prop :=
  slice (encode i) 5 0 = (opOf i).code ∧ Op.ofCode (slice (encode i) 5 0) = some (opOf i)

/-- The opcode read back is the opcode packed. -/
theorem EncodedOpcode.of_slice {i : Instr} (h : slice (encode i) 5 0 = (opOf i).code) : EncodedOpcode.Statement i :=
  ⟨h, by rw [h, ofCode_code]⟩

theorem EncodedOpcode.init (t : Ty) (r : RegNum) :
    EncodedOpcode.Statement (.init t r) :=
  by cases t <;> exact EncodedOpcode.of_slice (packX_opcode ..)

theorem EncodedOpcode.wrw (t : Ty) (r : RegNum) (vw : View) (idx : BitVec 12) :
    EncodedOpcode.Statement (.wrw t r vw idx) :=
  by cases t <;> exact EncodedOpcode.of_slice (packX_opcode ..)

theorem EncodedOpcode.wrapp (sgn : Bool) (r : RegNum) (bit : Bool) :
    EncodedOpcode.Statement (.wrapp sgn r bit) :=
  EncodedOpcode.of_slice (packX_opcode ..)

theorem EncodedOpcode.rdw (t : Ty) (r : RegNum) (vw : View) (idx : BitVec 12) :
    EncodedOpcode.Statement (.rdw t r vw idx) :=
  by cases t <;> exact EncodedOpcode.of_slice (packX_opcode ..)

theorem EncodedOpcode.rdbit (t : Ty) (r : RegNum) (idx : BitVec 12) :
    EncodedOpcode.Statement (.rdbit t r idx) :=
  by cases t <;> exact EncodedOpcode.of_slice (packX_opcode ..)

theorem EncodedOpcode.rdlen (r : RegNum) :
    EncodedOpcode.Statement (.rdlen r) :=
  EncodedOpcode.of_slice (packX_opcode ..)

theorem EncodedOpcode.rdapp (t : Ty) (r : RegNum) :
    EncodedOpcode.Statement (.rdapp t r) :=
  by cases t <;> exact EncodedOpcode.of_slice (packX_opcode ..)

theorem EncodedOpcode.rde (r : RegNum) :
    EncodedOpcode.Statement (.rde r) :=
  EncodedOpcode.of_slice (packX_opcode ..)

theorem EncodedOpcode.cnt (t : Ty) (rd ra : RegNum) (bit : Bool) :
    EncodedOpcode.Statement (.cnt t rd ra bit) :=
  by cases t <;> exact EncodedOpcode.of_slice (packR_opcode ..)

theorem EncodedOpcode.asc (t : Ty) (rd ra : RegNum) (bit : Bool) :
    EncodedOpcode.Statement (.asc t rd ra bit) :=
  by cases t <;> exact EncodedOpcode.of_slice (packR_opcode ..)

theorem EncodedOpcode.dsc (t : Ty) (rd ra : RegNum) (bit : Bool) :
    EncodedOpcode.Statement (.dsc t rd ra bit) :=
  by cases t <;> exact EncodedOpcode.of_slice (packR_opcode ..)

theorem EncodedOpcode.bswap (sgn : Bool) (n : Size) (rd ra : RegNum) :
    EncodedOpcode.Statement (.bswap sgn n rd ra) :=
  EncodedOpcode.of_slice (packR_opcode ..)

theorem EncodedOpcode.cvt (ts td : Ty) (rd ra : RegNum) :
    EncodedOpcode.Statement (.cvt ts td rd ra) :=
  by cases ts <;> cases td <;> exact EncodedOpcode.of_slice (packC_opcode ..)

theorem EncodedOpcode.veto (rd ra : RegNum) (b : Bool) :
    EncodedOpcode.Statement (.veto rd ra b) :=
  EncodedOpcode.of_slice (packR_opcode ..)

theorem EncodedOpcode.unwrap (rd ra : RegNum) :
    EncodedOpcode.Statement (.unwrap rd ra) :=
  EncodedOpcode.of_slice (packR_opcode ..)

theorem EncodedOpcode.feq (t : Ty) (ra rb : RegNum) :
    EncodedOpcode.Statement (.feq t ra rb) :=
  by cases t <;> exact EncodedOpcode.of_slice (packR_opcode ..)

theorem EncodedOpcode.gnz (t : Ty) (ra : RegNum) :
    EncodedOpcode.Statement (.gnz t ra) :=
  by cases t <;> exact EncodedOpcode.of_slice (packR_opcode ..)

theorem EncodedOpcode.gnat (t : Ty) (ra : RegNum) :
    EncodedOpcode.Statement (.gnat t ra) :=
  by cases t <;> exact EncodedOpcode.of_slice (packR_opcode ..)

theorem EncodedOpcode.gfin (t : Ty) (ra : RegNum) :
    EncodedOpcode.Statement (.gfin t ra) :=
  by cases t <;> exact EncodedOpcode.of_slice (packR_opcode ..)

theorem EncodedOpcode.add (t : Ty) (rd ra rb : RegNum) :
    EncodedOpcode.Statement (.add t rd ra rb) :=
  by cases t <;> exact EncodedOpcode.of_slice (packR_opcode ..)

theorem EncodedOpcode.sub (t : Ty) (rd ra rb : RegNum) :
    EncodedOpcode.Statement (.sub t rd ra rb) :=
  by cases t <;> exact EncodedOpcode.of_slice (packR_opcode ..)

theorem EncodedOpcode.bnot (t : Ty) (rd ra : RegNum) :
    EncodedOpcode.Statement (.bnot t rd ra) :=
  by cases t <;> exact EncodedOpcode.of_slice (packR_opcode ..)

theorem EncodedOpcode.cpl (t : Ty) (rd ra : RegNum) (inc : Bool) :
    EncodedOpcode.Statement (.cpl t rd ra inc) :=
  by cases t <;> exact EncodedOpcode.of_slice (packR_opcode ..)

theorem EncodedOpcode.mag (t : Ty) (rd ra : RegNum) :
    EncodedOpcode.Statement (.mag t rd ra) :=
  by cases t <;> exact EncodedOpcode.of_slice (packR_opcode ..)

theorem EncodedOpcode.shl (t : Ty) (rd ra rb : RegNum) :
    EncodedOpcode.Statement (.shl t rd ra rb) :=
  by cases t <;> exact EncodedOpcode.of_slice (packR_opcode ..)

theorem EncodedOpcode.shr (t : Ty) (rd ra rb : RegNum) :
    EncodedOpcode.Statement (.shr t rd ra rb) :=
  by cases t <;> exact EncodedOpcode.of_slice (packR_opcode ..)

theorem EncodedOpcode.shlm (sgn : Bool) (n : Size) (rd ra rb : RegNum) :
    EncodedOpcode.Statement (.shlm sgn n rd ra rb) :=
  EncodedOpcode.of_slice (packR_opcode ..)

theorem EncodedOpcode.shrm (sgn : Bool) (n : Size) (rd ra rb : RegNum) :
    EncodedOpcode.Statement (.shrm sgn n rd ra rb) :=
  EncodedOpcode.of_slice (packR_opcode ..)

theorem EncodedOpcode.mul (t : Ty) (rd ra rb : RegNum) :
    EncodedOpcode.Statement (.mul t rd ra rb) :=
  by cases t <;> exact EncodedOpcode.of_slice (packR_opcode ..)

theorem EncodedOpcode.mulf (sgn : Bool) (n : Size) (rd ra rb : RegNum) :
    EncodedOpcode.Statement (.mulf sgn n rd ra rb) :=
  EncodedOpcode.of_slice (packR_opcode ..)

theorem EncodedOpcode.sqr (t : Ty) (rd ra : RegNum) :
    EncodedOpcode.Statement (.sqr t rd ra) :=
  by cases t <;> exact EncodedOpcode.of_slice (packR_opcode ..)

theorem EncodedOpcode.div (t : Ty) (rd re ra rb : RegNum) :
    EncodedOpcode.Statement (.div t rd re ra rb) :=
  by cases t <;> exact EncodedOpcode.of_slice (packR_opcode ..)

theorem EncodedOpcode.div21 (sgn : Bool) (n : Size) (rd re ra rb : RegNum) :
    EncodedOpcode.Statement (.div21 sgn n rd re ra rb) :=
  EncodedOpcode.of_slice (packR_opcode ..)

theorem EncodedOpcode.rcpset (n : Size) (slot : SlotNum) (ra : RegNum) :
    EncodedOpcode.Statement (.rcpset n slot ra) :=
  EncodedOpcode.of_slice (packR_opcode ..)

theorem EncodedOpcode.rcpdiv (n : Size) (rd re ra : RegNum) (slot : SlotNum) :
    EncodedOpcode.Statement (.rcpdiv n rd re ra slot) :=
  EncodedOpcode.of_slice (packR_opcode ..)

theorem EncodedOpcode.rcp21set (n : Size) (slot : SlotNum) (ra : RegNum) :
    EncodedOpcode.Statement (.rcp21set n slot ra) :=
  EncodedOpcode.of_slice (packR_opcode ..)

theorem EncodedOpcode.rcp21div (n : Size) (rd re ra : RegNum) (slot : SlotNum) :
    EncodedOpcode.Statement (.rcp21div n rd re ra slot) :=
  EncodedOpcode.of_slice (packR_opcode ..)

theorem EncodedOpcode.rcprd (rd re : RegNum) (slot : SlotNum) :
    EncodedOpcode.Statement (.rcprd rd re slot) :=
  EncodedOpcode.of_slice (packR_opcode ..)

theorem EncodedOpcode.rdstat :
    EncodedOpcode.Statement (.rdstat) :=
  EncodedOpcode.of_slice (packX_opcode ..)

theorem EncodedOpcode.rdcfg (idx : BitVec 12) :
    EncodedOpcode.Statement (.rdcfg idx) :=
  EncodedOpcode.of_slice (packX_opcode ..)

end Sys2Proof.Laws
end

