-- ==== Sys2Proof/Tests/Slice0.lean ====
section
/-! SUPPORT. The model's own tests: ill-formed terms refused, words decoded, one step of each command on values the spec
prints, and for each statement with hypotheses a state and operands that meet them. Expected values are the spec's
(the rule is named beside each); `W = 8`, `CAP = 16` unless a test says otherwise. -/

namespace Sys2Proof.Tests

open Sys2Proof.Machine

/-! ## Helpers -/

/-- The next state of a result. -/
def nextOf : Result → Option State
  | .next t => some t
  | _ => none

/-- The reset state of a configuration with some registers loaded. -/
def loaded (c : Config) (regs : List (RegNum × Reg)) : State :=
  regs.foldl (fun s p => s.setReg p.1 p.2) (resetState c [])

/-- The configuration `W = 16`, `CAP = 4`. -/
def wide : Config := { width := .w16, capMinus2 := 2, infdivErr := true }

/-- The configuration `W = 32`, `CAP = 16`. -/
def word32 : Config := { width := .w32, capMinus2 := 14, infdivErr := false }

/-- A body with appendix 0. -/
def fin (body : List Nat) : Reg := { body := body, app := false, err := false }

/-- A body with appendix 1. -/
def inf (body : List Nat) : Reg := { body := body, app := true, err := false }

/-- The same record with the error flag set. -/
def flagged (r : Reg) : Reg := { r with err := true }

/-- Register `v3` after a command. -/
def v3 (i : Instr) (s : State) : Option Reg := (nextOf (exec i s)).map (·.reg 3)

/-- Registers `v3` and `v4` after a command. -/
def v34 (i : Instr) (s : State) : Option (Reg × Reg) := (nextOf (exec i s)).map fun t => (t.reg 3, t.reg 4)

/-- The response of a command. -/
def response (i : Instr) (s : State) : Option (Nat × Bool) := (nextOf (exec i s)).map fun t => (t.dout, t.nil)

/-- `STATUS` after a command word. -/
def statusAfter (w : Cmd) (s : State) : Option Nat := (nextOf (issue w s)).map (·.statusWord)

/-- Registers `v1` and `v2` loaded, `W = 8`, `CAP = 16`. -/
def with12 (a b : Reg) : State := loaded .standard [(1, a), (2, b)]

/-- 1. -/
def one : Reg := fin [1]

/-- `2^128 - 2`: one below the greatest `ux` value at `W = 8`, `CAP = 16`. -/
def full : Reg := fin [254, 255, 255, 255, 255, 255, 255, 255, 255, 255, 255, 255, 255, 255, 255, 255]

/-- `-2^128 + 1`: one above the least `sx` value at `W = 8`, `CAP = 16`. -/
def least : Reg := inf [1, 0, 0, 0, 0, 0, 0, 0, 0, 0, 0, 0, 0, 0, 0, 0]

abbrev u1 : Ty := .sys false 0
abbrev s1 : Ty := .sys true 0
abbrev u2 : Ty := .sys false 1
abbrev s2 : Ty := .sys true 1
abbrev ux : Ty := .arb false
abbrev sx : Ty := .arb true

/-! ## Well-formedness: one ill-formed term per check of 30_encoding.md R80 items 6, 7 and 9 -/

theorem test_wellFormed_refuses_large_size : (Instr.add (.sys false 16) 3 1 2).wellFormed .standard = false := by decide
theorem test_wellFormed_accepts_full_size : (Instr.add (.sys false 15) 3 1 2).wellFormed .standard = true := by decide
theorem test_wellFormed_refuses_large_doublet : (Instr.mulf true 8 3 1 2).wellFormed .standard = false := by decide
theorem test_wellFormed_accepts_full_doublet : (Instr.mulf true 7 3 1 2).wellFormed .standard = true := by decide
theorem test_wellFormed_refuses_large_divider21 : (Instr.rcp21set 8 0 1).wellFormed .standard = false := by decide
theorem test_wellFormed_refuses_large_destination : (Instr.cvt u1 (.sys true 16) 2 1).wellFormed .standard = false := by
  decide
theorem test_wellFormed_refuses_wide_view : (Instr.rdw u2 1 .v16 0).wellFormed .standard = false := by decide
theorem test_wellFormed_accepts_word_view : (Instr.rdw u2 1 .v16 0).wellFormed wide = true := by decide
theorem test_wellFormed_refuses_same_destination : (Instr.div u1 3 3 1 2).wellFormed .standard = false := by decide
theorem test_wellFormed_refuses_same_read : (Instr.rcprd 5 5 2).wellFormed .standard = false := by decide

/-! ## Decoding: each command's word written out from the spec -/

/-- Every word decodes to the command beside it. -/
def decodesAll (c : Config) (rows : List (Cmd × Instr)) : Bool :=
  rows.all fun p => match decode c p.1 with
    | .ok i => i == p.2
    | .error _ => false

/-- 40_word_model.md R100 to R107. -/
theorem test_decode_access : decodesAll .standard
    [(0x00008301#32, .init (.sys false 3) 2), (0x0020C0C2#32, .wrw sx 3 .v8 2), (0x0010C0C3#32, .wrapp true 3 true),
     (0x00104044#32, .rdw s1 1 .v8 1), (0x06404005#32, .rdbit u1 1 100), (0x00008006#32, .rdlen 2),
     (0x00004047#32, .rdapp s1 1), (0x00004008#32, .rde 1)] = true := by decide

/-- 40_word_model.md R108 to R112. -/
theorem test_decode_counts : decodesAll .standard
    [(0x40408009#32, .cnt u1 2 1 true), (0x004080CA#32, .asc sx 2 1 false), (0x4040804B#32, .dsc s1 2 1 true),
     (0x0040810C#32, .bswap false 1 2 1), (0x1044804D#32, .cvt s1 s2 2 1), (0x2004804D#32, .cvt s1 ux 2 1)] = true := by
  decide

/-- 41_overflow_contract.md R130 to R135. -/
theorem test_decode_contract : decodesAll .standard
    [(0x00408010#32, .veto 2 1 false), (0x40408010#32, .veto 2 1 true), (0x80C10010#32, .unwrap 4 3),
     (0x10400051#32, .feq s1 1 4), (0x00400012#32, .gnz u1 1), (0x40800052#32, .gnat s1 2),
     (0x80C00092#32, .gfin ux 3)] = true := by decide

/-- 42_adder.md R140, R141; 43_complement.md R150 to R152. -/
theorem test_decode_adder_complement : decodesAll .standard
    [(0x0840C114#32, .add u2 3 1 2), (0x0840C0D5#32, .sub sx 3 1 2), (0x0040C0D8#32, .bnot sx 3 1),
     (0x4040C159#32, .cpl s2 3 1 true), (0x0040C059#32, .cpl s1 3 1 false), (0x0040C15A#32, .mag s2 3 1)] = true := by
  decide

/-- 44_shift.md R160 to R163; 45_multiply.md R170 to R172. -/
theorem test_decode_shift_multiply : decodesAll .standard
    [(0x0840C0DC#32, .shl sx 3 1 2), (0x0840C15D#32, .shr s2 3 1 2), (0x0840C11E#32, .shlm false 1 3 1 2),
     (0x0840C05F#32, .shrm true 0 3 1 2), (0x0840C160#32, .mul s2 3 1 2), (0x0840C121#32, .mulf false 1 3 1 2),
     (0x0040C0A2#32, .sqr ux 3 1)] = true := by decide

/-- 46_divide.md R180, R185; 47_reciprocal.md R200 to R205; 40_word_model.md R113, R114. -/
theorem test_decode_divide_status : decodesAll .standard
    [(0x0850C0A4#32, .div ux 3 4 1 2), (0x0850C165#32, .div21 true 1 3 4 1 2), (0x00480028#32, .rcpset 0 2 1),
     (0x08E60029#32, .rcpdiv 0 8 9 3 2), (0x004C002A#32, .rcp21set 0 3 1), (0x0CE6002B#32, .rcp21div 0 8 9 3 3),
     (0x0819402C#32, .rcprd 5 6 2), (0x00000030#32, .rdstat), (0x00100031#32, .rdcfg 1)] = true := by decide

/-- 40_word_model.md R103: the 16-bit view needs `W >= 16`, the 64-bit view is illegal at `W = 32`. -/
theorem test_decode_views : decode word32 0x00144104#32 = .ok (.rdw u2 1 .v16 1) ∧
    decode word32 0x000C4104#32 = .error .viewOverWord := by decide

/-- Each condition of 30_encoding.md R80 by its name, in its order. -/
theorem test_decode_rejects :
    decode .standard 0x00000000#32 = .error .opcode ∧ decode .standard 0xFFFFFFFF#32 = .error .opcode ∧
    decode .standard 0x0844C014#32 = .error .unusedField ∧ decode .standard 0x00000070#32 = .error .untypedDescriptor ∧
    decode .standard 0x0840C194#32 = .error .arbitrarySize ∧ decode .standard 0x0040808C#32 = .error .typeKind ∧
    decode .standard 0x0840D014#32 = .error .sizeOverCapacity ∧ decode .standard 0x00044104#32 = .error .viewOverWord ∧
    decode .standard 0xC0408010#32 = .error .modifier ∧ decode .standard 0xC0400012#32 = .error .modifier ∧
    decode .standard 0x080CC024#32 = .error .sameDestination := by decide

/-! ## One step of each command -/

theorem test_init_u4 : v3 (.init (.sys false 3) 3) (with12 (fin []) (fin [])) = some (fin [0, 0, 0, 0]) := by decide

/-- R101: a write above the stored Words grows the body. -/
theorem test_wrw_grows :
    v3 (.wrw sx 3 .v8 2) { loaded .standard [] with din := 1 } = some (fin [0, 0, 1]) := by decide

/-- R101: a write of the extension Word into the top Word shrinks the body. -/
theorem test_wrw_shrinks :
    v3 (.wrw sx 3 .v8 2) (loaded .standard [(3, fin [0, 0, 1])]) = some (fin []) := by decide

/-- R102: an all-ones top Word is dropped under appendix 1. -/
theorem test_wrapp : v3 (.wrapp true 3 true) (loaded .standard [(3, flagged (fin [0, 255]))]) =
    some (flagged (inf [0])) := by decide

/-- R103: at `W = 32` the byte and half views, and the sign extension past the stored Words. -/
theorem test_rdw_views :
    response (.rdw u2 1 .v8 4) (loaded word32 [(1, fin [0x11223344, 0x55667788])]) = some (0x88, false) ∧
    response (.rdw u2 1 .v16 1) (loaded word32 [(1, fin [0x11223344, 0x55667788])]) = some (0x1122, false) := by decide

theorem test_rdw_extension : response (.rdw s1 1 .v8 1) (with12 (fin [0x80]) (fin [])) = some (0xFF, false) ∧
    response (.rdw u1 1 .v8 1) (with12 (fin [0x80]) (fin [])) = some (0, false) := by decide

theorem test_rdbit : response (.rdbit s1 1 100) (with12 (fin [0x80]) (fin [])) = some (1, false) ∧
    response (.rdbit u1 1 100) (with12 (fin [0x80]) (fin [])) = some (0, false) := by decide

theorem test_rdlen : response (.rdlen 1) (with12 (fin [0, 0, 0, 0]) (fin [])) = some (4, false) := by decide

theorem test_rdapp : response (.rdapp s1 1) (with12 (fin [0x80]) (fin [])) = some (1, false) ∧
    response (.rdapp u1 1) (with12 (inf [0x80]) (fin [])) = some (0, false) := by decide

theorem test_rde : response (.rde 1) (with12 (flagged (fin [])) (fin [])) = some (1, false) := by decide

/-- R108: `u1 0x58`, and the infinite count of `sx -256`. -/
theorem test_cnt : v3 (.cnt u1 3 1 true) (with12 (fin [0x58]) (fin [])) = some (fin [3]) ∧
    v3 (.cnt sx 3 1 true) (with12 (inf [0]) (fin [])) = some (inf []) := by decide

theorem test_cnt_finite : v3 (.cnt sx 3 1 false) (with12 (inf [0]) (fin [])) = some (fin [8]) := by decide

/-- R109. -/
theorem test_asc : v3 (.asc u1 3 1 false) (with12 (fin [0x58]) (fin [])) = some (fin [3]) ∧
    v3 (.asc sx 3 1 false) (with12 (fin []) (fin [])) = some (inf []) := by decide

/-- R109: the first differing bit is the appendix. -/
theorem test_asc_appendix : v3 (.asc sx 3 1 false) (with12 (inf [0]) (fin [])) = some (fin [8]) := by decide

/-- R110. -/
theorem test_dsc : v3 (.dsc s1 3 1 true) (with12 (fin [0xF0]) (fin [])) = some (fin [4]) ∧
    v3 (.dsc sx 3 1 true) (with12 (inf []) (fin [])) = some (inf []) := by decide

theorem test_dsc_zero : v3 (.dsc sx 3 1 false) (with12 (inf []) (fin [])) = some (fin []) := by decide

/-- R111, at `W = 32`. -/
theorem test_bswap : v3 (.bswap false 1 3 1) (loaded word32 [(1, fin [0x0000BEEF, 0x0000AB00])]) =
    some (fin [0x00AB0000, 0xEFBE0000]) := by decide

/-- R112: `s2 -129` to `s1`, and `ux inf(3)` to `sx`. -/
theorem test_cvt : v3 (.cvt s2 s1 3 1) (with12 (fin [0x7F, 0xFF]) (fin [])) = some (flagged (fin [0x7F])) ∧
    v3 (.cvt ux sx 3 1) (with12 (inf [0xFD]) (fin [])) = some (flagged (inf [0xFD])) := by decide

theorem test_cvt_widen : v3 (.cvt s1 s2 3 1) (with12 (fin [0xFF]) (fin [])) = some (fin [0xFF, 0xFF]) := by decide

theorem test_veto : v3 (.veto 3 1 true) (with12 (inf [0x80]) (fin [])) = some (flagged (inf [0x80])) ∧
    v3 (.veto 3 1 false) (with12 (flagged (fin [0x80])) (fin [])) = some (flagged (fin [0x80])) := by decide

theorem test_unwrap : v3 (.unwrap 3 1) (with12 (flagged (fin [0x80])) (fin [])) = some (fin [0x80]) := by decide

/-- R132: a non-normalised record compares equal under an arbitrary type; the flags must match. -/
theorem test_feq : response (.feq sx 1 2) (with12 (fin [5, 0]) (fin [5])) = some (1, false) ∧
    response (.feq s1 1 2) (with12 (fin [0x80]) (flagged (fin [0x80]))) = some (0, false) := by decide

theorem test_gnz : response (.gnz u1 1) (with12 (fin [0]) (fin [])) = some (0, true) ∧
    response (.gnz s1 1) (with12 (fin [0xFD]) (fin [])) = some (0, false) := by decide

theorem test_gnat : response (.gnat s1 1) (with12 (fin [0xFD]) (fin [])) = some (0, true) ∧
    response (.gnat u1 1) (with12 (fin [0xFD]) (fin [])) = some (0, false) := by decide

theorem test_gfin : response (.gfin ux 1) (with12 (inf [0xFD]) (fin [])) = some (0, true) ∧
    response (.gfin sx 1) (with12 (inf [0xFD]) (fin [])) = some (0, false) := by decide

/-- R140: `-128 + -1` under `s1`, and `-256 + -1` under `sx`. -/
theorem test_add : v3 (.add s1 3 1 2) (with12 (fin [0x80]) (fin [0xFF])) = some (flagged (fin [0x7F])) ∧
    v3 (.add sx 3 1 2) (with12 (inf [0]) (inf [])) = some (inf [0xFF, 0xFE]) := by decide

/-- R141: a borrow under `ux` writes the pattern of the negative difference, flagged. -/
theorem test_sub : v3 (.sub ux 3 1 2) (with12 (fin [5]) (fin [7])) = some (flagged (inf [0xFE])) ∧
    v3 (.sub sx 3 1 2) (with12 (fin [5]) (fin [7])) = some (inf [0xFE]) := by decide

theorem test_not : v3 (.bnot ux 3 1) (with12 (inf [0xFA]) (fin [])) = some (fin [5]) ∧
    v3 (.bnot u2 3 1) (with12 (fin [0xFF, 0]) (fin [])) = some (fin [0, 0xFF]) := by decide

/-- R151: the least value of `s2`, and 90_conflicts.md C1: the complement of `u1 0xFF` is 1. -/
theorem test_cpl : v3 (.cpl s2 3 1 true) (with12 (fin [0, 0x80]) (fin [])) = some (flagged (fin [0, 0x80])) ∧
    v3 (.cpl u1 3 1 true) (with12 (fin [0xFF]) (fin [])) = some (fin [1]) := by decide

theorem test_mag : v3 (.mag s1 3 1) (with12 (fin [0x80]) (fin [])) = some (flagged (fin [0x80])) ∧
    v3 (.mag ux 3 1) (with12 (inf [0xFB]) (fin [])) = some (inf [0xFB]) := by decide

/-- R160: a dropped bit is no error; the least distance that does not fit is a fault. -/
theorem test_shl : v3 (.shl u1 3 1 2) (with12 (fin [0x96]) (fin [1])) = some (fin [0x2C]) ∧
    (nextOf (exec (.shl ux 3 1 2) (with12 (fin [1]) (fin [128])))).map (·.statusWord) = some 0x0F := by decide

theorem test_shl_overshift : v3 (.shl u1 3 1 2) (with12 (fin [0x96]) (inf [])) = some (fin [0]) := by decide

theorem test_shr : v3 (.shr s1 3 1 2) (with12 (fin [0x96]) (fin [3])) = some (fin [0xF2]) ∧
    v3 (.shr ux 3 1 2) (with12 (inf [0xFD]) (fin [1])) = some (inf [0xFE]) := by decide

theorem test_shr_overshift : v3 (.shr s1 3 1 2) (with12 (fin [0x96]) (fin [0, 1])) = some (fin [0xFF]) := by decide

theorem test_shlm : v3 (.shlm false 0 3 1 2) (with12 (fin [0x96]) (fin [3, 0, 1])) = some (fin [0xB0]) := by decide

theorem test_shrm : v3 (.shrm true 0 3 1 2) (with12 (fin [0x96]) (fin [11])) = some (fin [0xF2]) := by decide

theorem test_mul : v3 (.mul s1 3 1 2) (with12 (fin [0x80]) (fin [0xFF])) = some (flagged (fin [0x80])) ∧
    v3 (.mul sx 3 1 2) (with12 (inf [0]) (fin [0, 1])) = some (inf [0, 0]) := by decide

theorem test_mulf : v3 (.mulf true 0 3 1 2) (with12 (fin [0x80]) (fin [0x7F])) = some (fin [0x80, 0xC0]) ∧
    v3 (.mulf false 0 3 1 2) (with12 (fin [0xFD]) (fin [0xFD])) = some (fin [9, 0xFA]) := by decide

theorem test_sqr : v3 (.sqr s1 3 1) (with12 (fin [0xF4]) (fin [])) = some (flagged (fin [0x90])) ∧
    v3 (.sqr ux 3 1) (with12 (fin [0xFF, 0xFF]) (fin [])) = some (fin [1, 0, 0xFE, 0xFF]) := by decide

/-- R181: `-7 / 3`, and `min / -1`. -/
theorem test_div : v34 (.div s1 3 4 1 2) (with12 (fin [0xF9]) (fin [3])) = some (fin [0xFE], fin [0xFF]) ∧
    v34 (.div s1 3 4 1 2) (with12 (fin [0x80]) (fin [0xFF])) = some (flagged (fin [0x80]), flagged (fin [0])) := by decide

/-- R183, R184: one infinite operand, with `INFDIV_ERR = 0`. -/
theorem test_div_infinite : v34 (.div ux 3 4 1 2) (with12 (fin [7]) (inf [0xFD])) = some (fin [], fin [7]) ∧
    v34 (.div ux 3 4 1 2) (with12 (inf [0xF9]) (fin [3])) = some (inf [0xFE], inf []) := by decide

theorem test_div21 : v34 (.div21 true 0 3 4 1 2) (with12 (fin [0xFF, 0xFE]) (fin [2])) =
      some (fin [0x80], fin [0xFF]) ∧
    v34 (.div21 false 0 3 4 1 2) (with12 (fin [0x34, 0x12]) (fin [0x12])) =
      some (flagged (fin [2]), flagged (fin [0x10])) := by decide

/-- The Divider of 7 under `u1` (R200) and the Divider21 of 7 (R203). -/
def divider7 : Slot :=
  { valid := true, k21 := false, size := 1, divisor := 7, mul := 0x92, add := true, shift := 10, err := false }

def divider21of7 : Slot :=
  { valid := true, k21 := true, size := 1, divisor := 7, mul := 0x9249, add := true, shift := 18, err := false }

/-- Slots 2 and 3 hold them; `v1` and `v2` are loaded. -/
def withSlots (a b : Reg) : State := ((with12 a b).setSlot 2 divider7).setSlot 3 divider21of7

/-- The table of R201. -/
theorem test_rcpConst : [1, 2, 3, 5, 7, 10, 16, 100, 127, 128, 255].map (rcpConst · 8) =
      [(0xFF, true, 8), (0xFF, true, 9), (0xAB, false, 9), (0xCD, false, 10), (0x92, true, 10), (0xCD, false, 11),
       (0xFF, true, 12), (0xA4, false, 14), (0x81, true, 14), (0xFF, true, 15), (0x81, false, 15)] ∧
    rcpConst 10 64 = (0xCCCCCCCCCCCCCCCD, false, 67) := by decide

theorem test_rcpset : (nextOf (exec (.rcpset 0 2 1) (with12 (fin [7]) (fin [])))).map (·.slot 2) = some divider7 ∧
    response (.rcpset 0 0 1) (with12 (fin [0]) (fin [])) = some (0, true) := by decide

theorem test_rcp21set :
    (nextOf (exec (.rcp21set 0 3 1) (with12 (fin [7]) (fin [])))).map (·.slot 3) = some divider21of7 := by decide

theorem test_rcpdiv : v34 (.rcpdiv 0 3 4 1 2) (withSlots (fin [100]) (fin [])) = some (fin [14], fin [2]) ∧
    v34 (.rcpdiv 0 3 4 1 2) (withSlots (flagged (fin [255])) (fin [])) =
      some (flagged (fin [0x24]), flagged (fin [3])) := by decide

theorem test_rcp21div : v34 (.rcp21div 0 3 4 1 3) (withSlots (fin [0x34, 0x12]) (fin [])) =
      some (flagged (fin [0x99]), flagged (fin [5])) ∧
    v34 (.rcp21div 0 3 4 1 3) (withSlots (fin [0xFF, 6]) (fin [])) = some (fin [0xFF], fin [6]) := by decide

theorem test_rcprd : v34 (.rcprd 3 4 3) (withSlots (fin []) (fin [])) = some (fin [0x49, 0x92], fin [0x12]) ∧
    response (.rcprd 3 4 3) (withSlots (fin []) (fin [])) = some (1, false) := by decide

theorem test_rdstat : response .rdstat ((with12 (fin []) (fin [])).raise .divzero) = some (0x0B, false) := by decide

theorem test_rdcfg : response (.rdcfg 1) ((with12 (fin []) (fin [])).raise .divzero) = some (16, false) ∧
    response (.rdcfg 0) (loaded word32 []) = some (2, false) := by decide

/-! ## Faults (60_exceptions.md R222 to R229) -/

/-- R223: the lowest code wins. -/
theorem test_fault_priority :
    statusAfter 0x0810C024#32 (with12 (fin []) (fin [0])) = some 0x05 ∧
    statusAfter 0x04260029#32 (with12 (fin [5]) (fin [])) = some 0x05 ∧
    statusAfter 0x04660029#32 (with12 (fin [5]) (fin [])) = some 0x07 ∧
    statusAfter 0x0840C01E#32 (with12 (fin [5]) (inf [])) = some 0x09 ∧
    statusAfter 0x0850C0A4#32 (with12 (inf [0xF9]) (inf [0xFD])) = some 0x09 ∧
    statusAfter 0x0850C0A4#32 (with12 (inf [0xF9]) (fin [])) = some 0x0B ∧
    statusAfter 0x080CC024#32 (with12 (fin []) (fin [0])) = some 0x03 := by decide

/-- R228, R229: the index and the capacity fault of `WRW`. -/
theorem test_fault_wrw :
    statusAfter 0x00408302#32 (with12 (fin []) (fin [0, 0, 0, 0])) = some 0x0D ∧
    statusAfter 0x0100C0C2#32 (with12 (fin []) (fin [])) = some 0x0F ∧
    statusAfter 0x00F0C0C2#32 (with12 (fin []) (fin [])) = some 0x00 := by decide

/-- R221: in the fault state `INIT` changes nothing and the malformed status read answers 0. -/
theorem test_fault_state :
    nextOf (issue 0x00014001#32 ((with12 (fin [200]) (fin [])).raise .divzero)) =
      some ((with12 (fin [200]) (fin [])).raise .divzero) ∧
    (nextOf (issue 0x00000070#32 ((with12 (fin [200]) (fin [])).raise .divzero))).map (·.statusWord) =
      some 0x0B := by decide

/-! ## Steps, pseudo-instructions and the interface -/

/-- `LI.sx v3, -300` (30_encoding.md R86), issued word by word from reset, leaves `-300` in `v3`. -/
theorem test_load_immediate :
    ((loadImmediate .standard sx 3 (-300)).map fun cmds => cmds.map (·.1)) =
      .ok [.init sx 3, .wrapp true 3 true, .wrw sx 3 .v8 0, .wrw sx 3 .v8 1] ∧
    ((loadImmediate .standard sx 3 (-300)).map fun cmds => cmds.map (·.2)) = .ok [0, 0, 0xD4, 0xFE] := by decide

theorem test_pseudo : mov 2 1 = .veto 2 1 false ∧ neg s1 2 1 = .cpl s1 2 1 true := by decide

theorem test_asm : asm 1 (.wrw sx 3 .v8 2) = "WRW.sx.v8 v3, 2, 1" ∧ asm 0 (.cvt s1 ux 2 1) = "CVT.s1.ux v2, v1" := by
  decide

theorem test_withFetchWord :
    (nextOf (step (State.reset.withFetchWord 32 0x00008301))).map (·.reg 2) = some (fin [0, 0, 0, 0]) := by decide

theorem test_decodeTableWord : decodeTableWord 32 0x00008301 = some (.init (.sys false 3) 2) := by decide

theorem test_idle : nextOf (step State.reset) = some State.reset := by decide

/-! ## Witnesses: for each statement with hypotheses, operands and a state that meet all of them (an obligation without
hypotheses has none) -/

theorem witness_DecodeInvertsEncode : (Instr.cvt (.sys true 15) ux 15 0).wellFormed .standard = true ∧
    (Instr.mulf false 7 15 0 15).wellFormed .standard = true ∧
    (Instr.wrw (.sys true 3) 15 .v16 4095).wellFormed wide = true := by decide

theorem witness_EncodeInvertsDecode : decode .standard 0x0840CF14#32 = .ok (.add (.sys false 15) 3 1 2) ∧
    decode wide 0x0840C161#32 = .ok (.mulf true 1 3 1 2) := by decide

/-- A word that decodes to no command. -/
theorem of_not_decodes {c : Config} {w : Cmd} (h : (decode c w).toOption = none) (i : Instr) : decode c w ≠ .ok i := by
  intro h'
  simp [h', Except.toOption] at h

/-- Clause 1: two configurations that differ in `INFDIV_ERR`. Clause 2: an opcode that is not assigned, and a size one
above the capacity. -/
theorem witness_IllegalWordsRaiseIllegal :
    { wide with infdivErr := false }.W = wide.W ∧ { wide with infdivErr := false }.CAP = wide.CAP ∧
    (State.reset.withFetchWord 32 0xFFFFFFFF).fault = false ∧
    (State.reset.withFetchWord 32 0xFFFFFFFF).input = .command 0xFFFFFFFF#32 0 :: [] ∧
    (∀ i, decode .standard 0xFFFFFFFF#32 ≠ .ok i) ∧ (∀ i, decode .standard 0x0840D014#32 ≠ .ok i) :=
  ⟨by decide, by decide, by decide, by decide, of_not_decodes (by decide), of_not_decodes (by decide)⟩

/-- Clause 2 of `ResetGivesTheResetValues`: the host applies reset in the fault state. -/
theorem witness_ResetGivesTheResetValues :
    { (with12 (fin [1]) (fin [2])).raise .slot with input := [.reset] }.input = .reset :: [] := by decide

/-- Clause 1: the word of `INIT.u4 v2`. Clause 2: nothing presented. -/
theorem witness_StepRunsTheDecodedCommand : State.reset.input = [] ∧
    (State.reset.withFetchWord 32 0x00008301).input = .command 0x00008301#32 0 :: [] ∧
    decode (State.reset.withFetchWord 32 0x00008301).cfg 0x00008301#32 = .ok (.init (.sys false 3) 2) := by decide

/-- A step that faults, and one that constructs a slot. -/
theorem witness_StepKeepsWellFormed :
    ((with12 (fin [0xFF]) (fin [])).withFetchWord 32 0x00480028).wf ∧
    (nextOf (step ((with12 (fin [0xFF]) (fin [])).withFetchWord 32 0x00480028))).map (·.fault) = some false ∧
    ((with12 (fin []) (fin [])).withFetchWord 32 0x00480028).wf ∧
    (nextOf (step ((with12 (fin []) (fin [])).withFetchWord 32 0x00480028))).map (·.fault) = some true := by decide

/-- A command with two destinations, one with a slot, and one that faults. -/
theorem witness_CommandFrame :
    (nextOf (exec (.div u1 3 4 1 2) (with12 (fin [100]) (fin [7])))).isSome = true ∧
    (nextOf (exec (.rcpset 0 2 1) (with12 (fin [100]) (fin [7])))).isSome = true ∧
    (nextOf (exec (.add u2 3 1 2) (with12 (fin [100]) (fin [7])))).map (·.fault) = some true := by decide

/-- The block is ready, and the word faults. -/
def faultsWith (w : Cmd) (s : State) (code : BitVec 3) : Prop :=
  s.ready ∧ (nextOf (issue w s)).map (fun t => (t.fault, t.fcause)) = some (true, code)

/-- Clauses 1 and 2: a fault of each cause, in the order of the codes. Clause 3: the status read, configuration reads 0 and
4095, and two other words that have the opcode of one of them. -/
theorem witness_FaultEntryAndFaultState :
    (faultsWith 0x080CC024#32 (with12 (fin []) (fin [0])) 1 ∧ faultsWith 0x0810C024#32 (with12 (fin []) (fin [0])) 2 ∧
      faultsWith 0x04660029#32 (with12 (fin [5]) (fin [])) 3 ∧ faultsWith 0x0840C01E#32 (with12 (fin [5]) (inf [])) 4 ∧
      faultsWith 0x0850C024#32 (with12 (fin [200]) (fin [0])) 5 ∧
      faultsWith 0x00408302#32 (with12 (fin []) (fin [0, 0, 0, 0])) 6 ∧
      faultsWith 0x0100C0C2#32 (with12 (fin []) (fin [])) 7) ∧
    ((with12 (fin []) (fin [])).raise .divzero).fault = true ∧
    (slice 0x00000031#32 5 0 = 0x31 ∧ slice 0x00000031#32 19 6 = 0) ∧
    (slice 0xFFF00031#32 5 0 = 0x31 ∧ slice 0xFFF00031#32 19 6 = 0) ∧
    (0x00000070#32 ≠ 0x00000030#32 ∧ ¬(slice 0x00000070#32 5 0 = 0x31 ∧ slice 0x00000070#32 19 6 = 0)) ∧
    (0x00000071#32 ≠ 0x00000030#32 ∧ ¬(slice 0x00000071#32 5 0 = 0x31 ∧ slice 0x00000071#32 19 6 = 0)) := by
  unfold faultsWith
  exact ⟨⟨by decide, by decide, by decide, by decide, by decide, by decide, by decide⟩, by decide⟩

/-- A command and the reset in the fault state. -/
theorem witness_OnlyResetLeavesTheFaultState :
    (((with12 (fin []) (fin [])).raise .slot).withFetchWord 32 0x00008301).fault = true ∧
    nextOf (step (((with12 (fin []) (fin [])).raise .slot).withFetchWord 32 0x00008301)) =
      some ((with12 (fin []) (fin [])).raise .slot) ∧
    nextOf (step { (with12 (fin [1]) (fin [2])).raise .slot with input := [.reset] }) = some State.reset := by decide

/-- Clause 1: a flagged second source. Clause 2: a flagged slot. -/
theorem witness_ErrorFlagsArePassedOn :
    ((nextOf (exec (.div u1 3 4 1 2) (with12 (fin [100]) (flagged (fin [7]))))).map (·.fault) = some false ∧
      (Instr.div u1 3 4 1 2).lowersFlag = false ∧ (4 : RegNum) ∈ (Instr.div u1 3 4 1 2).dests ∧
      (2 : RegNum) ∈ (Instr.div u1 3 4 1 2).sources ∧ ((with12 (fin [100]) (flagged (fin [7]))).reg 2).err = true) ∧
    ((nextOf (exec (.rcpdiv 0 3 4 1 0) ((with12 (fin [100]) (fin [])).setSlot 0 { divider7 with err := true }))).map
        (·.fault) = some false ∧
      (Instr.rcpdiv 0 3 4 1 0).sourceSlot = some 0 ∧
      (((with12 (fin [100]) (fin [])).setSlot 0 { divider7 with err := true }).slot 0).err = true) := by decide

theorem witness_ResponseIsOnlyAnOutput :
    (nextOf (exec (.gnz u1 1) (with12 (fin [0]) (fin [])))).map (·.nil) = some true ∧
    (nextOf (exec (.rcpset 0 0 1) (with12 (fin [0]) (fin [])))).map (·.nil) = some true := by decide

/-- Clause 1: a command that is not `WRW`. Clause 2: two Words of 16 bits that agree in the low byte. -/
theorem witness_OnlyWrwReadsDataIn :
    (∀ t r vw idx, Instr.init u1 3 ≠ .wrw t r vw idx) ∧
    0xAB12 % 2 ^ View.v8.bits = { loaded wide [] with din := 0xFF12 }.din % 2 ^ View.v8.bits :=
  ⟨nofun, by decide⟩

/-- Two different states that differ in the fields of an invalid slot. -/
theorem witness_InvalidSlotsAreUnobservable :
    sameVisible (with12 (fin [100]) (fin [7]))
      ((with12 (fin [100]) (fin [7])).setSlot 1 { divider7 with valid := false }) ∧
    with12 (fin [100]) (fin [7]) ≠ (with12 (fin [100]) (fin [7])).setSlot 1 { divider7 with valid := false } ∧
    (nextOf (exec (.add u1 3 1 2) (with12 (fin [100]) (fin [7])))).isSome = true :=
  ⟨by unfold sameVisible; decide, by decide, by decide⟩

theorem witness_EffectiveBitsAreTheIntegers :
    ((fin [0x80]).wf .standard ∧ readable s1 (fin [0x80])) ∧ (inf [0, 0]).wf .standard ∧ readable ux (inf [0, 0]) := by
  decide

/-- Clause 1: an illegal word. Clause 2: a length check and a zero divisor fail together, and `OPERAND` has the lower
code. Clause 3: nothing is violated. -/
theorem witness_FirstFailingCheckIsReported :
    (with12 (fin [1, 2]) (fin [0])).ready ∧ (∀ i, decode .standard 0x080CC024#32 ≠ .ok i) ∧
    decode .standard 0x0810C024#32 = .ok (.div u1 3 4 0 2) ∧
    violates (with12 (fin [1, 2]) (fin [0])) (.div u1 3 4 0 2) .operand ∧
    violates (with12 (fin [1, 2]) (fin [0])) (.div u1 3 4 0 2) .divzero ∧
    (∀ k' : Cause, k'.code < Cause.operand.code →
      ¬violates (with12 (fin [1, 2]) (fin [0])) (.div u1 3 4 0 2) k') ∧
    (with12 (fin [100]) (fin [7])).ready ∧ decode .standard 0x0850C024#32 = .ok (.div u1 3 4 1 2) ∧
    (∀ k : Cause, ¬violates (with12 (fin [100]) (fin [7])) (.div u1 3 4 1 2) k) := by
  refine ⟨by decide, of_not_decodes (by decide), by decide, by unfold violates; decide, by unfold violates; decide, ?_,
    by decide, by decide, ?_⟩ <;> intro k <;> cases k <;> unfold violates <;> decide

theorem witness_InitWritesZero : (with12 (fin [100]) (fin [7])).fault = false := by decide

/-- The last element of a systems value, and of an arbitrary one. -/
theorem witness_WrwReplacesOneElement :
    (with12 (fin [100]) (fin [7])).ready ∧ View.v8.bits ≤ (with12 (fin [100]) (fin [7])).cfg.W ∧
    readable u1 ((with12 (fin [100]) (fin [7])).reg 1) ∧
    elementInRange (with12 (fin [100]) (fin [7])).cfg u1 View.v8.bits (0 : BitVec 12).toNat ∧
    readable sx ((with12 (fin [100]) (fin [7])).reg 3) ∧
    elementInRange (with12 (fin [100]) (fin [7])).cfg sx View.v8.bits (15 : BitVec 12).toNat := by decide

theorem witness_WrappSetsTheAppendix : (with12 (fin [0xFF]) (fin [])).fault = false := by decide

theorem witness_RdwReadsOneElement :
    (with12 (fin [0x80]) (inf [])).ready ∧ readable s1 ((with12 (fin [0x80]) (inf [])).reg 1) ∧
    readable ux ((with12 (fin [0x80]) (inf [])).reg 2) := by decide

theorem witness_BitAndFieldReads :
    (with12 (fin [0x80]) (inf [])).ready ∧ readable s1 ((with12 (fin [0x80]) (inf [])).reg 1) ∧
    readable ux ((with12 (fin [0x80]) (inf [])).reg 2) := by decide

/-- The last clause of `StatusAndConfigurationReads`: its least and its greatest index. -/
theorem witness_StatusAndConfigurationReads : 5 ≤ (5 : BitVec 12).toNat ∧ 5 ≤ (4095 : BitVec 12).toNat := by decide

/-- `CNT`, `ASC` and `DSC`: a systems value, and arbitrary ones with either appendix. -/
theorem witness_CntCountsBits :
    (with12 (fin [0x58]) (inf [0])).ready ∧ readable u1 ((with12 (fin [0x58]) (inf [0])).reg 1) ∧
    readable sx ((with12 (fin [0x58]) (inf [0])).reg 2) ∧ readable ux ((with12 (fin [0x58]) (inf [0])).reg 1) := by
  decide

theorem witness_AscCountsTheLowRun :
    (with12 (fin [0xFF]) (inf [0])).ready ∧ readable u1 ((with12 (fin [0xFF]) (inf [0])).reg 1) ∧
    readable sx ((with12 (fin [0xFF]) (inf [0])).reg 2) ∧ readable sx ((with12 (fin [0xFF]) (inf [0])).reg 3) := by
  decide

theorem witness_DscCountsTheHighRun :
    (with12 (fin [0xF0]) (inf [])).ready ∧ readable s1 ((with12 (fin [0xF0]) (inf [])).reg 1) ∧
    readable sx ((with12 (fin [0xF0]) (inf [])).reg 2) ∧ readable ux ((with12 (fin [0xF0]) (inf [])).reg 3) := by decide

theorem witness_BswapReversesTheBytes :
    (with12 (fin [1, 2]) (fin [])).ready ∧ ((with12 (fin [1, 2]) (fin [])).reg 1).len = words 1 := by decide

/-- A finite and an infinite source. -/
theorem witness_CvtConvertsExactly :
    (with12 (fin [0x7F, 0xFF]) (inf [0xFD])).ready ∧ readable s2 ((with12 (fin [0x7F, 0xFF]) (inf [0xFD])).reg 1) ∧
    readable ux ((with12 (fin [0x7F, 0xFF]) (inf [0xFD])).reg 2) ∧
    isInfinite ux ((with12 (fin [0x7F, 0xFF]) (inf [0xFD])).reg 2) = true := by decide

theorem witness_VetoAndUnwrapCopy : (with12 (fin [0x7F, 0xFF]) (inf [0xFD])).fault = false := by decide

theorem witness_FeqComparesValueAndFlag :
    (with12 (fin [5]) (fin [5])).ready ∧ readable u1 ((with12 (fin [5]) (fin [5])).reg 1) ∧
    readable u1 ((with12 (fin [5]) (fin [5])).reg 2) ∧ readable ux ((with12 (fin [5]) (fin [5])).reg 1) := by decide

theorem witness_GuardsAnswerNil :
    (with12 (fin [0]) (inf [])).ready ∧ readable s1 ((with12 (fin [0]) (inf [])).reg 1) ∧
    readable ux ((with12 (fin [0]) (inf [])).reg 2) := by decide

/-- Clause 1: the greatest `ux` sum that fits. Clause 2: the least `sx` difference that fits, and a systems operand pair
that overflows. -/
theorem witness_AddAndSubWriteTheTrueResult :
    ((with12 full one).ready ∧ isInfinite ux ((with12 full one).reg 1) = false ∧
      isInfinite ux ((with12 full one).reg 2) = false ∧ readable ux ((with12 full one).reg 1) ∧
      readable ux ((with12 full one).reg 2) ∧
      (2 ^ 128 - 2 : Int) = valueOf .standard ux ((with12 full one).reg 1) ∧
      (1 : Int) = valueOf .standard ux ((with12 full one).reg 2) ∧
      inCapacity .standard ux (2 ^ 128 - 2 + 1)) ∧
    ((with12 least one).ready ∧ (-(2 ^ 128) + 1 : Int) = valueOf .standard sx ((with12 least one).reg 1) ∧
      (1 : Int) = valueOf .standard sx ((with12 least one).reg 2) ∧
      inCapacity .standard sx (-(2 ^ 128) + 1 - 1)) ∧
    ((with12 (fin [0x80]) (fin [0xFF])).ready ∧ readable s1 ((with12 (fin [0x80]) (fin [0xFF])).reg 1) ∧
      (-128 : Int) = valueOf .standard s1 ((with12 (fin [0x80]) (fin [0xFF])).reg 1) ∧
      (-1 : Int) = valueOf .standard s1 ((with12 (fin [0x80]) (fin [0xFF])).reg 2) ∧
      inCapacity .standard s1 (-128 + -1)) := ⟨by decide, by decide, by decide⟩

theorem witness_RippleAdderIsAddAndSub :
    (with12 full one).ready ∧ readable sx ((with12 full one).reg 1) ∧ readable sx ((with12 full one).reg 2) ∧
    isInfinite sx ((with12 full one).reg 1) = false ∧ isInfinite ux ((with12 full one).reg 2) = false ∧
    readable u1 ((with12 full one).reg 2) := by decide

theorem witness_NotInvertsThePattern :
    (with12 (fin [0x80]) (inf [0xFA])).ready ∧ readable s1 ((with12 (fin [0x80]) (inf [0xFA])).reg 1) ∧
    readable ux ((with12 (fin [0x80]) (inf [0xFA])).reg 2) := by decide

/-- The least value of a signed type, and the least arbitrary value whose complement fits. -/
theorem witness_CplComplements :
    (with12 (fin [0x80]) least).ready ∧ readable s1 ((with12 (fin [0x80]) least).reg 1) ∧
    inCapacity .standard s1 (-valueOf .standard s1 ((with12 (fin [0x80]) least).reg 1) - 1 + (if true then 1 else 0)) ∧
    readable sx ((with12 (fin [0x80]) least).reg 2) ∧
    inCapacity .standard sx
      (-valueOf .standard sx ((with12 (fin [0x80]) least).reg 2) - 1 + (if true then 1 else 0)) := by decide

theorem witness_MagWritesTheMagnitude :
    (with12 (fin [0x80]) least).ready ∧ readable s1 ((with12 (fin [0x80]) least).reg 1) ∧
    inCapacity .standard s1 (magnitudeOf s1 (valueOf .standard s1 ((with12 (fin [0x80]) least).reg 1))) ∧
    readable sx ((with12 (fin [0x80]) least).reg 2) ∧
    inCapacity .standard sx (magnitudeOf sx (valueOf .standard sx ((with12 (fin [0x80]) least).reg 2))) := by decide

/-- Clause 1: the least value of a signed type. Clause 2: 0 under `sx`. -/
theorem witness_MagnitudeRoundTrip :
    (with12 (fin [0x80]) (fin [])).ready ∧ (∃ n, s1 = .sys true n) ∧ readable s1 ((with12 (fin [0x80]) (fin [])).reg 1) ∧
    inCapacity .standard s1 (-valueOf .standard s1 ((with12 (fin [0x80]) (fin [])).reg 1)) ∧
    valueOf .standard s1 ((with12 (fin [0x80]) (fin [])).reg 1) < 0 ∧ sx = .arb true ∧
    readable sx ((with12 (fin [0x80]) (fin [])).reg 2) ∧
    inCapacity .standard sx (-valueOf .standard sx ((with12 (fin [0x80]) (fin [])).reg 2)) ∧
    0 ≤ valueOf .standard sx ((with12 (fin [0x80]) (fin [])).reg 2) := by decide

/-- The greatest distance at which 1 still fits, and an infinite distance. -/
theorem witness_ShlShiftsUp :
    (with12 one (fin [127])).ready ∧ readable ux ((with12 one (fin [127])).reg 1) ∧
    ((with12 one (fin [127])).reg 2).app = false ∧
    inCapacity .standard ux
      (valueOf .standard ux ((with12 one (fin [127])).reg 1) * 2 ^ distance .standard ((with12 one (fin [127])).reg 2)) ∧
    ((with12 one (inf [])).ready ∧ readable u1 ((with12 one (inf [])).reg 1) ∧
      ¬((with12 one (inf [])).reg 2).app = false) := by decide

theorem witness_ShrShiftsDown :
    (with12 (fin [0x96]) (inf [])).ready ∧ readable s1 ((with12 (fin [0x96]) (inf [])).reg 1) ∧
    readable sx ((with12 (fin [0x96]) (inf [])).reg 2) := by decide

theorem witness_MaskedShiftsReduceTheDistance :
    (with12 (fin [0x96]) (fin [8])).ready ∧ ((with12 (fin [0x96]) (fin [8])).reg 1).len = words 0 ∧
    ((with12 (fin [0x96]) (fin [8])).reg 2).app = false := by decide

/-- Clause 1: distance 0. Clause 2: the greatest distance that loses no bit, under `s1`, `u1` and `ux`. -/
theorem witness_ShiftLaws :
    ((with12 (fin [0xFC]) (fin [])).ready ∧ readable s1 ((with12 (fin [0xFC]) (fin [])).reg 1) ∧
      ((with12 (fin [0xFC]) (fin [])).reg 2).app = false ∧
      distance .standard ((with12 (fin [0xFC]) (fin [])).reg 2) = 0 ∧
      ((with12 (fin [0xFC]) (fin [])).reg 2).err = false) ∧
    ((with12 (fin [0xFC]) (fin [5])).ready ∧ readable s1 ((with12 (fin [0xFC]) (fin [5])).reg 1) ∧
      (3 : RegNum) ≠ 2 ∧ ((with12 (fin [0xFC]) (fin [5])).reg 2).app = false ∧
      ((with12 (fin [0xFC]) (fin [5])).reg 2).err = false ∧
      distance .standard ((with12 (fin [0xFC]) (fin [5])).reg 2) < bitLen .standard 0 ∧
      ∀ j < bitLen .standard 0, bitLen .standard 0 - 1 - distance .standard ((with12 (fin [0xFC]) (fin [5])).reg 2) ≤ j →
        patternBit .standard s1 ((with12 (fin [0xFC]) (fin [5])).reg 1) j =
          patternBit .standard s1 ((with12 (fin [0xFC]) (fin [5])).reg 1) (bitLen .standard 0 - 1)) ∧
    ((with12 (fin [3]) (fin [6])).ready ∧ readable u1 ((with12 (fin [3]) (fin [6])).reg 1) ∧
      distance .standard ((with12 (fin [3]) (fin [6])).reg 2) < bitLen .standard 0 ∧
      ∀ j < bitLen .standard 0, bitLen .standard 0 - distance .standard ((with12 (fin [3]) (fin [6])).reg 2) ≤ j →
        patternBit .standard u1 ((with12 (fin [3]) (fin [6])).reg 1) j = false) ∧
    ((with12 one (fin [127])).ready ∧ readable ux ((with12 one (fin [127])).reg 1) ∧
      inCapacity .standard ux (valueOf .standard ux ((with12 one (fin [127])).reg 1) *
        2 ^ distance .standard ((with12 one (fin [127])).reg 2))) := ⟨by decide, by decide, by decide, by decide⟩

/-- The greatest distance for a systems type, and one that exceeds the capacity for an arbitrary type. -/
theorem witness_WordShifterIsShlAndShr :
    ((with12 (fin [0x96]) (fin [7])).ready ∧ readable s1 ((with12 (fin [0x96]) (fin [7])).reg 1) ∧
      ((with12 (fin [0x96]) (fin [7])).reg 2).app = false ∧
      distance .standard ((with12 (fin [0x96]) (fin [7])).reg 2) < bitLen .standard 0) ∧
    ((with12 one (fin [128])).ready ∧ readable ux ((with12 one (fin [128])).reg 1) ∧
      ((with12 one (fin [128])).reg 2).app = false) := by decide

/-- The least product of `s1` that overflows, and the least value of `sx` squared (`W = 16`, `CAP = 4`: `-2^31`). -/
theorem witness_MulAndSqrWriteTheProduct :
    ((with12 (fin [0x80]) (fin [0xFF])).ready ∧ readable s1 ((with12 (fin [0x80]) (fin [0xFF])).reg 1) ∧
      readable s1 ((with12 (fin [0x80]) (fin [0xFF])).reg 2) ∧
      isInfinite s1 ((with12 (fin [0x80]) (fin [0xFF])).reg 1) = false ∧
      isInfinite s1 ((with12 (fin [0x80]) (fin [0xFF])).reg 2) = false ∧
      (-128 : Int) = valueOf .standard s1 ((with12 (fin [0x80]) (fin [0xFF])).reg 1) ∧
      (-1 : Int) = valueOf .standard s1 ((with12 (fin [0x80]) (fin [0xFF])).reg 2) ∧
      inCapacity .standard s1 (-128 * -1) ∧ inCapacity .standard s1 (-128 * -128)) ∧
    ((loaded wide [(1, inf [0, 0x8000]), (2, fin [2])]).ready ∧
      (-(2 ^ 31) : Int) = valueOf wide sx ((loaded wide [(1, inf [0, 0x8000]), (2, fin [2])]).reg 1) ∧
      (2 : Int) = valueOf wide sx ((loaded wide [(1, inf [0, 0x8000]), (2, fin [2])]).reg 2) ∧
      inCapacity wide sx (-(2 ^ 31) * 2) ∧ inCapacity wide sx (-(2 ^ 31) * -(2 ^ 31))) := ⟨by decide, by decide⟩

theorem witness_MulfWritesTheDoublet :
    (with12 (fin [0x80]) (fin [0x7F])).ready ∧ ((with12 (fin [0x80]) (fin [0x7F])).reg 1).len = words 0 ∧
    ((with12 (fin [0x80]) (fin [0x7F])).reg 2).len = words 0 := by decide

/-- `-128`, `-1`, `127` and 3 under `s1`, with overflow at every step; -2, 3, -5 and 7 under `sx`. -/
theorem witness_Distributivity :
    ((loaded .standard [(0, fin [0x80]), (1, fin [0xFF]), (2, fin [0x7F]), (3, fin [3])]).ready ∧
      (∀ r : RegNum, r.val < 4 →
        readable s1 ((loaded .standard [(0, fin [0x80]), (1, fin [0xFF]), (2, fin [0x7F]), (3, fin [3])]).reg r) ∧
        isInfinite s1 ((loaded .standard [(0, fin [0x80]), (1, fin [0xFF]), (2, fin [0x7F]), (3, fin [3])]).reg r) =
          false)) ∧
    ((loaded .standard [(0, inf [0xFE]), (1, fin [3]), (2, inf [0xFB]), (3, fin [7])]).ready ∧
      (∀ r : RegNum, r.val < 4 →
        readable sx ((loaded .standard [(0, inf [0xFE]), (1, fin [3]), (2, inf [0xFB]), (3, fin [7])]).reg r) ∧
        isInfinite sx ((loaded .standard [(0, inf [0xFE]), (1, fin [3]), (2, inf [0xFB]), (3, fin [7])]).reg r) =
          false) ∧
      (-2 : Int) = valueOf .standard sx (inf [0xFE]) ∧ (3 : Int) = valueOf .standard sx (fin [3]) ∧
      (-5 : Int) = valueOf .standard sx (inf [0xFB]) ∧ (7 : Int) = valueOf .standard sx (fin [7]) ∧
      ∀ v ∈ [(-2 + 3 : Int), -5 + 7, (-2 + 3) * (-5 + 7), -2 * -5, -2 * 7, 3 * -5, 3 * 7, -2 * -5 + -2 * 7,
        3 * -5 + 3 * 7], inCapacity .standard sx v) := ⟨by decide, by decide, by decide, by decide⟩

/-- Clause 1: two Words by one, in base 2 and in base 256. Clause 2: as `MULF`. -/
theorem witness_SchoolbookIsMulf :
    (2 ≤ 2 ∧ (∀ u ∈ [1, 1], u < 2) ∧ ∀ v ∈ [1], v < 2) ∧
    (2 ≤ 256 ∧ (∀ u ∈ [255, 255], u < 256) ∧ ∀ v ∈ [255], v < 256) ∧
    (with12 (fin [0x80]) (fin [0x7F])).ready ∧ ((with12 (fin [0x80]) (fin [0x7F])).reg 1).len = words 0 ∧
    ((with12 (fin [0x80]) (fin [0x7F])).reg 2).len = words 0 := by decide

/-- `-128 / -1` under `s1`, and a negative dividend under `sx`. -/
theorem witness_DivDividesFiniteValues :
    ((with12 (fin [0x80]) (fin [0xFF])).ready ∧ readable s1 ((with12 (fin [0x80]) (fin [0xFF])).reg 1) ∧
      readable s1 ((with12 (fin [0x80]) (fin [0xFF])).reg 2) ∧
      isInfinite s1 ((with12 (fin [0x80]) (fin [0xFF])).reg 1) = false ∧
      isInfinite s1 ((with12 (fin [0x80]) (fin [0xFF])).reg 2) = false ∧
      (-128 : Int) = valueOf .standard s1 ((with12 (fin [0x80]) (fin [0xFF])).reg 1) ∧
      (-1 : Int) = valueOf .standard s1 ((with12 (fin [0x80]) (fin [0xFF])).reg 2) ∧ (-1 : Int) ≠ 0 ∧
      inCapacity .standard s1 (Int.tdiv (-128) (-1))) ∧
    ((with12 least (inf [])).ready ∧ (-(2 ^ 128) + 1 : Int) = valueOf .standard sx ((with12 least (inf [])).reg 1) ∧
      (-1 : Int) = valueOf .standard sx ((with12 least (inf [])).reg 2) ∧
      inCapacity .standard sx (Int.tdiv (-(2 ^ 128) + 1) (-1))) := ⟨by decide, by decide⟩

/-- The case that overflows, and one that does not. -/
theorem witness_DivOverflowsOnlyOnMinByMinusOne :
    ((with12 (fin [0x80]) (fin [0xFF])).ready ∧ ((with12 (fin [0x80]) (fin [0xFF])).reg 1).len = words 0 ∧
      ((with12 (fin [0x80]) (fin [0xFF])).reg 2).len = words 0 ∧
      ((with12 (fin [0x80]) (fin [0xFF])).reg 1).err = false ∧ ((with12 (fin [0x80]) (fin [0xFF])).reg 2).err = false ∧
      valueOf .standard s1 ((with12 (fin [0x80]) (fin [0xFF])).reg 2) ≠ 0) ∧
    ((with12 (fin [0xFF]) (fin [1])).ready ∧ ((with12 (fin [0xFF]) (fin [1])).reg 1).len = words 0 ∧
      valueOf .standard u1 ((with12 (fin [0xFF]) (fin [1])).reg 2) ≠ 0) := by decide

/-- Clause 1: an infinite divisor. Clause 2: an infinite dividend. -/
theorem witness_DivWithOneInfiniteOperand :
    ((with12 (fin [7]) (inf [0xFD])).ready ∧ (7 : Int) = valueOf .standard ux ((with12 (fin [7]) (inf [0xFD])).reg 1) ∧
      (-3 : Int) = valueOf .standard ux ((with12 (fin [7]) (inf [0xFD])).reg 2) ∧
      ((with12 (fin [7]) (inf [0xFD])).reg 1).app = false ∧ ((with12 (fin [7]) (inf [0xFD])).reg 2).app = true) ∧
    ((with12 (inf [0xF9]) (fin [3])).ready ∧ (-7 : Int) = valueOf .standard ux ((with12 (inf [0xF9]) (fin [3])).reg 1) ∧
      (3 : Int) = valueOf .standard ux ((with12 (inf [0xF9]) (fin [3])).reg 2) ∧
      ((with12 (inf [0xF9]) (fin [3])).reg 1).app = true ∧ ((with12 (inf [0xF9]) (fin [3])).reg 2).app = false ∧
      (3 : Int) ≠ 0) := by decide

/-- A Doublet that reads as negative, and one that does not. -/
theorem witness_Div21DividesADoublet :
    ((with12 (fin [0, 0x80]) (fin [2])).ready ∧ ((with12 (fin [0, 0x80]) (fin [2])).reg 1).len = 2 * words 0 ∧
      ((with12 (fin [0, 0x80]) (fin [2])).reg 2).len = words 0 ∧
      (-32768 : Int) = (if true = true ∧ 2 ^ (2 * bitLen .standard 0 - 1) ≤
          ((with12 (fin [0, 0x80]) (fin [2])).reg 1).nat .standard then
          (((with12 (fin [0, 0x80]) (fin [2])).reg 1).nat .standard : Int) - 2 ^ (2 * bitLen .standard 0)
        else ((with12 (fin [0, 0x80]) (fin [2])).reg 1).nat .standard) ∧
      (2 : Int) = valueOf .standard s1 ((with12 (fin [0, 0x80]) (fin [2])).reg 2) ∧ (2 : Int) ≠ 0) ∧
    ((with12 (fin [0x34, 0x12]) (fin [0x12])).ready ∧
      ((with12 (fin [0x34, 0x12]) (fin [0x12])).reg 1).len = 2 * words 0 ∧
      (0x1234 : Int) = ((with12 (fin [0x34, 0x12]) (fin [0x12])).reg 1).nat .standard ∧
      (0x12 : Int) = valueOf .standard u1 ((with12 (fin [0x34, 0x12]) (fin [0x12])).reg 2)) := by decide

theorem witness_DivisionInverse :
    (with12 (fin [0xF9]) (fin [3])).ready ∧ isInfinite s1 ((with12 (fin [0xF9]) (fin [3])).reg 1) = false ∧
    isInfinite s1 ((with12 (fin [0xF9]) (fin [3])).reg 2) = false ∧
    (3 : RegNum) ≠ 4 ∧ (3 : RegNum) ≠ 2 ∧ (4 : RegNum) ≠ 2 ∧ (5 : RegNum) ≠ 4 ∧
    nextOf (exec (.div s1 3 4 1 2) (with12 (fin [0xF9]) (fin [3]))) =
      some ((with12 (fin [0xF9]) (fin [3])).write2 3 (fin [0xFE]) 4 (fin [0xFF]) 0) ∧
    ((with12 (fin [0xF9]) (fin [3])).write2 3 (fin [0xFE]) 4 (fin [0xFF]) 0).fault = false ∧
    (((with12 (fin [0xF9]) (fin [3])).write2 3 (fin [0xFE]) 4 (fin [0xFF]) 0).reg 3).err = false := by decide

/-- Top Words below the divisor's, and equal to them (the quotient would be `B`). -/
theorem witness_TrialDigitIsTheQuotient :
    (2 ≤ 10 ∧ 4 < 10 ∧ 9 < 10 ∧ 9 < 10 ∧ 5 < 10 ∧ 0 < 10 ∧ 10 ≤ 2 * 5 ∧ 4 * 10 + 9 ≤ 5 * 10 + 0) ∧
    (2 ≤ 10 ∧ 5 < 10 ∧ 0 < 10 ∧ 7 < 10 ∧ 10 ≤ 2 * 5 ∧ 5 * 10 + 0 ≤ 5 * 10 + 0) := by decide

/-- A divisor of one Word that needs the greatest normalisation, and one longer than the dividend. -/
theorem witness_LongDivisionDivides :
    ((∀ u ∈ [0x34, 0x12, 0xFF], u < Config.standard.B) ∧ (∀ v ∈ [1], v < Config.standard.B) ∧ ([1] : List Nat) ≠ [] ∧
      [1].getLastD 0 ≠ 0) ∧
    ((∀ u ∈ [0x34], u < Config.standard.B) ∧ (∀ v ∈ [0, 0x80], v < Config.standard.B) ∧
      [0, 0x80].getLastD 0 ≠ 0) := by decide

/-- Clause 1: a zero divisor. Clause 2: the greatest divisor. -/
theorem witness_ConstructionWritesTheSlot :
    ((with12 (fin [0]) (fin [255])).ready ∧ ((with12 (fin [0]) (fin [255])).reg 1).len = words 0 ∧
      ((with12 (fin [0]) (fin [255])).reg 1).nat .standard = 0) ∧
    (((with12 (fin [0]) (fin [255])).reg 2).len = words 0 ∧
      ((with12 (fin [0]) (fin [255])).reg 2).nat .standard ≠ 0) := by decide

/-- Its three cases: the divisor a power of two, rounded up (3), and rounded down (7); and the least and the greatest
divisor. -/
theorem witness_RcpConstantsAreExact :
    (1 ≤ 1 ∧ 1 < 2 ^ 8 ∧ 1 = 2 ^ 0) ∧ (1 ≤ 255 ∧ 255 < 2 ^ 8) ∧
    (1 ≤ 3 ∧ 3 < 2 ^ 8 ∧ 3 ≠ 2 ^ 1 ∧ 3 - 2 ^ (8 + 1) % 3 ≤ 2 ^ 1) ∧
    (1 ≤ 7 ∧ 7 < 2 ^ 8 ∧ 7 ≠ 2 ^ 2 ∧ 2 ^ 2 < 7 - 2 ^ (8 + 2) % 7) := by decide

/-- Clause 1: the Divider of 7 in slot 2. Clause 2: the Divider21 of 7 in slot 3. -/
theorem witness_ReciprocalDivides :
    (withSlots (fin [255]) (fin [0x34, 0x12])).ready ∧
    (((withSlots (fin [255]) (fin [0x34, 0x12])).slot 2).valid = true ∧
      ((withSlots (fin [255]) (fin [0x34, 0x12])).slot 2).size = words 0 ∧
      ((withSlots (fin [255]) (fin [0x34, 0x12])).slot 2).k21 = false ∧
      ((withSlots (fin [255]) (fin [0x34, 0x12])).reg 1).len = words 0) ∧
    (((withSlots (fin [255]) (fin [0x34, 0x12])).slot 3).valid = true ∧
      ((withSlots (fin [255]) (fin [0x34, 0x12])).slot 3).size = words 0 ∧
      ((withSlots (fin [255]) (fin [0x34, 0x12])).slot 3).k21 = true ∧
      ((withSlots (fin [255]) (fin [0x34, 0x12])).reg 2).len = 2 * words 0) := by decide

theorem witness_RcprdReadsTheConstants :
    (withSlots (fin []) (fin [])).ready ∧ ((withSlots (fin []) (fin [])).slot 2).valid = true ∧
    ((withSlots (fin []) (fin [])).slot 3).valid = true := by decide

/-- Clause 1: 100 by 7 with one dividend Word. Clause 2: 0x1234 by 7 with two. -/
theorem witness_ReciprocalEqualsDivision :
    (with12 (fin [100]) (fin [7])).ready ∧ ((with12 (fin [100]) (fin [7])).reg 2).len = words 0 ∧
    ((with12 (fin [100]) (fin [7])).reg 2).nat .standard ≠ 0 ∧
    (3 : RegNum) ≠ 1 ∧ (3 : RegNum) ≠ 2 ∧ (4 : RegNum) ≠ 1 ∧ (4 : RegNum) ≠ 2 ∧ (3 : RegNum) ≠ 4 ∧ (5 : RegNum) ≠ 6 ∧
    (5 : RegNum) ≠ 3 ∧ (5 : RegNum) ≠ 4 ∧ (6 : RegNum) ≠ 3 ∧ (6 : RegNum) ≠ 4 ∧
    ((with12 (fin [100]) (fin [7])).reg 1).len = words 0 ∧
    (with12 (fin [0x34, 0x12]) (fin [7])).ready ∧
    ((with12 (fin [0x34, 0x12]) (fin [7])).reg 1).len = 2 * words 0 := ⟨by decide, by decide, by decide, by decide, by decide⟩

end Sys2Proof.Tests
end

section
/-! PROOFS. The statements of 10_state.md: the reset values (R41 to R43, R250), and that no command can tell two states
apart that differ only inside invalid slots (R42). -/

namespace Sys2Proof.Machine

/-! ### Reset -/

/-- A register after reset has no Words, and every systems type has at least one (10_state.md R23, R41). -/
theorem not_readable_resetReg (sgn : Bool) (n : Size) : ¬readable (.sys sgn n) resetReg := by
  simp [readable, Reg.len, resetReg, words]

theorem slot_valid_resetState (c : Config) (input : List HostAction) (k : SlotNum) :
    ((resetState c input).slot k).valid = false := by
  rw [resetState_slot]; rfl

theorem step_reset {s : State} {rest : List HostAction} (h : s.input = .reset :: rest) :
    step s = .next (resetState s.cfg rest) := by
  simp only [step, h, State.hostReset]

/-- Settles O7. -/
theorem resetGivesTheResetValues : Obligations.ResetGivesTheResetValues := by
  refine ⟨fun c input => ⟨rfl, rfl, fun r => resetState_reg r input c, fun r sgn n => ?_,
    slot_valid_resetState c input, rfl, rfl, rfl, rfl⟩, fun s rest => step_reset⟩
  rw [resetState_reg]
  exact not_readable_resetReg sgn n

/-! ### Two states that differ only inside invalid slots

One of them is the other with its slots replaced, so a command computes the same values from both as long as it reads no
slot. `SameOutcome` relates what the two bodies of a command end in, and `bind` keeps it. -/

/-- The state with its slots replaced. -/
def State.withSlots (s : State) (sl : Vector Slot 4) : State := { s with slots := sl }

@[simp] theorem State.withSlots_cfg (s : State) (sl : Vector Slot 4) : (s.withSlots sl).cfg = s.cfg := rfl
@[simp] theorem State.reg_withSlots (s : State) (sl : Vector Slot 4) (r : RegNum) :
    (s.withSlots sl).reg r = s.reg r := rfl

theorem eq_withSlots_of_sameVisible {s s' : State} (h : sameVisible s s') : s' = s.withSlots s'.slots := by
  obtain ⟨hcfg, hregs, hfault, hfcause, hdout, hnil, hdin, hinput, -⟩ := h
  exact State.ext_fields hcfg hregs rfl hfault hfcause hdout hnil hdin hinput

/-- Both results of a command's body are states that look the same, or both are the same fault. -/
inductive SameOutcome : Except Cause State → Except Cause State → Prop
  | ok {t t' : State} (h : sameVisible t t') : SameOutcome (.ok t) (.ok t')
  | error (k : Cause) : SameOutcome (.error k) (.error k)

/-- A value that both bodies compute alike: the rest may depend on it. -/
theorem SameOutcome.bind {α : Type} (x : Except Cause α) {f g : α → Except Cause State}
    (h : ∀ a, SameOutcome (f a) (g a)) : SameOutcome (x >>= f) (x >>= g) := by
  cases x with
  | ok a => exact h a
  | error k => exact .error k

/-- The second result is a next state that looks like the first's. -/
def SameNext (r r' : Result) : Prop := ∀ t, r = .next t → ∃ t', r' = .next t' ∧ sameVisible t t'

theorem sameNext_next {t t' : State} (h : sameVisible t t') : SameNext (.next t) (.next t') := by
  rintro _ ⟨⟩
  exact ⟨t', rfl, h⟩

section
variable {s : State} {sl : Vector Slot 4} (h : sameVisible s (s.withSlots sl))
include h

/-! What the state's operations keep. -/

theorem slot_eq_or_invalid (k : SlotNum) : (s.withSlots sl).slot k = s.slot k ∨
    ((s.slot k).valid = false ∧ ((s.withSlots sl).slot k).valid = false) := by
  obtain ⟨-, -, -, -, -, -, -, -, hslot⟩ := h
  exact hslot k

/-- An update that leaves the slots alone does the same to both states. -/
theorem sameVisible_withSlots {t : State} (ht : t.slots = s.slots) : sameVisible t (t.withSlots sl) := by
  refine ⟨rfl, rfl, rfl, rfl, rfl, rfl, rfl, rfl, fun k => ?_⟩
  rw [State.slot_eq_of_slots k ht]
  exact slot_eq_or_invalid h k

theorem sameVisible_answer (d : Nat) (z : Bool) : sameVisible (s.answer d z) ((s.withSlots sl).answer d z) :=
  sameVisible_withSlots h rfl

theorem sameVisible_write (rd : RegNum) (v : Reg) : sameVisible (s.write rd v) ((s.withSlots sl).write rd v) :=
  sameVisible_withSlots h rfl

theorem sameVisible_write2 (rd : RegNum) (v : Reg) (re : RegNum) (v' : Reg) (d : Nat) :
    sameVisible (s.write2 rd v re v' d) ((s.withSlots sl).write2 rd v re v' d) :=
  sameVisible_withSlots h rfl

theorem sameVisible_raise (k : Cause) : sameVisible (s.raise k) ((s.withSlots sl).raise k) :=
  sameVisible_withSlots h rfl

/-- A slot is written whole (10_state.md R31), so nothing of what it held before is left. -/
theorem sameVisible_constructed (k : SlotNum) (d : Slot) :
    sameVisible ((s.setSlot k d).answer 0 false) (((s.withSlots sl).setSlot k d).answer 0 false) := by
  refine ⟨rfl, rfl, rfl, rfl, rfl, rfl, rfl, rfl, fun k' => ?_⟩
  simp only [State.slot_answer, State.slot_setSlot]
  by_cases hk : k' = k
  · exact .inl (by simp [hk])
  · simpa [hk] using slot_eq_or_invalid h k'

/-! What the bodies of commands end in. -/

theorem sameOutcome_answer (d : Nat) (z : Bool) :
    SameOutcome (.ok (s.answer d z)) (.ok ((s.withSlots sl).answer d z)) := .ok (sameVisible_answer h d z)

theorem sameOutcome_write (rd : RegNum) (v : Reg) :
    SameOutcome (.ok (s.write rd v)) (.ok ((s.withSlots sl).write rd v)) := .ok (sameVisible_write h rd v)

theorem sameOutcome_write2 (rd : RegNum) (v : Reg) (re : RegNum) (v' : Reg) (d : Nat) :
    SameOutcome (.ok (s.write2 rd v re v' d)) (.ok ((s.withSlots sl).write2 rd v re v' d)) :=
  .ok (sameVisible_write2 h rd v re v' d)

/-! The shapes of commands. -/

theorem command_sameNext {b b' : Except Cause State} (hb : SameOutcome b b') :
    SameNext (command s b) (command (s.withSlots sl) b') := by
  cases hf : s.fault with
  | true =>
    rw [command_fault hf, command_fault (s := s.withSlots sl) hf]
    exact sameNext_next (sameVisible_answer h 0 false)
  | false =>
    cases hb with
    | ok ht =>
      rw [command_ok hf rfl, command_ok (s := s.withSlots sl) hf rfl]
      exact sameNext_next ht
    | error k =>
      rw [command_error hf rfl, command_error (s := s.withSlots sl) hf rfl]
      exact sameNext_next (sameVisible_raise h k)

theorem binaryFinite_sameNext (f : Int → Int → Int) (t : Ty) (rd ra rb : RegNum) :
    SameNext (binaryFinite f t rd ra rb s) (binaryFinite f t rd ra rb (s.withSlots sl)) :=
  command_sameNext h <| .bind (opnd s.cfg t (s.reg ra)) fun _ => .bind (opnd s.cfg t (s.reg rb)) fun _ =>
    .bind _ fun _ => .bind (res s.cfg t _ _) fun v => sameOutcome_write h rd v

theorem unary_sameNext (f : Int → Int) (own : Int → Bool) (t : Ty) (rd ra : RegNum) :
    SameNext (unary f own t rd ra s) (unary f own t rd ra (s.withSlots sl)) :=
  command_sameNext h <| .bind (opnd s.cfg t (s.reg ra)) fun _ => .bind (res s.cfg t _ _) fun v =>
    sameOutcome_write h rd v

theorem counting_sameNext (count : Reg → Count) (t : Ty) (rd ra : RegNum) :
    SameNext (counting count t rd ra s) (counting count t rd ra (s.withSlots sl)) :=
  command_sameNext h <| .bind (checkLen t (s.reg ra)) fun _ => .bind (cntrec s.cfg _ _) fun v =>
    sameOutcome_write h rd v

theorem maskedShift_sameNext (f : Int → Nat → Int) (sgn : Bool) (n : Size) (rd ra rb : RegNum) :
    SameNext (maskedShift f sgn n rd ra rb s) (maskedShift f sgn n rd ra rb (s.withSlots sl)) := by
  refine command_sameNext h <| .bind (opnd s.cfg (.sys sgn n) (s.reg ra)) fun a => ?_
  simp only [State.withSlots_cfg, State.reg_withSlots]
  cases rdCount s.cfg (s.reg rb) with
  | infinite => exact .error .finite
  | finite d => exact sameOutcome_write h rd _

theorem rcpConstruct_sameNext (k21 : Bool) (n : Size) (k : SlotNum) (ra : RegNum) :
    SameNext (rcpConstruct k21 n k ra s) (rcpConstruct k21 n k ra (s.withSlots sl)) := by
  refine command_sameNext h <| .bind (sysnat s.cfg (s.reg ra) (words n)) fun d => ?_
  by_cases hd : d = 0
  · simp only [if_pos hd]
    exact sameOutcome_answer h 0 true
  · simp only [if_neg hd]
    exact .ok (sameVisible_constructed h k _)

/-- The slot is read behind a check that fails on an invalid one (60_exceptions.md R225). -/
theorem rcpApply_sameNext (k21 : Bool) (n : Size) (rd re ra : RegNum) (k : SlotNum) :
    SameNext (rcpApply k21 n rd re ra k s) (rcpApply k21 n rd re ra k (s.withSlots sl)) := by
  refine command_sameNext h <| .bind (sysnat s.cfg (s.reg ra) _) fun _ => ?_
  obtain hk | ⟨hs, hs'⟩ := slot_eq_or_invalid h k
  · simp only [hk]
    exact .bind _ fun _ => sameOutcome_write2 h rd _ re _ 0
  · simp only [hs, hs', Bool.false_and, check_false, bind_error]
    exact .error .slot

/-- As `rcpApply_sameNext`: an invalid slot fails the check before its constants are read. -/
theorem rcprd_sameNext (rd re : RegNum) (k : SlotNum) :
    SameNext (execRcprd rd re k s) (execRcprd rd re k (s.withSlots sl)) := by
  refine command_sameNext h ?_
  obtain hk | ⟨hs, hs'⟩ := slot_eq_or_invalid h k
  · simp only [hk]
    exact .bind _ fun _ => .bind (cntrec s.cfg _ _) fun shift => sameOutcome_write2 h rd _ re shift _
  · simp only [hs, hs', check_false, bind_error]
    exact .error .slot

theorem div_sameNext (t : Ty) (rd re ra rb : RegNum) :
    SameNext (execDiv t rd re ra rb s) (execDiv t rd re ra rb (s.withSlots sl)) :=
  command_sameNext h <| .bind (opnd s.cfg t (s.reg ra)) fun _ => .bind (opnd s.cfg t (s.reg rb)) fun _ =>
    .bind _ fun _ => .bind _ fun _ => .bind (res s.cfg t _ _) fun vq => .bind (res s.cfg t _ _) fun vr =>
    sameOutcome_write2 h rd vq re vr 0

theorem div21_sameNext (sgn : Bool) (n : Size) (rd re ra rb : RegNum) :
    SameNext (execDiv21 sgn n rd re ra rb s) (execDiv21 sgn n rd re ra rb (s.withSlots sl)) :=
  command_sameNext h <| .bind (sysnat s.cfg (s.reg ra) _) fun _ =>
    .bind (opnd s.cfg (.sys sgn n) (s.reg rb)) fun _ => .bind _ fun _ => sameOutcome_write2 h rd _ re _ 0

/-- Whichever the command: the two next states look the same. -/
theorem exec_sameNext (i : Instr) : SameNext (exec i s) (exec i (s.withSlots sl)) := by
  cases i with
  | init t r => exact command_sameNext h <| .bind (res s.cfg t 0 false) fun v => sameOutcome_write h r v
  | wrw t r vw idx =>
    exact command_sameNext h <| .bind (elemWr s.cfg t (s.reg r) vw.bits idx.toNat s.din) fun v =>
      sameOutcome_write h r v
  | wrapp sgn r bit => exact command_sameNext h (sameOutcome_write h r _)
  | rdw t r vw idx =>
    exact command_sameNext h <| .bind (elemRd s.cfg t (s.reg r) vw.bits idx.toNat) fun d =>
      sameOutcome_answer h d false
  | rdbit t r idx =>
    exact command_sameNext h <| .bind (effBit s.cfg t (s.reg r) idx.toNat) fun b =>
      sameOutcome_answer h (bitWord b) false
  | rdlen r => exact command_sameNext h (sameOutcome_answer h (s.reg r).len false)
  | rdapp t r =>
    exact command_sameNext h <| .bind (effApp s.cfg t (s.reg r)) fun b => sameOutcome_answer h (bitWord b) false
  | rde r => exact command_sameNext h (sameOutcome_answer h (bitWord (s.reg r).err) false)
  | cnt t rd ra bit => exact counting_sameNext h (fun r => countOf s.cfg t r bit) t rd ra
  | asc t rd ra bit => exact counting_sameNext h (fun r => ascendingOf s.cfg t r bit) t rd ra
  | dsc t rd ra bit => exact counting_sameNext h (fun r => descendingOf s.cfg t r bit) t rd ra
  | bswap sgn n rd ra =>
    exact command_sameNext h <| .bind (sysnat s.cfg (s.reg ra) (words n)) fun _ => sameOutcome_write h rd _
  | cvt ts td rd ra =>
    exact command_sameNext h <| .bind (opnd s.cfg ts (s.reg ra)) fun _ => .bind (res s.cfg td _ _) fun v =>
      sameOutcome_write h rd v
  | veto rd ra b => exact command_sameNext h (sameOutcome_write h rd _)
  | unwrap rd ra => exact command_sameNext h (sameOutcome_write h rd _)
  | feq t ra rb =>
    exact command_sameNext h <| .bind (opnd s.cfg t (s.reg ra)) fun _ =>
      .bind (opnd s.cfg t (s.reg rb)) fun _ => sameOutcome_answer h _ false
  | gnz t ra =>
    exact command_sameNext h <| .bind (opnd s.cfg t (s.reg ra)) fun _ => sameOutcome_answer h 0 _
  | gnat t ra =>
    exact command_sameNext h <| .bind (effApp s.cfg t (s.reg ra)) fun b => sameOutcome_answer h 0 b
  | gfin t ra =>
    exact command_sameNext h <| .bind (opnd s.cfg t (s.reg ra)) fun _ => sameOutcome_answer h 0 _
  | add t rd ra rb => exact binaryFinite_sameNext h (fun a b => a + b) t rd ra rb
  | sub t rd ra rb => exact binaryFinite_sameNext h (fun a b => a - b) t rd ra rb
  | bnot t rd ra => exact unary_sameNext h (fun a => -a - 1) (fun _ => false) t rd ra
  | cpl t rd ra inc =>
    exact unary_sameNext h (fun a => -a - 1 + (if inc then 1 else 0)) (fun a => inc && isLeast s.cfg t a) t rd ra
  | mag t rd ra =>
    exact unary_sameNext h (fun a => if signed t && decide (a < 0) then -a else a) (fun a => isLeast s.cfg t a) t rd ra
  | shl t rd ra rb =>
    exact command_sameNext h <| .bind (opnd s.cfg t (s.reg ra)) fun _ =>
      .bind (shiftUp s.cfg t _ (rdCount s.cfg (s.reg rb)) _) fun v => sameOutcome_write h rd v
  | shr t rd ra rb =>
    exact command_sameNext h <| .bind (opnd s.cfg t (s.reg ra)) fun _ =>
      .bind (res s.cfg t (shiftDown s.cfg t _ (rdCount s.cfg (s.reg rb))) _) fun v => sameOutcome_write h rd v
  | shlm sgn n rd ra rb => exact maskedShift_sameNext h (fun a d => a * 2 ^ d) sgn n rd ra rb
  | shrm sgn n rd ra rb => exact maskedShift_sameNext h floorShift sgn n rd ra rb
  | mul t rd ra rb => exact binaryFinite_sameNext h (fun a b => a * b) t rd ra rb
  | mulf sgn n rd ra rb =>
    exact command_sameNext h <| .bind (opnd s.cfg (.sys sgn n) (s.reg ra)) fun _ =>
      .bind (opnd s.cfg (.sys sgn n) (s.reg rb)) fun _ => sameOutcome_write h rd _
  | sqr t rd ra => exact binaryFinite_sameNext h (fun a b => a * b) t rd ra ra
  | div t rd re ra rb => exact div_sameNext h t rd re ra rb
  | div21 sgn n rd re ra rb => exact div21_sameNext h sgn n rd re ra rb
  | rcpset n k ra => exact rcpConstruct_sameNext h false n k ra
  | rcpdiv n rd re ra k => exact rcpApply_sameNext h false n rd re ra k
  | rcp21set n k ra => exact rcpConstruct_sameNext h true n k ra
  | rcp21div n rd re ra k => exact rcpApply_sameNext h true n rd re ra k
  | rcprd rd re k => exact rcprd_sameNext h rd re k
  | rdstat => exact sameNext_next (sameVisible_answer h s.statusWord false)
  | rdcfg idx => exact sameNext_next (sameVisible_answer h (cfgWord s.cfg idx.toNat) false)

end

/-- Settles O17: one of the two states is the other with its slots replaced, and each command keeps the two alike. -/
theorem invalidSlotsAreUnobservable : Obligations.InvalidSlotsAreUnobservable := by
  refine ⟨slot_valid_resetState, fun i s s' t h => ?_⟩
  have hs := eq_withSlots_of_sameVisible h
  rw [hs] at h ⊢
  exact exec_sameNext h i t

end Sys2Proof.Machine
end

section
/-! PROOFS. The statements of 43_complement.md: the round-trip law of `MAG` and `CPL` (R153). -/

namespace Sys2Proof.Machine

variable {s : State} {t : Ty} {rd ra : RegNum}

/-! ### Magnitudes -/

theorem signed_iff : signed t = true ↔ (∃ n, t = .sys true n) ∨ t = .arb true := by
  cases t <;> simp [signed]

/-- The function `MAG` computes with is the magnitude of R152. -/
theorem negate_if_negative_eq_magnitudeOf (t : Ty) (a : Int) :
    (if signed t && decide (a < 0) then -a else a) = magnitudeOf t a := by
  have hsigned : (if a < 0 then -a else a) = |a| := by
    split
    case isTrue h => exact (abs_of_neg h).symm
    case isFalse h => exact (abs_of_nonneg (not_lt.1 h)).symm
  cases t with
  | sys sgn n => cases sgn <;> simp [signed, magnitudeOf, hsigned]
  | arb sgn => cases sgn <;> simp [signed, magnitudeOf, hsigned]

theorem magnitudeOf_of_nonneg {a : Int} (ha : 0 ≤ a) : magnitudeOf t a = a := by
  rw [← negate_if_negative_eq_magnitudeOf]
  simp [not_lt.2 ha]

theorem magnitudeOf_of_neg {a : Int} (ht : signed t = true) (ha : a < 0) : magnitudeOf t a = -a := by
  rw [← negate_if_negative_eq_magnitudeOf]
  simp [ht, ha]

/-- No value of a signed type is infinite (00_scope.md R9). -/
theorem isInfinite_of_signed (ht : signed t = true) (r : Reg) : isInfinite t r = false := by
  obtain ⟨n, rfl⟩ | rfl := signed_iff.1 ht
  · exact isInfinite_sys true n r
  · exact isInfinite_sx r

/-! ### What the two commands write -/

theorem cpl_next (inc : Bool) (hs : s.ready) (ha : readable t (s.reg ra))
    (hc : inCapacity s.cfg t (-valueOf s.cfg t (s.reg ra) - 1 + (if inc then 1 else 0))) :
    ∃ v, exec (.cpl t rd ra inc) s = .next (s.write rd v) ∧
      holds s.cfg t v (-valueOf s.cfg t (s.reg ra) - 1 + (if inc then 1 else 0)) ∧
      v.err = ((s.reg ra).err || (inc && isLeast s.cfg t (valueOf s.cfg t (s.reg ra)))) :=
  unary_next (fun a => -a - 1 + (if inc then 1 else 0)) (fun a => inc && isLeast s.cfg t a) hs ha hc

/-- `CPL` with increment is the negation. -/
theorem cpl_increment_next (hs : s.ready) (ha : readable t (s.reg ra))
    (hc : inCapacity s.cfg t (-valueOf s.cfg t (s.reg ra))) :
    ∃ v, exec (.cpl t rd ra true) s = .next (s.write rd v) ∧ holds s.cfg t v (-valueOf s.cfg t (s.reg ra)) ∧
      v.err = ((s.reg ra).err || isLeast s.cfg t (valueOf s.cfg t (s.reg ra))) := by
  have h := cpl_next (rd := rd) true hs ha
  simp only [if_true, Int.sub_add_cancel, Bool.true_and] at h
  exact h hc

theorem mag_next (hs : s.ready) (ha : readable t (s.reg ra))
    (hc : inCapacity s.cfg t (magnitudeOf t (valueOf s.cfg t (s.reg ra)))) :
    ∃ v, exec (.mag t rd ra) s = .next (s.write rd v) ∧
      holds s.cfg t v (magnitudeOf t (valueOf s.cfg t (s.reg ra))) ∧
      v.err = ((s.reg ra).err || isLeast s.cfg t (valueOf s.cfg t (s.reg ra))) := by
  rw [← negate_if_negative_eq_magnitudeOf] at hc ⊢
  exact unary_next (fun a => if signed t && decide (a < 0) then -a else a) (fun a => isLeast s.cfg t a) hs ha hc

/-! ### The round trip -/

/-- Settles O39: the sign of the operand decides. The magnitude of a negative operand is the negation that `CPL` writes,
and one integer has one payload; the magnitude of another operand is the operand, which is in the domain. -/
theorem magnitudeRoundTrip : Obligations.MagnitudeRoundTrip := by
  intro s t rd ra hs hsigned ha hc
  have ht : signed t = true := signed_iff.2 hsigned
  obtain ⟨n, hcpl, hn, -⟩ := cpl_increment_next (rd := rd) hs ha hc
  obtain hneg | hnonneg := lt_or_ge (valueOf s.cfg t (s.reg ra)) 0
  · have hmagn := magnitudeOf_of_neg ht hneg
    obtain ⟨m, hmag, hm, -⟩ := mag_next (rd := rd) hs ha (by rwa [hmagn])
    rw [hmagn] at hm
    exact ⟨m, n, hmag, hcpl, fun _ => holds_unique hm hn, fun h => absurd hneg (not_lt.2 h)⟩
  · have hmagn := magnitudeOf_of_nonneg (t := t) hnonneg
    have hwf := hs.2.1 ra
    obtain ⟨m, hmag, hm, -⟩ := mag_next (rd := rd) hs ha (by rw [hmagn]; exact valueOf_inCapacity hwf ha)
    rw [hmagn] at hm
    have hdomain := valueOf_inDomain hwf ha (isInfinite_of_signed ht _)
    exact ⟨m, n, hmag, hcpl, fun h => absurd h (not_lt.2 hnonneg),
      fun _ => ⟨holds_readable hm, valueOf_of_holds hm hdomain⟩⟩

end Sys2Proof.Machine
end

section
/-! PROOFS. The statements of 44_shift.md: the shift laws (R164). -/

namespace Sys2Proof.Machine

variable {c : Config} {s : State} {t : Ty} {r v : Reg} {rd ra rb : RegNum} {n : Size} {a : Int} {d : Nat}

/-! ### What the two commands write -/

/-- `SHL` by a finite distance writes what `res` builds from the multiple of the operand. -/
theorem shl_next_of_res (hf : s.fault = false) (hw : (s.reg ra).wf s.cfg) (ha : readable t (s.reg ra))
    (hb : (s.reg rb).app = false)
    (hv : res s.cfg t (valueOf s.cfg t (s.reg ra) * 2 ^ distance s.cfg (s.reg rb))
      ((s.reg ra).err || (s.reg rb).err) = .ok v) :
    exec (.shl t rd ra rb) s = .next (s.write rd v) := by
  refine command_ok hf ?_
  simp only [opnd_ok hw ha, bind_ok, rdCount_finite hb, shiftUp_finite, hv, pure_ok]

/-- `SHR` by a finite distance writes what `res` builds from the floor of the quotient. -/
theorem shr_next_of_res (hf : s.fault = false) (hw : (s.reg ra).wf s.cfg) (ha : readable t (s.reg ra))
    (hb : (s.reg rb).app = false)
    (hv : res s.cfg t (valueOf s.cfg t (s.reg ra) / 2 ^ distance s.cfg (s.reg rb))
      ((s.reg ra).err || (s.reg rb).err) = .ok v) :
    exec (.shr t rd ra rb) s = .next (s.write rd v) := by
  have hdown := shiftDown_finite (c := s.cfg) (t := t) (valueOf s.cfg t (s.reg ra)) (distance s.cfg (s.reg rb))
    (by rintro sgn n rfl; exact valueOf_sys_inDomain hw ha)
  refine command_ok hf ?_
  simp only [opnd_ok hw ha, bind_ok, rdCount_finite hb, hdown, hv, pure_ok]

/-! ### Reading a record back -/

theorem fits_of_readable (hw : r.wf c) (h : readable t r) : t.fits c = true := by
  cases t with
  | sys sgn n =>
    have hlen : r.len = words n := h
    exact decide_eq_true (hlen.symm.trans_le hw.1)
  | arb sgn => rfl

/-- A record reads as the integer it holds: of a systems type when that is in the domain, of an arbitrary type always,
the infinite values included. -/
theorem valueOf_of_holds_unless_sys_overflow (h : holds c t r a)
    (hd : ∀ sgn n, t = .sys sgn n → inDomain c t a) : valueOf c t r = a := by
  cases t with
  | sys sgn n => exact valueOf_of_holds_sys h (hd sgn n rfl)
  | arb sgn => exact valueOf_of_holds_arb h

/-- A record that holds the integer of a stored register reads as that register does. -/
theorem valueOf_of_holds_valueOf (hw : r.wf c) (hr : readable t r) (h : holds c t v (valueOf c t r)) :
    valueOf c t v = valueOf c t r :=
  valueOf_of_holds_unless_sys_overflow h (by rintro sgn n rfl; exact valueOf_sys_inDomain hw hr)

/-! ### No bits shifted out -/

/-- The converse of `int_testBit_of_lt`: an integer whose bits from `m` up all are its sign lies within `2^m`. -/
theorem bounds_of_int_testBit {m : Nat} (h : ∀ i, m ≤ i → a.testBit i = decide (a < 0)) :
    -(2 ^ m) ≤ a ∧ a < 2 ^ m := by
  have hp : (0 : Int) < 2 ^ m := by positivity
  have hsign : a / 2 ^ m = if a < 0 then -1 else 0 := int_eq_of_testBit fun i => by
    rw [int_testBit_ediv, h (i + m) (by omega)]
    split
    case isTrue hneg => simp [int_testBit_of_lt (a := -1) (l := 0) (i := i), hneg]
    case isFalse hneg => simp [int_testBit_of_lt (a := 0) (l := 0) (i := i), hneg]
  obtain ⟨hlo, hhi⟩ := (Int.ediv_eq_iff_of_pos hp).1 hsign
  split_ifs at hlo hhi <;> constructor <;> linarith

/-- Bounds of an integer, moved up by `d` bits. -/
theorem bounds_mul_two_pow {m l : Nat} (hl : m + d = l) (h : -(2 ^ m) ≤ a ∧ a < 2 ^ m) :
    -(2 ^ l) ≤ a * 2 ^ d ∧ a * 2 ^ d < 2 ^ l := by
  have hp : (0 : Int) < 2 ^ d := by positivity
  rw [← hl, pow_add, ← neg_mul]
  exact ⟨Int.mul_le_mul_of_nonneg_right h.1 hp.le, Int.mul_lt_mul_of_pos_right h.2 hp⟩

/-- The top `d + 1` bits of a signed systems value are equal: the up-shift stays in the domain. -/
theorem inDomain_up_signed (hw : r.wf c) (hr : readable (.sys true n) r) (hd : d < bitLen c n)
    (htop : ∀ j < bitLen c n, bitLen c n - 1 - d ≤ j →
      patternBit c (.sys true n) r j = patternBit c (.sys true n) r (bitLen c n - 1)) :
    inDomain c (.sys true n) (valueOf c (.sys true n) r * 2 ^ d) := by
  obtain ⟨hlo, hhi⟩ : inDomain c (.sys true n) (valueOf c (.sys true n) r) := valueOf_sys_inDomain hw hr
  refine bounds_mul_two_pow (m := bitLen c n - 1 - d) (by omega) (bounds_of_int_testBit fun i hi => ?_)
  obtain hlt | hge := lt_or_ge i (bitLen c n)
  · exact (htop i hlt hi).trans (int_testBit_of_lt hlo hhi le_rfl)
  · exact int_testBit_of_lt hlo hhi (by omega)

/-- The top `d` bits of an unsigned systems value are 0: the up-shift stays in the domain. -/
theorem inDomain_up_unsigned (hw : r.wf c) (hr : readable (.sys false n) r) (hd : d < bitLen c n)
    (htop : ∀ j < bitLen c n, bitLen c n - d ≤ j → patternBit c (.sys false n) r j = false) :
    inDomain c (.sys false n) (valueOf c (.sys false n) r * 2 ^ d) := by
  have hdomain : inDomain c (.sys false n) (valueOf c (.sys false n) r) := valueOf_sys_inDomain hw hr
  obtain ⟨hlo, hhi⟩ := inDomain_bounds hdomain
  have hnonneg : 0 ≤ valueOf c (.sys false n) r := hdomain.1
  have hbounds := bounds_of_int_testBit (m := bitLen c n - d) fun i hi => by
    obtain hlt | hge := lt_or_ge i (bitLen c n)
    · exact (htop i hlt hi).trans (decide_eq_false (not_lt.2 hnonneg)).symm
    · exact int_testBit_of_lt hlo hhi hge
  exact ⟨by positivity, (bounds_mul_two_pow (by omega) hbounds).2⟩

/-! ### The laws -/

/-- A shift by distance 0 either way writes one record, which reads as the operand. -/
theorem shift_by_zero (hs : s.ready) (ha : readable t (s.reg ra)) (hb : (s.reg rb).app = false)
    (hd : distance s.cfg (s.reg rb) = 0) (he : (s.reg rb).err = false) :
    ∃ v, exec (.shl t rd ra rb) s = .next (s.write rd v) ∧ exec (.shr t rd ra rb) s = .next (s.write rd v) ∧
      readable t v ∧ valueOf s.cfg t v = valueOf s.cfg t (s.reg ra) ∧ v.err = (s.reg ra).err := by
  have hw : (s.reg ra).wf s.cfg := hs.2.1 ra
  obtain ⟨v, hv, hholds, herr⟩ := res_ok (e := (s.reg ra).err || (s.reg rb).err) (valueOf_inCapacity hw ha)
  exact ⟨v, shl_next_of_res hs.1 hw ha hb (by rwa [hd, pow_zero, mul_one]),
    shr_next_of_res hs.1 hw ha hb (by rwa [hd, pow_zero, Int.ediv_one]),
    holds_readable hholds, valueOf_of_holds_valueOf hw ha hholds, by rw [herr, he, Bool.or_false]⟩

/-- Up and then down by one distance gives the operand back when the record of the up-shift reads as the exact multiple:
the floor of its quotient is then the operand. -/
theorem shift_up_down (hs : s.ready) (ha : readable t (s.reg ra)) (hne : rd ≠ rb) (hb : (s.reg rb).app = false)
    (he : (s.reg rb).err = false)
    (hc : inCapacity s.cfg t (valueOf s.cfg t (s.reg ra) * 2 ^ distance s.cfg (s.reg rb)))
    (hd : ∀ sgn n, t = .sys sgn n →
      inDomain s.cfg t (valueOf s.cfg t (s.reg ra) * 2 ^ distance s.cfg (s.reg rb))) :
    ∃ (s' : State) (v : Reg), exec (.shl t rd ra rb) s = .next s' ∧ exec (.shr t rd rd rb) s' = .next (s'.write rd v) ∧
      readable t v ∧ valueOf s.cfg t v = valueOf s.cfg t (s.reg ra) ∧ v.err = (s.reg ra).err := by
  have hw : (s.reg ra).wf s.cfg := hs.2.1 ra
  obtain ⟨u, hu, huholds, huerr⟩ := res_ok (e := (s.reg ra).err || (s.reg rb).err) hc
  obtain ⟨v, hv, hvholds, hverr⟩ := res_ok (e := (s.reg ra).err || (s.reg rb).err) (valueOf_inCapacity hw ha)
  have hback : valueOf s.cfg t u / 2 ^ distance s.cfg (s.reg rb) = valueOf s.cfg t (s.reg ra) := by
    rw [valueOf_of_holds_unless_sys_overflow huholds hd, Int.mul_ediv_cancel _ (by positivity)]
  have hrb : (s.write rd u).reg rb = s.reg rb := State.reg_write_ne _ _ _ _ hne.symm
  refine ⟨s.write rd u, v, shl_next_of_res hs.1 hw ha hb hu, shr_next_of_res ?_ ?_ ?_ ?_ ?_, holds_readable hvholds,
    valueOf_of_holds_valueOf hw ha hvholds, by rw [hverr, he, Bool.or_false]⟩
  · exact hs.1
  · simpa using holds_wf huholds (fits_of_readable hw ha)
  · simpa using holds_readable huholds
  · rwa [hrb]
  · simpa [hrb, huerr, he, hback] using hv

/-- Settles O43: of a systems type, the bits that R164 asks to be equal or 0 are the ones that keep the multiple in the
domain; of an arbitrary type the up-shift is exact wherever it is within the capacity. -/
theorem shiftLaws : Obligations.ShiftLaws := by
  constructor
  · intro s t rd ra rb hs ha hb hd he
    obtain ⟨v, hup, hdown, hv⟩ := shift_by_zero (rd := rd) hs ha hb hd he
    exact ⟨v, v, hup, hdown, rfl, hv⟩
  · intro s t rd ra rb hs ha hne hb he hkept
    have hw : (s.reg ra).wf s.cfg := hs.2.1 ra
    cases t with
    | sys sgn n =>
      refine shift_up_down hs ha hne hb he trivial fun _ _ _ => ?_
      cases sgn with
      | true => exact inDomain_up_signed hw ha hkept.1 hkept.2
      | false => exact inDomain_up_unsigned hw ha hkept.1 hkept.2
    | arb sgn => exact shift_up_down hs ha hne hb he hkept (by rintro _ _ ⟨⟩)

end Sys2Proof.Machine
end

section
/-! PROOFS. The statements of 45_multiply.md: distributivity of `MUL` over `ADD` on payloads (R173). -/

namespace Sys2Proof.Machine

variable {c : Config} {s : State} {t : Ty} {r : Reg} {a a' b b' : Int}

/-! ### Integers with one pattern

Under a systems type a record keeps its integer modulo `2^L` only, also when the command overflowed, so what is read
back from it is another integer with the same pattern. Addition and multiplication do not see the difference. -/

/-- The two integers have one pattern under the type. -/
def samePattern (c : Config) (t : Ty) (a b : Int) : Prop :=
  match t with
  | .sys _ n => a ≡ b [ZMOD 2 ^ bitLen c n]
  | .arb _ => a = b

theorem samePattern_refl (c : Config) (t : Ty) (a : Int) : samePattern c t a a := by
  cases t with
  | sys sgn n => exact Int.ModEq.refl a
  | arb sgn => rfl

theorem samePattern_add (ha : samePattern c t a a') (hb : samePattern c t b b') :
    samePattern c t (a + b) (a' + b') := by
  cases t with
  | sys sgn n => exact Int.ModEq.add ha hb
  | arb sgn => exact congrArg₂ (· + ·) ha hb

theorem samePattern_mul (ha : samePattern c t a a') (hb : samePattern c t b b') :
    samePattern c t (a * b) (a' * b') := by
  cases t with
  | sys sgn n => exact Int.ModEq.mul ha hb
  | arb sgn => exact congrArg₂ (· * ·) ha hb

theorem inCapacity_of_samePattern (h : samePattern c t a b) (hb : inCapacity c t b) : inCapacity c t a := by
  cases t with
  | sys sgn n => trivial
  | arb sgn =>
    have hab : a = b := h
    rwa [hab]

/-- What a record holds is a matter of the pattern only. -/
theorem holds_of_samePattern (h : holds c t r a) (hab : samePattern c t a b) : holds c t r b := by
  cases t with
  | sys sgn n =>
    obtain ⟨hwords, hlen, happ, hnat⟩ := h
    exact ⟨hwords, hlen, happ, hnat.trans hab⟩
  | arb sgn =>
    have hab : a = b := hab
    rwa [← hab]

/-- A record reads as an integer with the pattern it holds. -/
theorem valueOf_samePattern_of_holds (h : holds c t r a) : samePattern c t (valueOf c t r) a := by
  cases t with
  | sys sgn n =>
    obtain ⟨-, -, -, hnat⟩ := h
    calc valueOf c (.sys sgn n) r % 2 ^ bitLen c n
        = (r.nat c : Int) % 2 ^ bitLen c n := valueOf_sys_mod c sgn n r
      _ = a % 2 ^ bitLen c n := by rw [hnat, Int.emod_emod]
  | arb sgn => exact valueOf_of_holds_arb h

/-! ### Registers that stand for integers -/

/-- The register can be an operand under the type, is finite, and reads as an integer with the pattern of `a`. -/
structure StandsFor (c : Config) (t : Ty) (r : Reg) (a : Int) : Prop where
  readable : readable t r
  finite : isInfinite t r = false
  pattern : samePattern c t (valueOf c t r) a

/-- An integer that a finite `ux` register stands for is not negative. -/
theorem StandsFor.nonneg (hw : r.wf c) (h : StandsFor c (.arb false) r a) : 0 ≤ a := by
  have hread : valueOf c (.arb false) r = a := h.pattern
  exact hread ▸ valueOf_inDomain hw h.readable h.finite

theorem StandsFor.of_holds (h : holds c t r a) (hpos : t = .arb false → 0 ≤ a) : StandsFor c t r a := by
  refine ⟨holds_readable h, ?_, valueOf_samePattern_of_holds h⟩
  cases t with
  | sys sgn n => exact isInfinite_sys sgn n r
  | arb sgn =>
    cases sgn with
    | true => exact isInfinite_sx r
    | false =>
      have hread : valueOf c (.arb false) r = a := valueOf_of_holds_arb h
      have happ := (valueOf_arb_neg_iff (holds_wf h rfl) false).not.1 (by rw [hread]; exact not_lt.2 (hpos rfl))
      rwa [isInfinite_ux, ← Bool.not_eq_true]

/-! ### Programs of `ADD` and `MUL` that write one register after another

A valuation gives the integer of every register. A program follows it from register `k` on when each command writes the
next register, from earlier ones, and the valuation has the sum or the product there. -/

/-- The registers below `k` stand for their integers, and those from 4 on hold them: `v0` to `v3` are the operands, and
only a result need be in normal form. -/
structure Tracks (t : Ty) (val : RegNum → Int) (k : Nat) (s : State) : Prop where
  ready : s.ready
  earlier : ∀ q : RegNum, q.val < k → StandsFor s.cfg t (s.reg q) (val q)
  results : ∀ q : RegNum, 4 ≤ q.val → q.val < k → holds s.cfg t (s.reg q) (val q)

/-- The program writes the registers from `k` on with the sums and products that the valuation has there, all within the
capacity. -/
inductive Follows (c : Config) (t : Ty) (val : RegNum → Int) : Nat → List Instr → Prop where
  | nil (k : Nat) : Follows c t val k []
  | add {rd ra rb : RegNum} {prog : List Instr} (ha : ra < rd) (hb : rb < rd) (hval : val rd = val ra + val rb)
      (hc : inCapacity c t (val rd)) (rest : Follows c t val (rd + 1) prog) :
      Follows c t val rd (.add t rd ra rb :: prog)
  | mul {rd ra rb : RegNum} {prog : List Instr} (ha : ra < rd) (hb : rb < rd) (hval : val rd = val ra * val rb)
      (hc : inCapacity c t (val rd)) (rest : Follows c t val (rd + 1) prog) :
      Follows c t val rd (.mul t rd ra rb :: prog)

/-- Writing a stored register with a clear response keeps a ready state ready. -/
theorem ready_write (hs : s.ready) (rd : RegNum) {v : Reg} (hv : v.wf s.cfg) : (s.write rd v).ready := by
  obtain ⟨hfault, hregs, hslots, hcause, -, hdin⟩ := hs
  refine ⟨hfault, fun q => ?_, hslots, hcause, s.cfg.B_pos, hdin⟩
  obtain rfl | hne := eq_or_ne q rd
  · rwa [State.reg_write_self]
  · rw [State.reg_write_ne _ _ _ _ hne]
    exact hregs q

section
variable {val : RegNum → Int} {rd ra rb : RegNum}

theorem tracks_write {v : Reg} (h : Tracks t val rd s) (hv : v.wf s.cfg) (hholds : holds s.cfg t v (val rd))
    (hpos : t = .arb false → 0 ≤ val rd) : Tracks t val (rd + 1) (s.write rd v) := by
  have old : ∀ q : RegNum, q.val < rd.val → (s.write rd v).reg q = s.reg q := fun q hq =>
    State.reg_write_ne _ _ _ _ (Fin.ne_of_lt hq)
  have new_or_old : ∀ q : RegNum, q.val < rd.val + 1 → q = rd ∨ q.val < rd.val := fun q hq =>
    (Nat.lt_succ_iff_lt_or_eq.1 hq).symm.imp_left Fin.ext
  refine ⟨ready_write h.ready rd hv, fun q hq => ?_, fun q hge hq => ?_⟩
  · obtain rfl | hlt := new_or_old q hq
    · rw [State.reg_write_self]
      exact .of_holds hholds hpos
    · rw [old q hlt]
      exact h.earlier q hlt
  · obtain rfl | hlt := new_or_old q hq
    · rwa [State.reg_write_self]
    · rw [old q hlt]
      exact h.results q hge hlt

/-- A command on two finite operands writes the next register, when its operation respects patterns and keeps
non-negative integers non-negative. -/
theorem binaryFinite_tracks {f : Int → Int → Int}
    (hpat : ∀ {a a' b b'}, samePattern s.cfg t a a' → samePattern s.cfg t b b' →
      samePattern s.cfg t (f a b) (f a' b'))
    (hpos : ∀ {a b : Int}, 0 ≤ a → 0 ≤ b → 0 ≤ f a b)
    (h : Tracks t val rd s) (ha : ra < rd) (hb : rb < rd) (hval : val rd = f (val ra) (val rb))
    (hc : inCapacity s.cfg t (val rd)) :
    ∃ v, binaryFinite f t rd ra rb s = .next (s.write rd v) ∧ Tracks t val (rd + 1) (s.write rd v) := by
  have hsa := h.earlier ra ha
  have hsb := h.earlier rb hb
  have hwa : (s.reg ra).wf s.cfg := h.ready.2.1 ra
  have hwb : (s.reg rb).wf s.cfg := h.ready.2.1 rb
  have hsame := hpat hsa.pattern hsb.pattern
  rw [hval] at hc
  obtain ⟨v, -, hexec, hholds, -, -⟩ := binaryFinite_next (rd := rd) f h.ready hsa.readable hsb.readable hsa.finite
    hsb.finite (inCapacity_of_samePattern hsame hc)
  refine ⟨v, hexec, tracks_write h (holds_wf hholds (fits_of_readable hwa hsa.readable)) ?_ ?_⟩
  · rw [hval]
    exact holds_of_samePattern hholds hsame
  · rintro rfl
    rw [hval]
    exact hpos (hsa.nonneg hwa) (hsb.nonneg hwb)

theorem execAll_cons_tracks {k : Nat} {i : Instr} {prog : List Instr} {s₁ : State} (hi : exec i s = .next s₁)
    (h : ∃ s', execAll prog s₁ = .next s' ∧ s'.cfg = c ∧ Tracks t val (k + 1 + prog.length) s') :
    ∃ s', execAll (i :: prog) s = .next s' ∧ s'.cfg = c ∧ Tracks t val (k + (i :: prog).length) s' := by
  rw [Nat.add_assoc, Nat.add_comm 1] at h
  simpa only [execAll, hi, List.length_cons] using h

/-- A program that follows the valuation completes, and all its results hold the integers of the valuation. -/
theorem execAll_tracks {k : Nat} {prog : List Instr} (hprog : Follows c t val k prog) :
    ∀ {s : State}, s.cfg = c → Tracks t val k s →
      ∃ s', execAll prog s = .next s' ∧ s'.cfg = c ∧ Tracks t val (k + prog.length) s' := by
  induction hprog with
  | nil k => exact fun hcfg h => ⟨_, rfl, hcfg, h⟩
  | add ha hb hval hc _ ih =>
    rintro s rfl h
    obtain ⟨v, hexec, hnext⟩ := binaryFinite_tracks samePattern_add Int.add_nonneg h ha hb hval hc
    exact execAll_cons_tracks hexec (ih rfl hnext)
  | mul ha hb hval hc _ ih =>
    rintro s rfl h
    obtain ⟨v, hexec, hnext⟩ := binaryFinite_tracks samePattern_mul Int.mul_nonneg h ha hb hval hc
    exact execAll_cons_tracks hexec (ih rfl hnext)

end

/-! ### Distributivity -/

/-- The integers of the registers in the two computations of `(a + b) * (c + d)`. -/
def distributionValues (a b c d : Int) : RegNum → Int :=
  ![a, b, c, d, a + b, c + d, (a + b) * (c + d), a * c, a * d, b * c, b * d, a * c + a * d, b * c + b * d,
    a * c + a * d + (b * c + b * d), 0, 0]

theorem distributionValues_final_eq (a b c d : Int) :
    distributionValues a b c d 13 = distributionValues a b c d 6 := by
  show a * c + a * d + (b * c + b * d) = (a + b) * (c + d)
  ring

/-- The ten commands of R173: the product of the sums in `v6`, the sum of the products in `v13`. -/
def distributionProgram (t : Ty) : List Instr :=
  [.add t 4 0 1, .add t 5 2 3, .mul t 6 4 5, .mul t 7 0 2, .mul t 8 0 3, .mul t 9 1 2, .mul t 10 1 3, .add t 11 7 8,
    .add t 12 9 10, .add t 13 11 12]

/-- The integer of the last sum needs no capacity of its own: it is that of the product of the sums. -/
theorem distributionProgram_follows {conf : Config} {a b c d : Int}
    (hcap : ∀ v ∈ [a + b, c + d, (a + b) * (c + d), a * c, a * d, b * c, b * d, a * c + a * d, b * c + b * d],
      inCapacity conf t v) :
    Follows conf t (distributionValues a b c d) 4 (distributionProgram t) := by
  simp only [List.forall_mem_cons] at hcap
  obtain ⟨h4, h5, h6, h7, h8, h9, h10, h11, h12, -⟩ := hcap
  have h13 : inCapacity conf t (distributionValues a b c d 13) := distributionValues_final_eq a b c d ▸ h6
  exact
    .add (rd := 4) (by decide) (by decide) rfl h4 <|
    .add (rd := 5) (by decide) (by decide) rfl h5 <|
    .mul (rd := 6) (by decide) (by decide) rfl h6 <|
    .mul (rd := 7) (by decide) (by decide) rfl h7 <|
    .mul (rd := 8) (by decide) (by decide) rfl h8 <|
    .mul (rd := 9) (by decide) (by decide) rfl h9 <|
    .mul (rd := 10) (by decide) (by decide) rfl h10 <|
    .add (rd := 11) (by decide) (by decide) rfl h11 <|
    .add (rd := 12) (by decide) (by decide) rfl h12 <|
    .add (rd := 13) (by decide) (by decide) rfl h13 <|
    .nil 14

/-- Settles O47: the program follows `distributionValues`, so `v6` and `v13` hold the integers that distributivity makes
equal, and one integer has one payload. -/
theorem distributivity : Obligations.Distributivity := by
  rintro s t a b c d hs hops ha hb hc hd hcap
  have hvalues : ∀ q : RegNum, q.val < 4 → valueOf s.cfg t (s.reg q) = distributionValues a b c d q
    | 0, _ => ha.symm
    | 1, _ => hb.symm
    | 2, _ => hc.symm
    | 3, _ => hd.symm
  have hstart : Tracks t (distributionValues a b c d) 4 s := by
    refine ⟨hs, fun q hq => ?_, fun q hge hlt => absurd hlt (not_lt.2 hge)⟩
    obtain ⟨hread, hfin⟩ := hops q hq
    exact ⟨hread, hfin, hvalues q hq ▸ samePattern_refl _ _ _⟩
  obtain ⟨s', hrun, -, htracks⟩ := execAll_tracks (distributionProgram_follows hcap) rfl hstart
  have hproduct := htracks.results 6 (by decide) (show 6 < 14 by decide)
  have hsum := htracks.results 13 (by decide) (show 13 < 14 by decide)
  rw [distributionValues_final_eq] at hsum
  exact ⟨s', hrun, holds_unique hproduct hsum⟩

end Sys2Proof.Machine
end

section
/-! PROOFS. The statements of 47_reciprocal.md: the constants of a reciprocal divider are exact (R201). -/

namespace Sys2Proof.Machine

variable {d ll k mul : Nat}

/-! ### Multiply and shift in place of division

Division by `d` is multiplication by `1/d`, for which the constants have the nearby fraction `mul / p`. It is slightly
too large when `mul` was rounded up and slightly too small when it was rounded down, and then one more `mul` is added.
The error of `x` multiples must stay below `p`. -/

theorem mul_div_eq_div_of_round_up {p e x : Nat} (hd : 0 < d) (hmul : mul * d = p + e) (he : x * e < p) :
    x * mul / p = x / d := by
  have hp : 0 < p := by omega
  have hx : x * mul * d = x * p + x * e := by rw [mul_assoc, hmul, mul_add]
  have hlo : x / d * d ≤ x := Nat.div_mul_le_self x d
  have hhi : x + 1 ≤ (x / d + 1) * d := Nat.lt_mul_of_div_lt (Nat.lt_succ_self _) hd
  refine Nat.div_eq_of_lt_le (Nat.le_of_mul_le_mul_right ?_ hd) (Nat.lt_of_mul_lt_mul_right (a := d) ?_)
  · calc x / d * p * d = x / d * d * p := by ring
      _ ≤ x * p := Nat.mul_le_mul_right p hlo
      _ ≤ x * mul * d := by omega
  · calc x * mul * d < (x + 1) * p := by rw [hx, add_mul, one_mul]; omega
      _ ≤ (x / d + 1) * d * p := Nat.mul_le_mul_right p hhi
      _ = (x / d + 1) * p * d := by ring

theorem succ_mul_div_eq_div_of_round_down {p e x : Nat} (hd : 0 < d) (hmul : mul * d + e = p) (hpos : 0 < e)
    (he : (x + 1) * e ≤ p) : (x + 1) * mul / p = x / d := by
  have hx : (x + 1) * mul * d + (x + 1) * e = (x + 1) * p := by rw [mul_assoc, ← mul_add, hmul]
  have hpos' : 0 < (x + 1) * e := Nat.mul_pos x.succ_pos hpos
  have hlo : x / d * d ≤ x := Nat.div_mul_le_self x d
  have hhi : x + 1 ≤ (x / d + 1) * d := Nat.lt_mul_of_div_lt (Nat.lt_succ_self _) hd
  refine Nat.div_eq_of_lt_le (Nat.le_of_mul_le_mul_right ?_ hd) (Nat.lt_of_mul_lt_mul_right (a := d) ?_)
  · calc x / d * p * d = x / d * d * p := by ring
      _ ≤ x * p := Nat.mul_le_mul_right p hlo
      _ ≤ (x + 1) * mul * d := by rw [Nat.succ_mul x p] at hx; omega
  · calc (x + 1) * mul * d < (x + 1) * p := by omega
      _ ≤ (x / d + 1) * d * p := Nat.mul_le_mul_right p hhi
      _ = (x / d + 1) * p * d := by ring

/-! ### Exact constants -/

/-- The multiplier fills `ll` bits; multiply, add and shift stay within `2*ll` bits and give every quotient
(47_reciprocal.md R201). -/
def ExactConstants (d ll k mul : Nat) (add : Bool) : Prop :=
  2 ^ (ll - 1) ≤ mul ∧ mul < 2 ^ ll ∧
    ∀ x < 2 ^ ll, x * mul + (if add then mul else 0) < 2 ^ (2 * ll) ∧
      (x * mul + (if add then mul else 0)) / 2 ^ (ll + k) = x / d

theorem mul_add_lt_of_mul_lt {x : Nat} (add : Bool) (hmul : mul < 2 ^ ll) (hx : x < 2 ^ ll) :
    x * mul + (if add then mul else 0) < 2 ^ (2 * ll) :=
  calc x * mul + (if add then mul else 0) ≤ (x + 1) * mul := by rw [add_mul, one_mul]; split <;> omega
    _ ≤ 2 ^ ll * mul := Nat.mul_le_mul_right mul hx
    _ < 2 ^ ll * 2 ^ ll := Nat.mul_lt_mul_of_pos_left hmul (Nat.two_pow_pos ll)
    _ = 2 ^ (2 * ll) := by rw [two_mul, pow_add]

/-- A multiplier rounded up, by at most `2^k` parts. -/
theorem exactConstants_round_up {e : Nat} (hd : 0 < d) (hlo : 2 ^ (ll - 1) ≤ mul) (hhi : mul < 2 ^ ll)
    (hmul : mul * d = 2 ^ (ll + k) + e) (he : e ≤ 2 ^ k) : ExactConstants d ll k mul false := by
  refine ⟨hlo, hhi, fun x hx => ⟨mul_add_lt_of_mul_lt false hhi hx, ?_⟩⟩
  have herror : x * e < 2 ^ (ll + k) :=
    calc x * e ≤ x * 2 ^ k := Nat.mul_le_mul_left x he
      _ < 2 ^ ll * 2 ^ k := Nat.mul_lt_mul_of_pos_right hx (Nat.two_pow_pos k)
      _ = 2 ^ (ll + k) := (pow_add 2 ll k).symm
  simpa using mul_div_eq_div_of_round_up hd hmul herror

/-- A multiplier rounded down, by at most `2^k` parts. -/
theorem exactConstants_round_down {e : Nat} (hd : 0 < d) (hlo : 2 ^ (ll - 1) ≤ mul) (hhi : mul < 2 ^ ll)
    (hmul : mul * d + e = 2 ^ (ll + k)) (hpos : 0 < e) (he : e ≤ 2 ^ k) : ExactConstants d ll k mul true := by
  refine ⟨hlo, hhi, fun x hx => ⟨mul_add_lt_of_mul_lt true hhi hx, ?_⟩⟩
  have herror : (x + 1) * e ≤ 2 ^ (ll + k) :=
    calc (x + 1) * e ≤ 2 ^ ll * 2 ^ k := Nat.mul_le_mul hx he
      _ = 2 ^ (ll + k) := (pow_add 2 ll k).symm
  simpa [add_mul] using succ_mul_div_eq_div_of_round_down hd hmul hpos herror

/-! ### The three cases of the construction -/

theorem rcpConst_of_eq_pow (h : d = 2 ^ d.log2) : rcpConst d ll = (2 ^ ll - 1, true, ll + d.log2) := by
  simp only [rcpConst, if_pos h]

theorem rcpConst_of_small_excess (h : d ≠ 2 ^ d.log2) (hup : d - 2 ^ (ll + d.log2) % d ≤ 2 ^ d.log2) :
    rcpConst d ll = (2 ^ (ll + d.log2) / d + 1, false, ll + d.log2) := by
  simp only [rcpConst, if_neg h, ← Nat.mod_eq_sub_div_mul, if_pos hup]

theorem rcpConst_of_large_excess (h : d ≠ 2 ^ d.log2) (hdown : 2 ^ d.log2 < d - 2 ^ (ll + d.log2) % d) :
    rcpConst d ll = (2 ^ (ll + d.log2) / d, true, ll + d.log2) := by
  simp only [rcpConst, if_neg h, ← Nat.mod_eq_sub_div_mul, if_neg (not_le.2 hdown)]

/-- Only powers of two divide a power of two. -/
theorem two_pow_mod_pos (h : d ≠ 2 ^ d.log2) (m : Nat) : 0 < 2 ^ m % d := by
  refine Nat.pos_of_ne_zero fun hzero => h ?_
  obtain ⟨j, -, rfl⟩ := (Nat.dvd_prime_pow Nat.prime_two).1 (Nat.dvd_of_mod_eq_zero hzero)
  rw [Nat.log2_two_pow]

theorem two_pow_pred_le_div (hd : 0 < d) (hll : 0 < ll) (hk : d ≤ 2 ^ (k + 1)) :
    2 ^ (ll - 1) ≤ 2 ^ (ll + k) / d := by
  rw [Nat.le_div_iff_mul_le hd]
  calc 2 ^ (ll - 1) * d ≤ 2 ^ (ll - 1) * 2 ^ (k + 1) := Nat.mul_le_mul_left _ hk
    _ = 2 ^ (ll + k) := by rw [← pow_add]; congr 1; omega

/-- A divisor strictly between two powers of two leaves room to round the multiplier up. -/
theorem div_le_two_pow_sub_two (hk : 2 ^ k < d) (hd : d < 2 ^ ll) : 2 ^ (ll + k) / d ≤ 2 ^ ll - 2 := by
  obtain ⟨m, hm⟩ : ∃ m, 2 ^ ll = m + 1 := ⟨2 ^ ll - 1, by omega⟩
  have hmul : 2 ^ (ll + k) < m * d := by
    rw [pow_add, hm, add_mul, one_mul]
    have := Nat.mul_le_mul_left m hk
    rw [Nat.mul_succ] at this
    omega
  have := Nat.div_lt_of_lt_mul (mul_comm m d ▸ hmul)
  omega

/-! ### The construction is exact -/

section
variable (hd : 1 ≤ d) (hll : d < 2 ^ ll)
include hd hll

theorem log2_lt_of_lt_two_pow : d.log2 < ll := (Nat.log2_lt (by omega)).2 hll

theorem exactConstants_of_eq_pow (h : d = 2 ^ d.log2) : ExactConstants d ll d.log2 (2 ^ ll - 1) true := by
  have hk := log2_lt_of_lt_two_pow hd hll
  have hhalf : 2 ^ ll = 2 ^ (ll - 1) + 2 ^ (ll - 1) := by rw [← two_mul, ← pow_succ']; congr 1; omega
  have hpos := Nat.two_pow_pos (ll - 1)
  refine exactConstants_round_down (e := d) hd (by omega) (by omega) ?_ hd h.le
  rw [pow_add, ← h, Nat.sub_mul, one_mul]
  exact Nat.sub_add_cancel (Nat.le_mul_of_pos_left d (Nat.two_pow_pos ll))

/-- The bounds of the rounded-down multiplier, and that it is no exact reciprocal. -/
theorem quotient_bounds_of_ne_pow (h : d ≠ 2 ^ d.log2) :
    2 ^ (ll - 1) ≤ 2 ^ (ll + d.log2) / d ∧ 2 ^ (ll + d.log2) / d ≤ 2 ^ ll - 2 ∧ 0 < 2 ^ (ll + d.log2) % d :=
  have hk := log2_lt_of_lt_two_pow hd hll
  ⟨two_pow_pred_le_div hd (by omega) Nat.lt_log2_self.le,
    div_le_two_pow_sub_two (lt_of_le_of_ne (Nat.log2_self_le (by omega)) h.symm) hll, two_pow_mod_pos h _⟩

theorem exactConstants_of_small_excess (h : d ≠ 2 ^ d.log2) (hup : d - 2 ^ (ll + d.log2) % d ≤ 2 ^ d.log2) :
    ExactConstants d ll d.log2 (2 ^ (ll + d.log2) / d + 1) false := by
  obtain ⟨hlo, hhi, -⟩ := quotient_bounds_of_ne_pow hd hll h
  have hhalf := Nat.two_pow_pos (ll - 1)
  have hdivmod := Nat.div_add_mod' (2 ^ (ll + d.log2)) d
  have hmod : 2 ^ (ll + d.log2) % d < d := Nat.mod_lt _ hd
  refine exactConstants_round_up hd (by omega) (by omega) ?_ hup
  rw [add_mul, one_mul]
  omega

theorem exactConstants_of_large_excess (h : d ≠ 2 ^ d.log2) (hdown : 2 ^ d.log2 < d - 2 ^ (ll + d.log2) % d) :
    ExactConstants d ll d.log2 (2 ^ (ll + d.log2) / d) true := by
  obtain ⟨hlo, hhi, hpos⟩ := quotient_bounds_of_ne_pow hd hll h
  have hwidth : d < 2 ^ d.log2 * 2 := Nat.lt_log2_self
  have htwo := Nat.two_pow_pos ll
  exact exactConstants_round_down hd hlo (by omega) (Nat.div_add_mod' _ d) hpos (by omega)

end

/-- Settles O57: by the three cases of the construction. A power of two counts as rounded down, by the whole divisor. -/
theorem rcpConstantsAreExact : Obligations.RcpConstantsAreExact := by
  intro d ll hd hll
  have hle : 2 ^ d.log2 ≤ d := Nat.log2_self_le (by omega)
  have hlt : d < 2 ^ (d.log2 + 1) := Nat.lt_log2_self
  have hk := log2_lt_of_lt_two_pow hd hll
  by_cases hpow : d = 2 ^ d.log2
  · exact ⟨d.log2, _, _, rcpConst_of_eq_pow hpow, hle, hlt, hk, fun _ => ⟨rfl, rfl⟩, fun h => absurd hpow h,
      fun h => absurd hpow h, fun h => absurd hpow h, exactConstants_of_eq_pow hd hll hpow⟩
  have hbounds := quotient_bounds_of_ne_pow hd hll hpow
  obtain hup | hdown := le_or_gt (d - 2 ^ (ll + d.log2) % d) (2 ^ d.log2)
  · exact ⟨d.log2, _, _, rcpConst_of_small_excess hpow hup, hle, hlt, hk, fun h => absurd h hpow,
      fun _ _ => ⟨rfl, rfl⟩, fun _ h => absurd hup (not_le.2 h), fun _ => hbounds,
      exactConstants_of_small_excess hd hll hpow hup⟩
  · exact ⟨d.log2, _, _, rcpConst_of_large_excess hpow hdown, hle, hlt, hk, fun h => absurd h hpow,
      fun _ h => absurd h (not_le.2 hdown), fun _ _ => ⟨rfl, rfl⟩, fun _ => hbounds,
      exactConstants_of_large_excess hd hll hpow hdown⟩

end Sys2Proof.Machine
end

section
/-! PROOFS. The statements of 47_reciprocal.md: reciprocal division writes what division writes (R206). The six commands
are each brought to one description of unsigned division, `State.divided`. -/

namespace Sys2Proof.Machine

variable {s : State} {c : Config} {n : Size} {rd re rx rv rd' re' : RegNum} {k : SlotNum} {k21 : Bool}

/-! ### Unsigned division -/

/-- The flag of both results: the OR of the operands' flags and of a quotient too large for the type
(46_divide.md R180, R185). -/
def divisionFlag (c : Config) (n : Size) (a b : Reg) : Bool :=
  a.err || b.err || decide (2 ^ bitLen c n ≤ a.nat c / b.nat c)

def quotientRecord (c : Config) (n : Size) (a b : Reg) : Reg :=
  sysrec c (words n) ((a.nat c / b.nat c : Nat) : Int) (divisionFlag c n a b)

def remainderRecord (c : Config) (n : Size) (a b : Reg) : Reg :=
  sysrec c (words n) ((a.nat c % b.nat c : Nat) : Int) (divisionFlag c n a b)

/-- The state after an unsigned division of `x[rx]` by `x[rv]`. -/
def State.divided (s : State) (n : Size) (rd re rx rv : RegNum) : State :=
  s.write2 rd (quotientRecord s.cfg n (s.reg rx) (s.reg rv)) re (remainderRecord s.cfg n (s.reg rx) (s.reg rv)) 0

@[simp] theorem State.divided_cfg (s : State) (n : Size) (rd re rx rv : RegNum) :
    (s.divided n rd re rx rv).cfg = s.cfg := rfl

@[simp] theorem State.divided_fault (s : State) (n : Size) (rd re rx rv : RegNum) :
    (s.divided n rd re rx rv).fault = s.fault := rfl

theorem State.reg_divided_ne {q : RegNum} (s : State) (n : Size) (rx rv : RegNum) (hd : q ≠ rd) (he : q ≠ re) :
    (s.divided n rd re rx rv).reg q = s.reg q := by
  simp [State.divided, State.reg_write2, hd, he]

theorem State.reg_divided_quotient (s : State) (n : Size) (rx rv : RegNum) (h : rd ≠ re) :
    (s.divided n rd re rx rv).reg rd = quotientRecord s.cfg n (s.reg rx) (s.reg rv) :=
  State.reg_write2_fst _ _ _ _ _ _ h

@[simp] theorem State.reg_divided_remainder (s : State) (n : Size) (rd re rx rv : RegNum) :
    (s.divided n rd re rx rv).reg re = remainderRecord s.cfg n (s.reg rx) (s.reg rv) :=
  State.reg_write2_snd _ _ _ _ _ _

/-- Unsigned division of `x[rx]`, of `2N` Words for the `21` commands and otherwise of `N`, by `x[rv]` completes. -/
structure Divisible (k21 : Bool) (n : Size) (rx rv : RegNum) (s : State) : Prop where
  running : s.fault = false
  dividend_wf : (s.reg rx).wf s.cfg
  dividend_len : (s.reg rx).len = if k21 then 2 * words n else words n
  divisor_wf : (s.reg rv).wf s.cfg
  divisor_len : (s.reg rv).len = words n
  divisor_ne_zero : (s.reg rv).nat s.cfg ≠ 0

/-- A division that replaces neither operand leaves it possible to divide again. -/
theorem Divisible.after_divided (h : Divisible k21 n rx rv s) (hdx : rd ≠ rx) (hdv : rd ≠ rv) (hex : re ≠ rx)
    (hev : re ≠ rv) : Divisible k21 n rx rv (s.divided n rd re rx rv) := by
  have hx := s.reg_divided_ne n rx rv hdx.symm hex.symm
  have hv := s.reg_divided_ne n rx rv hdv.symm hev.symm
  obtain ⟨hrun, hxwf, hxlen, hvwf, hvlen, hne⟩ := h
  exact ⟨hrun, hx ▸ hxwf, hx ▸ hxlen, hv ▸ hvwf, hv ▸ hvlen, hv ▸ hne⟩

/-! ### The division commands -/

theorem opnd_unsigned_ok {r : Reg} (h : r.len = words n) : opnd c (.sys false n) r = .ok ((r.nat c : Int), false) := by
  simp only [opnd, sysnat_ok h]
  rfl

theorem tdiv_natCast (a b : Nat) : tdiv (a : Int) (b : Int) = ((a / b : Nat) : Int) := (Int.ofNat_tdiv a b).symm

theorem trem_natCast (a b : Nat) : trem (a : Int) (b : Int) = ((a % b : Nat) : Int) := by
  rw [trem_eq_tmod, Int.ofNat_tmod]

theorem overflows_unsigned_natCast (c : Config) (n : Size) (q : Nat) :
    overflows c (.sys false n) q = decide (2 ^ bitLen c n ≤ q) := by
  have hdomain : inDomain c (.sys false n) (q : Int) ↔ q < 2 ^ bitLen c n :=
    ⟨fun h => by exact_mod_cast h.2, fun h => ⟨Int.natCast_nonneg q, by exact_mod_cast h⟩⟩
  rw [Bool.eq_iff_iff, decide_eq_true_iff, ← not_iff_not, Bool.not_eq_true, overflows_eq_false, hdomain, not_le]

theorem natCast_bne_zero {b : Nat} (h : b ≠ 0) : ((b : Int) != 0) = true := by simpa using h

/-- The quotient and the remainder of two finite values, with the overflow that `DIV21` tests as well. -/
theorem divide_finite_sys (c : Config) (sgn : Bool) (n : Size) (a b : Int) :
    divide c (.sys sgn n) a false b false = (tdiv a b, trem a b, overflows c (.sys sgn n) (tdiv a b)) := rfl

theorem div_next (h : Divisible false n rx rv s) :
    exec (.div (.sys false n) rd re rx rv) s = .next (s.divided n rd re rx rv) := by
  refine command_ok h.running ?_
  simp only [opnd_unsigned_ok h.dividend_len, opnd_unsigned_ok h.divisor_len, bind_ok, Bool.and_self, Bool.not_false,
    Bool.false_or, natCast_bne_zero h.divisor_ne_zero, check_true, divide_finite_sys, tdiv_natCast, trem_natCast,
    overflows_unsigned_natCast, res, pure_ok]
  rfl

theorem div21_next (h : Divisible true n rx rv s) :
    exec (.div21 false n rd re rx rv) s = .next (s.divided n rd re rx rv) := by
  have hlen : (s.reg rx).len = 2 * words n := h.dividend_len
  refine command_ok h.running ?_
  simp only [sysnat_ok hlen, opnd_unsigned_ok h.divisor_len, bind_ok, Bool.false_eq_true, if_false,
    natCast_bne_zero h.divisor_ne_zero, check_true, tdiv_natCast, trem_natCast, overflows_unsigned_natCast, pure_ok]
  rfl

/-! ### The reciprocal commands -/

/-- The slot that construction writes for a divisor register (47_reciprocal.md R200, R203). -/
def dividerOf (c : Config) (k21 : Bool) (n : Size) (r : Reg) : Slot :=
  let (mul, add, shift) := rcpConst (r.nat c) (if k21 then 2 * bitLen c n else bitLen c n)
  { valid := true, k21, size := words n, divisor := r.nat c, mul, add, shift, err := r.err }

/-- The constants of R201 divide. -/
theorem rcpQuotient_eq_div {d : Slot} {ll x : Nat} (hd : 1 ≤ d.divisor) (hll : d.divisor < 2 ^ ll)
    (hconst : (d.mul, d.add, d.shift) = rcpConst d.divisor ll) (hx : x < 2 ^ ll) :
    rcpQuotient d x = x / d.divisor := by
  obtain ⟨k, mul, add, heq, -, -, -, -, -, -, -, -, -, hexact⟩ := rcpConstantsAreExact d.divisor ll hd hll
  simp only [heq, Prod.mk.injEq] at hconst
  obtain ⟨hmul, hadd, hshift⟩ := hconst
  simp only [rcpQuotient, hmul, hadd, hshift]
  exact (hexact x hx).2

theorem rcpConstruct_next (h : Divisible k21 n rx rv s) :
    rcpConstruct k21 n k rv s = .next ((s.setSlot k (dividerOf s.cfg k21 n (s.reg rv))).answer 0 false) := by
  refine command_ok h.running ?_
  simp only [sysnat_ok h.divisor_len, bind_ok, if_neg h.divisor_ne_zero, pure_ok]
  rfl

/-- Construction writes no register. -/
theorem Divisible.after_construct (h : Divisible k21 n rx rv s) (k : SlotNum) (d : Slot) :
    Divisible k21 n rx rv ((s.setSlot k d).answer 0 false) := by
  obtain ⟨hrun, hxwf, hxlen, hvwf, hvlen, hne⟩ := h
  exact ⟨hrun, hxwf, hxlen, hvwf, hvlen, hne⟩

theorem Divisible.dividend_lt (h : Divisible k21 n rx rv s) :
    (s.reg rx).nat s.cfg < 2 ^ (if k21 then 2 * bitLen s.cfg n else bitLen s.cfg n) := by
  have hlt := Reg.nat_lt h.dividend_wf.2
  rw [h.dividend_len] at hlt
  cases k21 with
  | false => exact hlt
  | true => simpa [bitLen, mul_assoc] using hlt

theorem Divisible.divisor_lt (h : Divisible k21 n rx rv s) :
    (s.reg rv).nat s.cfg < 2 ^ (if k21 then 2 * bitLen s.cfg n else bitLen s.cfg n) :=
  lt_of_lt_of_le (Reg.nat_lt_bitLen h.divisor_wf h.divisor_len)
    (Nat.pow_le_pow_right (by omega) (by split <;> omega))

theorem rcpQuotient_dividerOf (h : Divisible k21 n rx rv s) :
    rcpQuotient (dividerOf s.cfg k21 n (s.reg rv)) ((s.reg rx).nat s.cfg) =
      (s.reg rx).nat s.cfg / (s.reg rv).nat s.cfg :=
  rcpQuotient_eq_div (d := dividerOf s.cfg k21 n (s.reg rv)) (Nat.pos_of_ne_zero h.divisor_ne_zero) h.divisor_lt rfl
    h.dividend_lt

/-- A Divider's quotient always fits: only a Divider21 tests for overflow. -/
theorem own_flag_eq_overflow (h : Divisible k21 n rx rv s) :
    (k21 && decide (2 ^ bitLen s.cfg n ≤ (s.reg rx).nat s.cfg / (s.reg rv).nat s.cfg)) =
      decide (2 ^ bitLen s.cfg n ≤ (s.reg rx).nat s.cfg / (s.reg rv).nat s.cfg) := by
  cases k21 with
  | true => rfl
  | false => exact (decide_eq_false (not_le.2 (lt_of_le_of_lt (Nat.div_le_self _ _) h.dividend_lt))).symm

theorem natCast_sub_div_mul (x d : Nat) : (x : Int) - ((x / d : Nat) : Int) * d = ((x % d : Nat) : Int) := by
  rw [← trem_natCast, trem_eq, Int.ofNat_tdiv]

theorem rcpApply_next (h : Divisible k21 n rx rv s) (hslot : s.slot k = dividerOf s.cfg k21 n (s.reg rv)) :
    rcpApply k21 n rd re rx k s = .next (s.divided n rd re rx rv) := by
  have hcheck : ((dividerOf s.cfg k21 n (s.reg rv)).valid && (dividerOf s.cfg k21 n (s.reg rv)).k21 == k21 &&
      (dividerOf s.cfg k21 n (s.reg rv)).size == words n) = true := by simp [dividerOf]
  refine command_ok h.running ?_
  simp only [sysnat_ok h.dividend_len, bind_ok, hslot, hcheck, check_true, rcpQuotient_dividerOf h,
    own_flag_eq_overflow h, pure_ok]
  exact congrArg (fun r => Except.ok (s.write2 rd _ re (sysrec s.cfg (words n) r _) 0)) (natCast_sub_div_mul _ _)

/-! ### Comparing the two divisions -/

/-- `FEQ` answers 1 on two registers with one record (41_overflow_contract.md R132). -/
theorem feq_of_reg_eq {ra rb : RegNum} (hf : s.fault = false) (hlen : (s.reg ra).len = words n)
    (heq : s.reg rb = s.reg ra) : exec (.feq (.sys false n) ra rb) s = .next (s.answer 1 false) := by
  refine command_ok hf ?_
  simp only [heq, opnd_unsigned_ok hlen, bind_ok, pure_ok]
  simp [bitWord]

/-- After the same division into two pairs of registers, each pair of results is one record. -/
theorem feq_of_divided_twice (hf : s.fault = false) (hdx : rd ≠ rx) (hdv : rd ≠ rv) (hex : re ≠ rx) (hev : re ≠ rv)
    (hde : rd ≠ re) (hd'e' : rd' ≠ re') (hdd : rd' ≠ rd) (hd'e : rd' ≠ re) (he'd : re' ≠ rd) (hee : re' ≠ re)
    {u : State} (hu : u = (s.divided n rd re rx rv).divided n rd' re' rx rv) :
    exec (.feq (.sys false n) rd rd') u = .next (u.answer 1 false) ∧
      exec (.feq (.sys false n) re re') u = .next (u.answer 1 false) := by
  have hx := s.reg_divided_ne n rx rv hdx.symm hex.symm
  have hv := s.reg_divided_ne n rx rv hdv.symm hev.symm
  have hq : u.reg rd = quotientRecord s.cfg n (s.reg rx) (s.reg rv) := by
    rw [hu, State.reg_divided_ne _ _ _ _ hdd.symm he'd.symm, State.reg_divided_quotient _ _ _ _ hde]
  have hr : u.reg re = remainderRecord s.cfg n (s.reg rx) (s.reg rv) := by
    rw [hu, State.reg_divided_ne _ _ _ _ hd'e.symm hee.symm, State.reg_divided_remainder]
  have hq' : u.reg rd' = u.reg rd := by
    rw [hq, hu, State.reg_divided_quotient _ _ _ _ hd'e', hx, hv, State.divided_cfg]
  have hr' : u.reg re' = u.reg re := by
    rw [hr, hu, State.reg_divided_remainder, hx, hv, State.divided_cfg]
  have hfu : u.fault = false := by rw [hu]; exact hf
  exact ⟨feq_of_reg_eq hfu (hq ▸ sysrec_len _ _ _ _) hq', feq_of_reg_eq hfu (hr ▸ sysrec_len _ _ _ _) hr'⟩

/-- Settles O60: after construction, application and division all lead to `State.divided`, and the operands stand for
the second division. -/
theorem reciprocalEqualsDivision : Obligations.ReciprocalEqualsDivision := by
  intro s n rd re rd' re' rx rv k hs hvlen hne hdx hdv hex hev hde hd'e' hdd hd'e he'd hee
  obtain ⟨hrun, hregs, -⟩ := hs
  constructor
  · intro hxlen
    have hstart : Divisible false n rx rv s := ⟨hrun, hregs rx, hxlen, hregs rv, hvlen, hne⟩
    have hbuilt := hstart.after_construct k (dividerOf s.cfg false n (s.reg rv))
    exact ⟨_, _, _, rcpConstruct_next hstart, rcpApply_next hbuilt (State.slot_setSlot_self _ _ _), div_next hbuilt,
      hbuilt.running, div_next (hbuilt.after_divided hdx hdv hex hev),
      feq_of_divided_twice hbuilt.running hdx hdv hex hev hde hd'e' hdd hd'e he'd hee rfl⟩
  · intro hxlen
    have hstart : Divisible true n rx rv s := ⟨hrun, hregs rx, hxlen, hregs rv, hvlen, hne⟩
    have hbuilt := hstart.after_construct k (dividerOf s.cfg true n (s.reg rv))
    exact ⟨_, _, _, rcpConstruct_next hstart, rcpApply_next hbuilt (State.slot_setSlot_self _ _ _), div21_next hbuilt,
      hbuilt.running, div21_next (hbuilt.after_divided hdx hdv hex hev),
      feq_of_divided_twice hbuilt.running hdx hdv hex hev hde hd'e' hdd hd'e he'd hee rfl⟩

end Sys2Proof.Machine
end

section
/-! PROOFS. The statements of 60_exceptions.md: the fault state is left by reset only (R231). With it, which words the
decoder takes for the two reads that answer in the fault state, and what any word does outside and inside it (R221). -/

namespace Sys2Proof.Machine

variable {c : Config} {s t : State} {i : Instr} {w : Cmd} {k : Cause}

/-! ### Words the decoder takes -/

section
open Sys2Proof.Laws

/-- Whatever the reader of a word answers has the property. -/
def Yields (P : Instr → Prop) (x : Except Reject Instr) : Prop := ∀ i, x = .ok i → P i

theorem Yields.bind {P : Instr → Prop} {α : Type} {x : Except Reject α} {f : α → Except Reject Instr}
    (h : ∀ a, Yields P (f a)) : Yields P (x >>= f) := fun i hi => by
  obtain ⟨a, -, ha⟩ := bind_eq_ok.1 hi
  exact h a i ha

theorem Yields.pure {P : Instr → Prop} (h : P i) : Yields P (pure i) := by
  rintro _ ⟨⟩
  exact h

theorem Yields.error {P : Instr → Prop} (e : Reject) : Yields P (.error e) := by
  rintro _ ⟨⟩

/-- Each row of the parser builds its own command. -/
theorem parseOp_yields_opOf (o : Op) (w : Cmd) : Yields (fun i => opOf i = o) (parseOp o w) := by
  cases o
  case contract =>
    refine .bind fun _ => .bind fun _ => .bind fun _ => ?_
    split
    · exact .pure rfl
    · exact .pure rfl
    · exact .pure rfl
    · exact .error _
  case guard =>
    refine .bind fun _ => .bind fun _ => .bind fun _ => ?_
    split
    · exact .pure rfl
    · exact .pure rfl
    · exact .pure rfl
    · exact .error _
  all_goals
    repeat refine Yields.bind fun _ => ?_
    exact .pure rfl

theorem code_of_ofCode {code : Nat} {o : Op} (h : Op.ofCode code = some o) : code = o.code := by
  have hmap : ∀ p ∈ opcodeMap, p.1 = p.2.code := by decide
  obtain ⟨p, hfind, rfl⟩ := Option.map_eq_some_iff.1 h
  rw [← hmap p (List.mem_of_find?_eq_some hfind)]
  exact (beq_iff_eq.1 (List.find?_some hfind :)).symm

theorem require_eq_ok {ok : Bool} {why : Reject} {u : Unit} : require ok why = .ok u ↔ ok = true := by
  cases ok <;> simp [require]

theorem untyped_eq_ok {u : Unit} : untyped w = .ok u ↔ slice w 13 6 = 0 := by
  rw [untyped, require_eq_ok, beq_iff_eq]

theorem unused_eq_ok {hi lo : Nat} {u : Unit} : unused w hi lo = .ok u ↔ slice w hi lo = 0 := by
  rw [unused, require_eq_ok, beq_iff_eq]

/-- A decoded word has the opcode of its command, and its fields spell the command. -/
theorem parse_of_decode (h : decode c w = .ok i) :
    slice w 5 0 = (opOf i).code ∧ parseOp (opOf i) w = .ok i := by
  obtain ⟨i', hparse, hadm⟩ := bind_eq_ok.1 h
  obtain ⟨-, -, hi⟩ := bind_eq_ok.1 hadm
  obtain rfl := ok_inj.1 hi
  simp only [parse] at hparse
  split at hparse
  next o ho =>
    obtain rfl := parseOp_yields_opOf o w _ hparse
    exact ⟨code_of_ofCode ho, hparse⟩
  next => cases hparse

theorem decode_rdstat_iff : decode c w = .ok .rdstat ↔ w = 0x00000030#32 := by
  constructor
  · intro h
    obtain ⟨hcode, hfields⟩ := parse_of_decode h
    have hop : slice w 5 0 = 0x30 := hcode
    obtain ⟨_, huntyped, hfields⟩ := bind_eq_ok.1 hfields
    obtain ⟨_, hunused, -⟩ := bind_eq_ok.1 hfields
    have hlow := untyped_eq_ok.1 huntyped
    have hhigh := unused_eq_ok.1 hunused
    simp only [slice] at hop hlow hhigh
    apply BitVec.eq_of_toNat_eq
    have := w.isLt
    rw [BitVec.toNat_ofNat]
    omega
  · rintro rfl
    have hparse : parse 0x00000030#32 = .ok .rdstat := by decide
    simp only [decode, hparse]
    rfl

theorem decode_rdcfg {idx : BitVec 12} (h : decode c w = .ok (.rdcfg idx)) :
    slice w 5 0 = 0x31 ∧ slice w 19 6 = 0 := by
  obtain ⟨hcode, hfields⟩ := parse_of_decode h
  obtain ⟨_, huntyped, hfields⟩ := bind_eq_ok.1 hfields
  obtain ⟨_, hunused, -⟩ := bind_eq_ok.1 hfields
  have hlow := untyped_eq_ok.1 huntyped
  have hhigh := unused_eq_ok.1 hunused
  refine ⟨hcode, ?_⟩
  simp only [slice] at hlow hhigh ⊢
  omega

theorem decode_eq_rdcfg (hop : slice w 5 0 = 0x31) (hzero : slice w 19 6 = 0) :
    decode c w = .ok (.rdcfg (idxOf w)) := by
  have hfields : slice w 13 6 = 0 ∧ slice w 19 14 = 0 := by
    simp only [slice] at hzero ⊢
    omega
  have hcode : Op.ofCode 0x31 = some .rdcfg := by decide
  have huntyped : untyped w = .ok () := untyped_eq_ok.2 hfields.1
  have hunused : unused w 19 14 = .ok () := unused_eq_ok.2 hfields.2
  simp only [decode, parse, hop, hcode, parseOp, huntyped, hunused]
  rfl

theorem idxOf_toNat (w : Cmd) : (idxOf w).toNat = slice w 31 20 :=
  (BitVec.toNat_ofNat _ _).trans (Nat.mod_eq_of_lt (Nat.mod_lt _ (by decide)))

end

/-! ### What a word does to the state -/

theorem issue_ok (h : decode s.cfg w = .ok i) : issue w s = exec i s := by
  simp only [issue, h]

theorem issue_illegal (h : ∀ i, decode s.cfg w ≠ .ok i) : issue w s = execIllegal s := by
  simp only [issue]
  split
  next i hi => exact absurd hi (h i)
  next => rfl

/-- Outside the fault state a word leads into it by the fault entry of R221 only. -/
theorem eq_raise_of_issue (hf : s.fault = false) (h : issue w s = .next t) (ht : t.fault = true) :
    ∃ k, t = s.raise k := by
  have hne : t.fault ≠ s.fault := by simp [hf, ht]
  by_cases hw : ∃ i, decode s.cfg w = .ok i
  · obtain ⟨i, hi⟩ := hw
    rw [issue_ok hi] at h
    obtain ⟨_, _, rfl⟩ | ⟨-, hraise⟩ | ⟨-, _, _, -, rfl⟩ | ⟨-, _, _, _, _, _, -, rfl⟩ | ⟨-, _, _, -, rfl⟩ :=
      exec_cases h
    · exact absurd rfl hne
    · exact hraise
    · exact absurd rfl hne
    · exact absurd rfl hne
    · exact absurd rfl hne
  · rw [issue_illegal (not_exists.1 hw), execIllegal, command_error hf rfl] at h
    cases h
    exact ⟨_, rfl⟩

/-- In the fault state a word changes the response at most. -/
theorem eq_answer_of_issue (hf : s.fault = true) (h : issue w s = .next t) : ∃ d z, t = s.answer d z := by
  have hrun : s.fault ≠ false := by simp [hf]
  by_cases hw : ∃ i, decode s.cfg w = .ok i
  · obtain ⟨i, hi⟩ := hw
    rw [issue_ok hi] at h
    obtain hanswer | ⟨h, -⟩ | ⟨h, -⟩ | ⟨h, -⟩ | ⟨h, -⟩ := exec_cases h
    · exact hanswer
    all_goals exact absurd h hrun
  · rw [issue_illegal (not_exists.1 hw), execIllegal, command_fault hf] at h
    cases h
    exact ⟨0, false, rfl⟩

/-- Every command but the two reads of status and configuration runs in the frame of `command`. -/
theorem exec_ignored (hf : s.fault = true) (hstat : i ≠ .rdstat) (hcfg : ∀ idx, i ≠ .rdcfg idx) :
    exec i s = .next (s.answer 0 false) := by
  cases i
  case rdstat => exact absurd rfl hstat
  case rdcfg idx => exact absurd rfl (hcfg idx)
  case wrapp | rdlen | rde | veto | unwrap =>
    simp only [exec, execWrapp, execRdlen, execRde, execVeto, execUnwrap]
    exact command_fault hf _
  all_goals exact command_fault hf _

theorem issue_ignored (hf : s.fault = true) (hstat : w ≠ 0x00000030#32)
    (hcfg : ¬(slice w 5 0 = 0x31 ∧ slice w 19 6 = 0)) : issue w s = .next (s.answer 0 false) := by
  by_cases hw : ∃ i, decode s.cfg w = .ok i
  · obtain ⟨i, hi⟩ := hw
    rw [issue_ok hi]
    refine exec_ignored hf ?_ ?_
    · rintro rfl
      exact hstat (decode_rdstat_iff.1 hi)
    · rintro idx rfl
      exact hcfg (decode_rdcfg hi)
  · rw [issue_illegal (not_exists.1 hw)]
    exact command_fault hf _

theorem issue_rdstat_of_fault (hf : s.fault = true) :
    issue 0x00000030#32 s = .next (s.answer (1 + 2 * s.fcause.toNat) false) := by
  rw [issue_ok (decode_rdstat_iff.2 rfl)]
  simp only [exec, execRdstat, State.statusWord, hf, Bool.toNat_true]

theorem issue_rdcfg (hop : slice w 5 0 = 0x31) (hzero : slice w 19 6 = 0) :
    issue w s = .next (s.answer (cfgWord s.cfg (slice w 31 20)) false) := by
  rw [issue_ok (decode_eq_rdcfg hop hzero)]
  simp only [exec, execRdcfg, idxOf_toNat]

/-- Settles O13: of the three things the host can do, presenting a command changes the response only, presenting nothing
changes nothing, and the third is reset. -/
theorem onlyResetLeavesTheFaultState : Obligations.OnlyResetLeavesTheFaultState := by
  intro s t hf h
  cases hin : s.input with
  | nil =>
    simp only [step, hin] at h
    cases h
    exact .inl ⟨hf, rfl, rfl, rfl⟩
  | cons action rest =>
    cases action with
    | reset =>
      rw [step_reset hin] at h
      cases h
      exact .inr ⟨rest, rfl, rfl⟩
    | command w d =>
      simp only [step, hin] at h
      obtain ⟨x, z, rfl⟩ := eq_answer_of_issue (s := s.present d rest) hf h
      exact .inl ⟨hf, rfl, rfl, rfl⟩

end Sys2Proof.Machine
end

section
/-! PROOFS. The statements of 60_exceptions.md: the first failing check is reported (R223). Here, what that means for a
list of causes, and that the shapes shared by several commands do it. -/

namespace Sys2Proof.Machine

variable {c : Config} {s : State} {t ts td : Ty} {i : Instr} {k : Cause} {rd re ra rb : RegNum} {n : Size}
  {sgn k21 : Bool} {V : Cause → Prop} {ks : List Cause} {r : Result}

/-! ### The first of several causes -/

/-- Of the causes in the list, `r` reports the first that `V` says is violated; when there is none it completes. -/
def ReportsFirst (s : State) (V : Cause → Prop) (r : Result) : List Cause → Prop
  | [] => ∃ t, r = .next t ∧ t.fault = false
  | k :: ks => (V k ∧ r = .next (s.raise k)) ∨ (¬V k ∧ ReportsFirst s V r ks)

theorem ReportsFirst.test (hfail : V k → r = .next (s.raise k)) (hpass : ¬V k → ReportsFirst s V r ks) :
    ReportsFirst s V r (k :: ks) :=
  (em (V k)).imp (fun h => ⟨h, hfail h⟩) fun h => ⟨h, hpass h⟩

/-- A cause that cannot be violated. Where a command has no such precondition `violates` is `False`, and `id` proves its
negation. -/
theorem ReportsFirst.skip (hk : ¬V k) (h : ReportsFirst s V r ks) : ReportsFirst s V r (k :: ks) := .inr ⟨hk, h⟩

/-- In a list ordered by code, the first violated cause is the least. -/
theorem ReportsFirst.eq_raise (hsorted : ks.Pairwise fun k k' => k.code < k'.code) (h : ReportsFirst s V r ks)
    (hmem : k ∈ ks) (hk : V k) (hleast : ∀ k' : Cause, k'.code < k.code → ¬V k') : r = .next (s.raise k) := by
  induction ks with
  | nil => cases hmem
  | cons k' ks ih =>
    obtain ⟨hbelow, hsorted⟩ := List.pairwise_cons.1 hsorted
    obtain ⟨hk', hr⟩ | ⟨hk', h⟩ := h
    · obtain rfl | htail := List.mem_cons.1 hmem
      · exact hr
      · exact absurd hk' (hleast k' (hbelow k htail))
    · obtain rfl | htail := List.mem_cons.1 hmem
      · exact absurd hk hk'
      · exact ih hsorted h htail

theorem ReportsFirst.completes (h : ReportsFirst s V r ks) (hV : ∀ k, ¬V k) : ∃ t, r = .next t ∧ t.fault = false := by
  induction ks with
  | nil => exact h
  | cons k ks ih =>
    obtain ⟨hk, -⟩ | ⟨-, h⟩ := h
    · exact absurd hk (hV k)
    · exact ih h

/-- The causes a command can raise, in the order of their codes (60_exceptions.md R220). -/
def commandCauses : List Cause := [.operand, .slot, .finite, .divzero, .index, .capacity]

theorem commandCauses_sorted : commandCauses.Pairwise fun k k' => k.code < k'.code := by decide

theorem mem_commandCauses (h : violates s i k) : k ∈ commandCauses := by
  cases k
  case illegal => exact h.elim
  all_goals decide

/-! ### The length check -/

/-- One of the registers has not the length asked of it: with `requiredLengths i` for the list this is
`violates s i .operand`, which the proofs below use as such. -/
def LengthsFail (s : State) (ps : List (RegNum × Nat)) : Prop := ∃ p ∈ ps, (s.reg p.1).len ≠ p.2

theorem not_lengthsFail_nil : ¬LengthsFail s [] := by simp [LengthsFail]

theorem lengthsFail_single {m : Nat} : LengthsFail s [(ra, m)] ↔ (s.reg ra).len ≠ m := by simp [LengthsFail]

theorem lengthsFail_append {ps qs : List (RegNum × Nat)} :
    LengthsFail s (ps ++ qs) ↔ LengthsFail s ps ∨ LengthsFail s qs := by
  simp [LengthsFail, or_and_right, exists_or]

theorem lengthsFail_lengthOf : LengthsFail s (lengthOf t ra) ↔ ¬readable t (s.reg ra) := by
  cases t with
  | sys sgn n => exact lengthsFail_single
  | arb sgn => exact iff_of_false not_lengthsFail_nil (not_not.2 trivial)

theorem lengthsFail_lengthOf_two :
    LengthsFail s (lengthOf t ra ++ lengthOf t rb) ↔ ¬readable t (s.reg ra) ∨ ¬readable t (s.reg rb) := by
  rw [lengthsFail_append, lengthsFail_lengthOf, lengthsFail_lengthOf]

theorem lengthsFail_pair {m m' : Nat} :
    LengthsFail s [(ra, m), (rb, m')] ↔ (s.reg ra).len ≠ m ∨ (s.reg rb).len ≠ m' := by
  simp [LengthsFail]

theorem readable_both (h : ¬(¬readable t (s.reg ra) ∨ ¬readable t (s.reg rb))) :
    readable t (s.reg ra) ∧ readable t (s.reg rb) := by
  rwa [not_or, not_not, not_not] at h

/-! ### Shapes of commands -/

theorem command_completes {body : Except Cause State} (hf : s.fault = false)
    (hb : ∃ u, body = .ok u ∧ u.fault = false) : ∃ t, command s body = .next t ∧ t.fault = false := by
  obtain ⟨u, hbody, hu⟩ := hb
  exact ⟨u, command_ok hf hbody, hu⟩

theorem reportsFirst_operand_only (hlen : V .operand → r = .next (s.raise .operand))
    (hrest : ¬V .slot ∧ ¬V .finite ∧ ¬V .divzero ∧ ¬V .index ∧ ¬V .capacity)
    (hok : ¬V .operand → ∃ t, r = .next t ∧ t.fault = false) : ReportsFirst s V r commandCauses :=
  have ⟨hslot, hfin, hdiv, hidx, hcap⟩ := hrest
  .test hlen fun h => .skip hslot (.skip hfin (.skip hdiv (.skip hidx (.skip hcap (hok h)))))

/-- A command that computes from one read of a length-checked register and has no other precondition. -/
theorem reportsFirst_read {α : Type} {x : Except Cause α} {f : α → Except Cause State} {a : α}
    {good : Prop} (hf : s.fault = false) (hlen : V .operand ↔ ¬good) (hbad : ¬good → x = .error .operand)
    (hgood : good → x = .ok a) (hok : good → ∃ u, f a = .ok u ∧ u.fault = false)
    (hrest : ¬V .slot ∧ ¬V .finite ∧ ¬V .divzero ∧ ¬V .index ∧ ¬V .capacity) :
    ReportsFirst s V (command s (x >>= f)) commandCauses := by
  refine reportsFirst_operand_only (fun h => ?_) hrest fun h => ?_
  · exact command_error hf (by rw [hbad (hlen.1 h), bind_error])
  · have hg := not_not.1 (hlen.not.1 h)
    exact command_completes hf (by rw [hgood hg, bind_ok]; exact hok hg)

/-- As `reportsFirst_read`, where the length check is all that the read can fail. -/
theorem reportsFirst_checkLen {α : Type} {a : α} {f : α → Except Cause State} (hf : s.fault = false)
    (hlen : V .operand ↔ ¬readable t (s.reg ra)) (hok : ∃ u, f a = .ok u ∧ u.fault = false)
    (hrest : ¬V .slot ∧ ¬V .finite ∧ ¬V .divzero ∧ ¬V .index ∧ ¬V .capacity) :
    ReportsFirst s V (command s ((checkLen t (s.reg ra) >>= fun _ => pure a) >>= f)) commandCauses :=
  reportsFirst_read hf hlen (fun h => by rw [checkLen_error h, bind_error])
    (fun h => by rw [checkLen_ok h, bind_ok, pure_ok]) (fun _ => hok) hrest

theorem binaryFinite_reportsFirst (f : Int → Int → Int) (hs : s.ready)
    (hlen : V .operand ↔ ¬readable t (s.reg ra) ∨ ¬readable t (s.reg rb)) (hslot : ¬V .slot)
    (hfin : V .finite ↔ isInfinite t (s.reg ra) = true ∨ isInfinite t (s.reg rb) = true) (hdiv : ¬V .divzero)
    (hidx : ¬V .index)
    (hcap : V .capacity ↔ ¬inCapacity s.cfg t (f (valueOf s.cfg t (s.reg ra)) (valueOf s.cfg t (s.reg rb)))) :
    ReportsFirst s V (binaryFinite f t rd ra rb s) commandCauses := by
  refine .test (fun h => binaryFinite_operand f hs.1 hs.2 (hlen.1 h)) fun h => .skip hslot ?_
  obtain ⟨ha, hb⟩ := readable_both (hlen.not.1 h)
  refine .test (fun h => binaryFinite_finite f hs ha hb (hfin.1 h)) fun h => .skip hdiv (.skip hidx ?_)
  obtain ⟨hia, hib⟩ := not_or.1 (hfin.not.1 h)
  rw [Bool.not_eq_true] at hia hib
  refine .test (fun h => binaryFinite_capacity f hs ha hb hia hib (hcap.1 h)) fun h => ?_
  obtain ⟨v, -, hnext, -⟩ := binaryFinite_next (rd := rd) f hs ha hb hia hib (not_not.1 (hcap.not.1 h))
  exact ⟨_, hnext, hs.1⟩

theorem unary_reportsFirst (f : Int → Int) (own : Int → Bool) (hs : s.ready)
    (hlen : V .operand ↔ ¬readable t (s.reg ra)) (hrest : ¬V .slot ∧ ¬V .finite ∧ ¬V .divzero ∧ ¬V .index)
    (hcap : readable t (s.reg ra) → (V .capacity ↔ ¬inCapacity s.cfg t (f (valueOf s.cfg t (s.reg ra))))) :
    ReportsFirst s V (unary f own t rd ra s) commandCauses := by
  obtain ⟨hslot, hfin, hdiv, hidx⟩ := hrest
  refine .test (fun h => unary_operand f own hs.1 (hlen.1 h)) fun h =>
    .skip hslot (.skip hfin (.skip hdiv (.skip hidx ?_)))
  have ha := not_not.1 (hlen.not.1 h)
  refine .test (fun h => unary_capacity f own hs ha ((hcap ha).1 h)) fun h => ?_
  obtain ⟨v, hnext, -⟩ := unary_next (rd := rd) f own hs ha (not_not.1 ((hcap ha).not.1 h))
  exact ⟨_, hnext, hs.1⟩

theorem counting_reportsFirst (count : Reg → Count) (hs : s.ready) (hlen : V .operand ↔ ¬readable t (s.reg ra))
    (hcount : ∀ m, count (s.reg ra) = .finite m → m ≤ storedBits s.cfg t (s.reg ra))
    (hrest : ¬V .slot ∧ ¬V .finite ∧ ¬V .divzero ∧ ¬V .index ∧ ¬V .capacity) :
    ReportsFirst s V (counting count t rd ra s) commandCauses := by
  refine reportsFirst_operand_only (fun h => counting_operand hs.1 (hlen.1 h)) hrest fun h => ?_
  have ha := not_not.1 (hlen.not.1 h)
  have hbits := storedBits_le (hs.2.1 ra) ha
  obtain ⟨v, hnext, -⟩ := counting_next (rd := rd) hs.1 ha fun m hm => (hcount m hm).trans (by omega)
  exact ⟨_, hnext, hs.1⟩

theorem maskedShift_reportsFirst (f : Int → Nat → Int) (hs : s.ready) (hlen : V .operand ↔ (s.reg ra).len ≠ words n)
    (hslot : ¬V .slot) (hfin : V .finite ↔ (s.reg rb).app = true)
    (hrest : ¬V .divzero ∧ ¬V .index ∧ ¬V .capacity) :
    ReportsFirst s V (maskedShift f sgn n rd ra rb s) commandCauses := by
  obtain ⟨hdiv, hidx, hcap⟩ := hrest
  refine .test (fun h => command_error hs.1 ?_) fun h => .skip hslot ?_
  · simp only [opnd_error (t := .sys sgn n) (hlen.1 h), bind_error]
  have ha : readable (.sys sgn n) (s.reg ra) := not_not.1 (hlen.not.1 h)
  refine .test (fun h => command_error hs.1 ?_) fun h =>
    .skip hdiv (.skip hidx (.skip hcap (command_completes hs.1 ?_)))
  · simp only [opnd_ok (hs.2.1 ra) ha, bind_ok, rdCount_infinite (hfin.1 h)]
  · have happ := Bool.not_eq_true _ ▸ hfin.not.1 h
    simp only [opnd_ok (hs.2.1 ra) ha, bind_ok, rdCount_finite happ, pure_ok]
    exact ⟨_, rfl, hs.1⟩

theorem rcpConstruct_reportsFirst (hs : s.ready) (hlen : V .operand ↔ (s.reg ra).len ≠ words n)
    (hrest : ¬V .slot ∧ ¬V .finite ∧ ¬V .divzero ∧ ¬V .index ∧ ¬V .capacity) (j : SlotNum) :
    ReportsFirst s V (rcpConstruct k21 n j ra s) commandCauses := by
  refine reportsFirst_operand_only (fun h => command_error hs.1 ?_) hrest fun h => ?_
  · simp only [sysnat_error (hlen.1 h), bind_error]
  have hread := sysnat_ok (c := s.cfg) (not_not.1 (hlen.not.1 h))
  by_cases hzero : (s.reg ra).nat s.cfg = 0
  · exact command_completes hs.1 (by simp only [hread, bind_ok, if_pos hzero, pure_ok]; exact ⟨_, rfl, hs.1⟩)
  · exact command_completes hs.1 (by simp only [hread, bind_ok, if_neg hzero, pure_ok]; exact ⟨_, rfl, hs.1⟩)

theorem rcpApply_reportsFirst (hs : s.ready) {j : SlotNum}
    (hlen : V .operand ↔ (s.reg ra).len ≠ if k21 then 2 * words n else words n)
    (hslot : V .slot ↔ ¬((s.slot j).valid = true ∧ (s.slot j).k21 = k21 ∧ (s.slot j).size = words n))
    (hrest : ¬V .finite ∧ ¬V .divzero ∧ ¬V .index ∧ ¬V .capacity) :
    ReportsFirst s V (rcpApply k21 n rd re ra j s) commandCauses := by
  have hcheck : ((s.slot j).valid && (s.slot j).k21 == k21 && (s.slot j).size == words n) = true ↔ ¬V .slot := by
    simp [hslot, and_assoc]
  obtain ⟨hfin, hdiv, hidx, hcap⟩ := hrest
  refine .test (fun h => command_error hs.1 ?_) fun h => ?_
  · simp only [sysnat_error (hlen.1 h), bind_error]
  have hread := sysnat_ok (c := s.cfg) (not_not.1 (hlen.not.1 h))
  refine .test (fun h => command_error hs.1 ?_) fun h =>
    .skip hfin (.skip hdiv (.skip hidx (.skip hcap (command_completes hs.1 ?_))))
  · have hfail := Bool.not_eq_true _ ▸ hcheck.not.2 (not_not.2 h)
    simp only [hread, bind_ok, hfail, check_false, bind_error]
  · simp only [hread, bind_ok, hcheck.2 h, check_true, pure_ok]
    exact ⟨_, rfl, hs.1⟩

end Sys2Proof.Machine
end

section
/-! PROOFS. The statements of 60_exceptions.md: every command reports its first failing check (R223), and fault entry
records its cause (R221). -/

namespace Sys2Proof.Machine

variable {c : Config} {s : State} {t ts td : Ty} {i : Instr} {k : Cause} {rd re ra rb : RegNum} {n : Size}
  {sgn k21 : Bool} {V : Cause → Prop} {ks : List Cause} {r : Result} {x : Reg} {v : Int} {u : State} {w : Cmd}

/-! ### Counts -/

theorem countOf_le {bit : Bool} {m : Nat} (h : countOf c t x bit = .finite m) : m ≤ storedBits c t x := by
  have hle := (List.range (storedBits c t x)).countP_le_length (p := fun i => effBitOf c t x i == bit)
  rw [List.length_range] at hle
  cases t with
  | sys sgn n =>
    cases h
    exact hle
  | arb sgn =>
    simp only [countOf] at h
    split at h
    · cases h
    · cases h
      exact hle

theorem ascendingOf_le {bit : Bool} {m : Nat} (h : ascendingOf c t x bit = .finite m) : m ≤ storedBits c t x := by
  cases t with
  | sys sgn n =>
    simp only [ascendingOf, Count.finite.injEq] at h
    subst h
    cases hfind : (List.range (bitLen c n)).find? fun i => effBitOf c (.sys sgn n) x i != bit with
    | none => exact le_rfl
    | some j => exact (List.mem_range.1 (List.mem_of_find?_eq_some hfind)).le
  | arb sgn =>
    simp only [ascendingOf] at h
    split at h
    next j hfind =>
      cases h
      exact Nat.lt_succ_iff.1 (List.mem_range.1 (List.mem_of_find?_eq_some hfind))
    next => cases h

theorem descendingOf_le {bit : Bool} {m : Nat} (h : descendingOf c t x bit = .finite m) :
    m ≤ storedBits c t x := by
  cases t with
  | sys sgn n =>
    cases h
    refine (List.takeWhile_sublist _).length_le.trans ?_
    rw [List.length_reverse, List.length_range]
    rfl
  | arb sgn =>
    simp only [descendingOf] at h
    split at h
    · cases h
    · cases h
      exact Nat.zero_le _

/-! ### Results that always fit -/

theorem inCapacity_compl (h : inCapacity c t v) : inCapacity c t (-v - 1) := by
  cases t with
  | sys sgn n => trivial
  | arb sgn =>
    obtain ⟨hlo, hhi⟩ := h
    constructor <;> linarith

/-- The integer of a stored register fits every type: its pattern has no more Words than the register. -/
theorem valueOf_inCapacity_any (hw : x.wf c) (h : readable ts x) : inCapacity c td (valueOf c ts x) := by
  cases td with
  | sys sgn n => trivial
  | arb sgn =>
    cases ts with
    | arb sgn' => exact valueOf_arb_inCapacity hw sgn
    | sys sgn' n =>
      have hlen : words n ≤ c.CAP := h.symm.trans_le hw.1
      have hpow : (2 : Int) ^ bitLen c n ≤ (c.B : Int) ^ c.CAP := by
        rw [c.B_pow_int]
        exact pow_le_pow_right₀ (by norm_num) (Nat.mul_le_mul_right _ hlen)
      obtain ⟨hlo, hhi⟩ := inDomain_bounds (valueOf_sys_inDomain (sgn := sgn') hw h)
      constructor <;> linarith

theorem shiftDown_inCapacity (hw : x.wf c) (h : readable t x) (d : Count) :
    inCapacity c t (shiftDown c t (valueOf c t x) d) := by
  cases d with
  | infinite =>
    rw [shiftDown_infinite]
    split
    · exact inCapacity_neg_one c t
    · exact inCapacity_zero c t
  | finite d =>
    rw [shiftDown_finite _ _ (by rintro sgn n rfl; exact valueOf_sys_inDomain hw h)]
    exact inCapacity_ediv d (valueOf_inCapacity hw h)

/-- As `inCapacity_tdiv`, for a divisor of either sign. -/
theorem inCapacity_tdiv_of_nonneg (h : inCapacity c t v) (hv : 0 ≤ v) (b : Int) : inCapacity c t (v.tdiv b) := by
  cases t with
  | sys sgn n => trivial
  | arb sgn =>
    obtain ⟨hlo, hhi⟩ := h
    have habs : |v.tdiv b| ≤ |v| := by
      rw [Int.abs_eq_natAbs, Int.abs_eq_natAbs, Int.natAbs_tdiv]
      exact_mod_cast Nat.div_le_self _ _
    rw [abs_of_nonneg hv] at habs
    obtain ⟨h1, h2⟩ := abs_le.1 habs
    constructor <;> linarith

/-- The shift amount of a valid slot fits a count: it is below twice the dividend's bits (47_reciprocal.md R201). -/
theorem slot_shift_le {d : Slot} (hd : d.wf c) (hvalid : d.valid = true) : d.shift ≤ 8192 := by
  obtain ⟨-, hsize, hpos, hlt, hconst⟩ := hd hvalid
  have hbits : d.dividendBits c ≤ 4096 :=
    calc d.dividendBits c ≤ 64 * 64 := Nat.mul_le_mul (hsize.trans c.CAP_le) c.W_le
      _ = 4096 := rfl
  have hwidth : d.size * c.W ≤ d.dividendBits c := Nat.mul_le_mul_right _ (by split <;> omega)
  have hlt := lt_of_lt_of_le hlt (Nat.pow_le_pow_right (by norm_num) hwidth)
  obtain ⟨k, mul, add, heq, -, -, hk, -⟩ := rcpConstantsAreExact d.divisor (d.dividendBits c) hpos hlt
  rw [heq] at hconst
  simp only [Prod.mk.injEq] at hconst
  omega

/-! ### One operand -/

theorem init_reportsFirst (hs : s.ready) :
    ReportsFirst s (violates s (.init t rd)) (execInit t rd s) commandCauses := by
  obtain ⟨v, hv, -⟩ := res_ok (e := false) (inCapacity_zero s.cfg t)
  refine reportsFirst_operand_only (absurd · not_lengthsFail_nil) ⟨id, id, id, id, id⟩
    fun _ => command_completes hs.1 ?_
  rw [hv]
  exact ⟨_, rfl, hs.1⟩

theorem cvt_reportsFirst (hs : s.ready) :
    ReportsFirst s (violates s (.cvt ts td rd ra)) (execCvt ts td rd ra s) commandCauses := by
  refine reportsFirst_read hs.1 lengthsFail_lengthOf opnd_error (opnd_ok (hs.2.1 ra)) (fun ha => ?_)
    ⟨id, id, id, id, id⟩
  obtain ⟨v, hv, -⟩ := res_ok (e := (s.reg ra).err ||
    conversionLoses s.cfg td (valueOf s.cfg ts (s.reg ra)) (isInfinite ts (s.reg ra)))
    (valueOf_inCapacity_any (td := td) (hs.2.1 ra) ha)
  simp only [hv, bind_ok, pure_ok]
  exact ⟨_, rfl, hs.1⟩

/-! ### Element writes -/

theorem elemWr_arb_inRange {w j d : Nat} (h : w * j / c.W < c.CAP) : ∃ y, elemWr c (.arb sgn) x w j d = .ok y := by
  simp only [elemWr, if_neg (not_le.2 h)]
  exact ⟨_, rfl⟩

theorem wrw_sys_reportsFirst (hs : s.ready) (vw : View) (idx : BitVec 12) :
    ReportsFirst s (violates s (.wrw (.sys sgn n) ra vw idx)) (execWrw (.sys sgn n) ra vw idx s) commandCauses := by
  refine .test (fun h => command_error hs.1 ?_) fun h => .skip id (.skip id (.skip id ?_))
  · rw [elemWr_sys_operand (lengthsFail_single.1 h), bind_error]
  have hlen := not_not.1 (lengthsFail_single.not.1 h)
  refine .test (fun h => command_error hs.1 ?_) fun h => .skip id (command_completes hs.1 ?_)
  · rw [elemWr_sys_index hlen h, bind_error]
  · obtain ⟨v, hv, -⟩ := elemWr_sys_ok (sgn := sgn) (d := s.din) (hs.2.1 ra) hlen (not_not.1 h)
    rw [hv]
    exact ⟨_, rfl, hs.1⟩

theorem wrw_arb_reportsFirst (hs : s.ready) (vw : View) (idx : BitVec 12) :
    ReportsFirst s (violates s (.wrw (.arb sgn) ra vw idx)) (execWrw (.arb sgn) ra vw idx s) commandCauses := by
  refine .skip not_lengthsFail_nil (.skip id (.skip id (.skip id (.skip id ?_))))
  refine .test (fun h => command_error hs.1 ?_) fun h => command_completes hs.1 ?_
  · rw [elemWr_arb_capacity h, bind_error]
  · obtain ⟨v, hv⟩ := elemWr_arb_inRange (sgn := sgn) (x := s.reg ra) (d := s.din) (not_not.1 h)
    rw [hv]
    exact ⟨_, rfl, hs.1⟩

/-! ### Two operands -/

/-- Two operands of one type: either may fail the length check. -/
theorem opnd_opnd_error {α : Type} {f : Int × Bool → Int × Bool → Except Cause α} (hw : (s.reg ra).wf c)
    (h : ¬readable t (s.reg ra) ∨ ¬readable t (s.reg rb)) :
    (opnd c t (s.reg ra) >>= fun a => opnd c t (s.reg rb) >>= f a) = .error .operand := by
  by_cases ha : readable t (s.reg ra)
  · rw [opnd_ok hw ha, bind_ok, opnd_error (h.resolve_left (not_not.2 ha)), bind_error]
  · rw [opnd_error ha, bind_error]

theorem feq_reportsFirst (hs : s.ready) :
    ReportsFirst s (violates s (.feq t ra rb)) (execFeq t ra rb s) commandCauses := by
  refine reportsFirst_operand_only (fun h => command_error hs.1 ?_) ⟨id, id, id, id, id⟩
    fun h => command_completes hs.1 ?_
  · exact opnd_opnd_error (hs.2.1 ra) (lengthsFail_lengthOf_two.1 h)
  · obtain ⟨ha, hb⟩ := readable_both (lengthsFail_lengthOf_two.not.1 h)
    simp only [opnd_ok (hs.2.1 ra) ha, opnd_ok (hs.2.1 rb) hb, bind_ok, pure_ok]
    exact ⟨_, rfl, hs.1⟩

theorem mulf_reportsFirst (hs : s.ready) :
    ReportsFirst s (violates s (.mulf sgn n rd ra rb)) (execMulf sgn n rd ra rb s) commandCauses := by
  refine reportsFirst_operand_only (fun h => command_error hs.1 ?_) ⟨id, id, id, id, id⟩
    fun h => command_completes hs.1 ?_
  · exact opnd_opnd_error (t := .sys sgn n) (hs.2.1 ra) (lengthsFail_pair.1 h)
  · obtain ⟨ha, hb⟩ := readable_both (t := .sys sgn n) (lengthsFail_pair.not.1 h)
    simp only [opnd_ok (hs.2.1 ra) ha, opnd_ok (hs.2.1 rb) hb, bind_ok, pure_ok]
    exact ⟨_, rfl, hs.1⟩

/-! ### Shifts -/

theorem shl_reportsFirst (hs : s.ready) :
    ReportsFirst s (violates s (.shl t rd ra rb)) (execShl t rd ra rb s) commandCauses := by
  refine .test (fun h => command_error hs.1 ?_) fun h => .skip id (.skip id (.skip id (.skip id ?_)))
  · rw [opnd_error (lengthsFail_lengthOf.1 h), bind_error]
  have ha := not_not.1 (lengthsFail_lengthOf.not.1 h)
  refine .test (fun h => command_error hs.1 ?_) fun h => command_completes hs.1 ?_
  · obtain ⟨hfinite, hcap⟩ := h
    simp only [opnd_ok (hs.2.1 ra) ha, bind_ok, rdCount_finite hfinite, shiftUp_finite, res_error _ hcap, bind_error]
  · have hup : ∃ v, shiftUp s.cfg t (valueOf s.cfg t (s.reg ra)) (rdCount s.cfg (s.reg rb))
        ((s.reg ra).err || (s.reg rb).err) = .ok v := by
      cases happ : (s.reg rb).app with
      | true =>
        obtain ⟨v, hv, -⟩ := res_ok (e := (s.reg ra).err || (s.reg rb).err) (inCapacity_zero s.cfg t)
        exact ⟨v, by rw [rdCount_infinite happ, shiftUp_infinite, hv]⟩
      | false =>
        obtain ⟨v, hv, -⟩ := res_ok (e := (s.reg ra).err || (s.reg rb).err) (not_not.1 (not_and.1 h happ))
        exact ⟨v, by rw [rdCount_finite happ, shiftUp_finite, hv]⟩
    obtain ⟨v, hv⟩ := hup
    simp only [opnd_ok (hs.2.1 ra) ha, bind_ok, hv, pure_ok]
    exact ⟨_, rfl, hs.1⟩

theorem shr_reportsFirst (hs : s.ready) :
    ReportsFirst s (violates s (.shr t rd ra rb)) (execShr t rd ra rb s) commandCauses := by
  refine reportsFirst_read hs.1 lengthsFail_lengthOf opnd_error (opnd_ok (hs.2.1 ra)) (fun ha => ?_)
    ⟨id, id, id, id, id⟩
  obtain ⟨v, hv, -⟩ := res_ok (e := (s.reg ra).err || (s.reg rb).err)
    (shiftDown_inCapacity (hs.2.1 ra) ha (rdCount s.cfg (s.reg rb)))
  simp only [hv, bind_ok, pure_ok]
  exact ⟨_, rfl, hs.1⟩

/-! ### Division -/

theorem divide_infinite_divisor (c : Config) (t : Ty) (a b : Int) (ia : Bool) :
    divide c t a ia b true = (0, a, false) := rfl

theorem divide_finite_divisor (c : Config) (t : Ty) (a b : Int) (ia : Bool) :
    ∃ own, divide c t a ia b false = (a.tdiv b, a.tmod b, own) := by
  rw [← trem_eq_tmod]
  cases ia <;> exact ⟨_, rfl⟩

/-- Only `ux` has infinite values, and its finite ones are not negative. -/
theorem valueOf_nonneg_of_isInfinite {x y : Reg} (hw : x.wf c) (hx : readable t x) (hfin : isInfinite t x = false)
    (hinf : isInfinite t y = true) : 0 ≤ valueOf c t x := by
  cases t with
  | sys sgn n => simp [isInfinite_sys] at hinf
  | arb sgn =>
    cases sgn with
    | true => cases hinf
    | false => exact valueOf_inDomain hw hx hfin

section
variable (hs : s.ready) (ha : readable t (s.reg ra)) (hb : readable t (s.reg rb))
include hs ha hb

/-- The quotient of a finite dividend by an infinite divisor is 0, so `DIV` raises nothing (46_divide.md R183). -/
theorem div_by_infinite_reportsFirst (hia : isInfinite t (s.reg ra) = false) (hib : isInfinite t (s.reg rb) = true) :
    ReportsFirst s (violates s (.div t rd re ra rb)) (execDiv t rd re ra rb s) [.divzero, .index, .capacity] := by
  have hwa : (s.reg ra).wf s.cfg := hs.2.1 ra
  have hread := valueOf_inCapacity hwa ha
  have hquot := inCapacity_tdiv_of_nonneg hread (valueOf_nonneg_of_isInfinite hwa ha hia hib)
    (valueOf s.cfg t (s.reg rb))
  refine .skip (fun h => ?_) (.skip id (.skip (not_not.2 hquot) (command_completes hs.1 ?_)))
  · obtain ⟨hfin, -⟩ := h
    simp [hib] at hfin
  · obtain ⟨q, hq, -⟩ := res_ok (e := (s.reg ra).err || (s.reg rb).err || false) (inCapacity_zero s.cfg t)
    obtain ⟨r, hr, -⟩ := res_ok (e := (s.reg ra).err || (s.reg rb).err || false) hread
    simp only [opnd_ok hwa ha, opnd_ok (hs.2.1 rb) hb, bind_ok, hia, hib, Bool.and_true, Bool.not_false, Bool.true_or,
      check_true, divide_infinite_divisor, hq, hr, pure_ok]
    exact ⟨_, rfl, hs.1⟩

/-- A finite divisor must not be 0, and the quotient must fit; then the remainder fits too (46_divide.md R180, R184). -/
theorem div_by_finite_reportsFirst (hib : isInfinite t (s.reg rb) = false) :
    ReportsFirst s (violates s (.div t rd re ra rb)) (execDiv t rd re ra rb s) [.divzero, .index, .capacity] := by
  have hwa : (s.reg ra).wf s.cfg := hs.2.1 ra
  refine .test (fun h => command_error hs.1 ?_) fun h => .skip id ?_
  · obtain ⟨-, hzero⟩ := h
    simp only [opnd_ok hwa ha, opnd_ok (hs.2.1 rb) hb, bind_ok, hib, Bool.and_false, Bool.not_false, Bool.false_or,
      check_true, hzero, bne_self_eq_false, check_false, bind_error]
  have hzero : (valueOf s.cfg t (s.reg rb) != 0) = true := bne_iff_ne.2 (not_and.1 h hib)
  obtain ⟨own, hdivide⟩ := divide_finite_divisor s.cfg t (valueOf s.cfg t (s.reg ra)) (valueOf s.cfg t (s.reg rb))
    (isInfinite t (s.reg ra))
  refine .test (fun h => command_error hs.1 ?_) fun h => command_completes hs.1 ?_
  · simp only [opnd_ok hwa ha, opnd_ok (hs.2.1 rb) hb, bind_ok, hib, Bool.and_false, Bool.not_false, Bool.false_or,
      check_true, hzero, hdivide, res_error _ h, bind_error]
  · obtain ⟨q, hq, -⟩ := res_ok (e := (s.reg ra).err || (s.reg rb).err || own) (not_not.1 h)
    obtain ⟨r, hr, -⟩ := res_ok (e := (s.reg ra).err || (s.reg rb).err || own)
      (inCapacity_tmod (b := valueOf s.cfg t (s.reg rb)) (valueOf_inCapacity hwa ha))
    simp only [opnd_ok hwa ha, opnd_ok (hs.2.1 rb) hb, bind_ok, hib, Bool.and_false, Bool.not_false, Bool.false_or,
      check_true, hzero, hdivide, hq, hr, pure_ok]
    exact ⟨_, rfl, hs.1⟩

end

theorem div_reportsFirst (hs : s.ready) :
    ReportsFirst s (violates s (.div t rd re ra rb)) (execDiv t rd re ra rb s) commandCauses := by
  refine .test (fun h => command_error hs.1 ?_) fun h => .skip id ?_
  · exact opnd_opnd_error (hs.2.1 ra) (lengthsFail_lengthOf_two.1 h)
  obtain ⟨ha, hb⟩ := readable_both (lengthsFail_lengthOf_two.not.1 h)
  refine .test (fun h => command_error hs.1 ?_) fun h => ?_
  · obtain ⟨hia, hib⟩ := h
    simp only [opnd_ok (hs.2.1 ra) ha, opnd_ok (hs.2.1 rb) hb, bind_ok, hia, hib, Bool.and_self, Bool.not_true,
      check_false, bind_error]
  cases hib : isInfinite t (s.reg rb) with
  | true => exact div_by_infinite_reportsFirst hs ha hb (Bool.not_eq_true _ ▸ fun hia => h ⟨hia, hib⟩) hib
  | false => exact div_by_finite_reportsFirst hs ha hb hib

theorem div21_reportsFirst (hs : s.ready) :
    ReportsFirst s (violates s (.div21 sgn n rd re ra rb)) (execDiv21 sgn n rd re ra rb s) commandCauses := by
  refine .test (fun h => command_error hs.1 ?_) fun h => .skip id (.skip id ?_)
  · by_cases ha : (s.reg ra).len = 2 * words n
    · have hb : ¬readable (.sys sgn n) (s.reg rb) := (lengthsFail_pair.1 h).resolve_left (not_not.2 ha)
      simp only [sysnat_ok ha, opnd_error hb, bind_ok, bind_error]
    · simp only [sysnat_error ha, bind_error]
  obtain ⟨ha, hb⟩ := not_or.1 (lengthsFail_pair.not.1 h)
  have ha := not_not.1 ha
  have hb : readable (.sys sgn n) (s.reg rb) := not_not.1 hb
  refine .test (fun h => command_error hs.1 ?_) fun h => .skip id (.skip id (command_completes hs.1 ?_))
  · have hzero : (valueOf s.cfg (.sys sgn n) (s.reg rb) != 0) = false := bne_eq_false_iff_eq.2 h
    simp only [sysnat_ok ha, opnd_ok (hs.2.1 rb) hb, bind_ok, hzero, check_false, bind_error]
  · have hzero : (valueOf s.cfg (.sys sgn n) (s.reg rb) != 0) = true := bne_iff_ne.2 h
    simp only [sysnat_ok ha, opnd_ok (hs.2.1 rb) hb, bind_ok, hzero, check_true, pure_ok]
    exact ⟨_, rfl, hs.1⟩

/-! ### The constants of a slot -/

theorem rcprd_reportsFirst (hs : s.ready) (j : SlotNum) :
    ReportsFirst s (violates s (.rcprd rd re j)) (execRcprd rd re j s) commandCauses := by
  refine .skip not_lengthsFail_nil (.test (fun h => command_error hs.1 ?_) fun h =>
    .skip id (.skip id (.skip id (.skip id (command_completes hs.1 ?_)))))
  · have hinvalid : (s.slot j).valid = false := h
    simp only [hinvalid, check_false, bind_error]
  · have hslot : (s.slot j).wf s.cfg := hs.2.2.1 j
    have hvalid : (s.slot j).valid = true := Bool.not_eq_false _ ▸ h
    obtain ⟨v, hv, -⟩ := cntrec_ok (c := s.cfg) (e := (s.slot j).err) (k := .finite (s.slot j).shift) <| by
      rintro _ ⟨⟩
      exact small_lt_B_sq _ (slot_shift_le hslot hvalid)
    simp only [hvalid, check_true, bind_ok, hv, pure_ok]
    exact ⟨_, rfl, hs.1⟩

/-! ### Every command -/

/-- The checks of every command run in the order of the codes (60_exceptions.md R223). -/
theorem exec_reportsFirst (i : Instr) (hs : s.ready) : ReportsFirst s (violates s i) (exec i s) commandCauses := by
  have hwf : ∀ q, (s.reg q).wf s.cfg := hs.2.1
  cases i with
  | init t r => exact init_reportsFirst hs
  | wrw t r vw idx =>
    cases t with
    | sys sgn n => exact wrw_sys_reportsFirst hs vw idx
    | arb sgn => exact wrw_arb_reportsFirst hs vw idx
  | wrapp | rdlen | rde | veto | unwrap =>
    exact reportsFirst_operand_only (absurd · not_lengthsFail_nil) ⟨id, id, id, id, id⟩
      fun _ => ⟨_, command_ok hs.1 rfl, hs.1⟩
  | rdstat | rdcfg =>
    exact reportsFirst_operand_only (absurd · not_lengthsFail_nil) ⟨id, id, id, id, id⟩ fun _ => ⟨_, rfl, hs.1⟩
  | rdw t r vw idx =>
    exact reportsFirst_checkLen hs.1 lengthsFail_lengthOf ⟨_, rfl, hs.1⟩ ⟨id, id, id, id, id⟩
  | rdbit t r idx =>
    exact reportsFirst_checkLen hs.1 lengthsFail_lengthOf ⟨_, rfl, hs.1⟩ ⟨id, id, id, id, id⟩
  | rdapp t r =>
    exact reportsFirst_checkLen hs.1 lengthsFail_lengthOf ⟨_, rfl, hs.1⟩ ⟨id, id, id, id, id⟩
  | gnat t ra =>
    exact reportsFirst_checkLen hs.1 lengthsFail_lengthOf ⟨_, rfl, hs.1⟩ ⟨id, id, id, id, id⟩
  | cnt t rd ra bit =>
    exact counting_reportsFirst (fun x => countOf s.cfg t x bit) hs lengthsFail_lengthOf (fun _ => countOf_le)
      ⟨id, id, id, id, id⟩
  | asc t rd ra bit =>
    exact counting_reportsFirst (fun x => ascendingOf s.cfg t x bit) hs lengthsFail_lengthOf
      (fun _ => ascendingOf_le) ⟨id, id, id, id, id⟩
  | dsc t rd ra bit =>
    exact counting_reportsFirst (fun x => descendingOf s.cfg t x bit) hs lengthsFail_lengthOf
      (fun _ => descendingOf_le) ⟨id, id, id, id, id⟩
  | cvt ts td rd ra => exact cvt_reportsFirst hs
  | bswap sgn n rd ra =>
    exact reportsFirst_read hs.1 lengthsFail_single sysnat_error sysnat_ok (fun _ => ⟨_, rfl, hs.1⟩)
      ⟨id, id, id, id, id⟩
  | feq t ra rb => exact feq_reportsFirst hs
  | gnz t ra =>
    exact reportsFirst_read hs.1 lengthsFail_lengthOf opnd_error (opnd_ok (hwf ra)) (fun _ => ⟨_, rfl, hs.1⟩)
      ⟨id, id, id, id, id⟩
  | gfin t ra =>
    exact reportsFirst_read hs.1 lengthsFail_lengthOf opnd_error (opnd_ok (hwf ra)) (fun _ => ⟨_, rfl, hs.1⟩)
      ⟨id, id, id, id, id⟩
  | add t rd ra rb =>
    exact binaryFinite_reportsFirst (fun a b => a + b) hs lengthsFail_lengthOf_two id .rfl id id .rfl
  | sub t rd ra rb =>
    exact binaryFinite_reportsFirst (fun a b => a - b) hs lengthsFail_lengthOf_two id .rfl id id .rfl
  | mul t rd ra rb =>
    exact binaryFinite_reportsFirst (fun a b => a * b) hs lengthsFail_lengthOf_two id .rfl id id .rfl
  | sqr t rd ra =>
    exact binaryFinite_reportsFirst (fun a b => a * b) hs (lengthsFail_lengthOf.trans or_self_iff.symm) id
      or_self_iff.symm id id .rfl
  | bnot t rd ra =>
    exact unary_reportsFirst (fun a => -a - 1) (fun _ => false) hs lengthsFail_lengthOf ⟨id, id, id, id⟩ fun ha =>
      iff_of_false id (not_not.2 (inCapacity_compl (valueOf_inCapacity (hwf ra) ha)))
  | cpl t rd ra inc =>
    exact unary_reportsFirst (fun a => -a - 1 + (if inc then 1 else 0)) (fun a => inc && isLeast s.cfg t a) hs
      lengthsFail_lengthOf ⟨id, id, id, id⟩ fun _ => .rfl
  | mag t rd ra =>
    refine unary_reportsFirst (fun a => if signed t && decide (a < 0) then -a else a) (fun a => isLeast s.cfg t a) hs
      lengthsFail_lengthOf ⟨id, id, id, id⟩ fun _ => ?_
    rw [negate_if_negative_eq_magnitudeOf]
    exact .rfl
  | shl t rd ra rb => exact shl_reportsFirst hs
  | shr t rd ra rb => exact shr_reportsFirst hs
  | shlm sgn n rd ra rb =>
    exact maskedShift_reportsFirst (fun a d => a * 2 ^ d) hs lengthsFail_single id .rfl ⟨id, id, id⟩
  | shrm sgn n rd ra rb =>
    exact maskedShift_reportsFirst floorShift hs lengthsFail_single id .rfl ⟨id, id, id⟩
  | mulf sgn n rd ra rb => exact mulf_reportsFirst hs
  | div t rd re ra rb => exact div_reportsFirst hs
  | div21 sgn n rd re ra rb => exact div21_reportsFirst hs
  | rcpset n j ra => exact rcpConstruct_reportsFirst hs lengthsFail_single ⟨id, id, id, id, id⟩ j
  | rcp21set n j ra => exact rcpConstruct_reportsFirst hs lengthsFail_single ⟨id, id, id, id, id⟩ j
  | rcpdiv n rd re ra j => exact rcpApply_reportsFirst hs lengthsFail_single .rfl ⟨id, id, id, id⟩
  | rcp21div n rd re ra j => exact rcpApply_reportsFirst hs lengthsFail_single .rfl ⟨id, id, id, id⟩
  | rcprd rd re j => exact rcprd_reportsFirst hs j

/-- Settles O19: an illegal word runs `execIllegal`, and a command reports in the order of the codes. -/
theorem firstFailingCheckIsReported : Obligations.FirstFailingCheckIsReported := by
  intro s w hs
  refine ⟨fun hill => ?_, fun i hi => ?_⟩
  · rw [issue_illegal hill]
    exact command_error hs.1 rfl
  · rw [issue_ok hi]
    have h := exec_reportsFirst i hs
    exact ⟨fun k hk hleast => h.eq_raise commandCauses_sorted (mem_commandCauses hk) hk hleast, h.completes⟩

/-! ### The recorded cause -/

/-- The first cause of the list is recorded, or it is not violated and the rest of the list decides. -/
theorem ReportsFirst.fcause_or {P : Prop} (h : ReportsFirst s V r (k :: ks)) (hr : r = .next u)
    (hrest : ReportsFirst s V r ks → P) : (V k ∧ u.fcause = k.code) ∨ (¬V k ∧ P) := by
  obtain ⟨hk, hraise⟩ | ⟨hk, h⟩ := h
  · cases hr.symm.trans hraise
    exact .inl ⟨hk, rfl⟩
  · exact .inr ⟨hk, hrest h⟩

/-- The last cause of the list is left when the outcome is a fault. -/
theorem ReportsFirst.fcause_last (h : ReportsFirst s V r [k]) (hr : r = .next u) (hu : u.fault = true) :
    V k ∧ u.fcause = k.code := by
  refine (h.fcause_or (P := False) hr ?_).resolve_right And.right
  rintro ⟨u', hu', hrun⟩
  cases hr.symm.trans hu'
  simp [hu] at hrun

theorem code_ne_zero (k : Cause) : k.code ≠ 0 := by
  cases k <;> decide

/-- Settles O12: fault entry is `raise`, the cause is the one of `exec_reportsFirst`, and in the fault state the decoder
separates the two reads that answer from every other word. -/
theorem faultEntryAndFaultState : Obligations.FaultEntryAndFaultState := by
  refine ⟨fun w s t hf h ht => ?_, fun w s t hs h ht => ?_, fun w s hf => ⟨?_, issue_rdcfg, issue_ignored hf⟩⟩
  · obtain ⟨k, rfl⟩ := eq_raise_of_issue hf h ht
    exact ⟨rfl, rfl, rfl, rfl, rfl, code_ne_zero k, rfl, rfl⟩
  · by_cases hw : ∃ i, decode s.cfg w = .ok i
    · obtain ⟨i, hi⟩ := hw
      rw [issue_ok hi] at h
      have hreports := exec_reportsFirst i hs
      exact .inr ⟨i, hi, hreports.fcause_or h fun hr => hr.fcause_or h fun hr => hr.fcause_or h fun hr =>
        hr.fcause_or h fun hr => hr.fcause_or h fun hr => hr.fcause_last h ht⟩
    · have hill := not_exists.1 hw
      rw [issue_illegal hill, execIllegal, command_error hs.1 rfl] at h
      cases h
      exact .inl ⟨hill, rfl⟩
  · rintro rfl
    exact issue_rdstat_of_fault hf

end Sys2Proof.Machine
end


section
/-! PROOFS. The statements of 30_encoding.md: the fields of a command word (R71 to R74). Encoding and decoding are both
brought to one description of a word, its fixed fields (`HasFixedFields`) and its operands (`ReadsOperands`). -/

namespace Sys2Proof.Machine

open Sys2Proof.Laws

variable {c : Config} {w : Cmd} {i : Instr} {o : Op} {t : Ty}

/-! ### What the decoder's field readers answer -/

theorem slice_lt (w : Cmd) (hi lo : Nat) : slice w hi lo < 2 ^ (hi + 1 - lo) := Nat.mod_lt _ (Nat.two_pow_pos _)

theorem bitAt_eq_iff (w : Cmd) (k : Nat) (b : Bool) : bitAt w k = b ↔ slice w k k = b.toNat := by
  have hlt : slice w k k < 2 := by simpa using slice_lt w k k
  cases b with
  | true => simp [bitAt]
  | false =>
    simp only [bitAt, decide_eq_false_iff_not, Bool.toNat_false]
    omega

theorem regAt_eq_iff (w : Cmd) (lo : Nat) (r : RegNum) : regAt w lo = r ↔ slice w (lo + 3) lo = r.val := by
  have hlt : slice w (lo + 3) lo < 16 := by simpa [show lo + 3 + 1 - lo = 4 by omega] using slice_lt w (lo + 3) lo
  rw [Fin.ext_iff]
  simp [regAt, Fin.ofNat, Nat.mod_eq_of_lt hlt]

theorem slotAt_eq_iff (w : Cmd) (lo : Nat) (k : SlotNum) : slotAt w lo = k ↔ slice w (lo + 1) lo = k.val := by
  have hlt : slice w (lo + 1) lo < 4 := by simpa [show lo + 1 + 1 - lo = 2 by omega] using slice_lt w (lo + 1) lo
  rw [Fin.ext_iff]
  simp [slotAt, Fin.ofNat, Nat.mod_eq_of_lt hlt]

theorem sizeAt_eq_iff (w : Cmd) (lo : Nat) (n : Size) : sizeAt w lo = n ↔ slice w (lo + 5) lo = n.val := by
  have hlt : slice w (lo + 5) lo < 64 := by simpa [show lo + 5 + 1 - lo = 6 by omega] using slice_lt w (lo + 5) lo
  rw [Fin.ext_iff]
  simp [sizeAt, Fin.ofNat, Nat.mod_eq_of_lt hlt]

theorem idxOf_eq_iff (w : Cmd) (idx : BitVec 12) : idxOf w = idx ↔ slice w 31 20 = idx.toNat := by
  rw [← BitVec.toNat_inj, idxOf_toNat]

theorem viewAt_eq_iff (w : Cmd) (vw : View) : View.ofCode (slice w 19 18) = vw ↔ slice w 19 18 = vw.code := by
  have hlt : slice w 19 18 < 4 := slice_lt w 19 18
  generalize slice w 19 18 = k at hlt
  interval_cases k <;> cases vw <;> decide

/-! ### Fields that are made of two

The opcode table and the two formats cut the word at different bits. A field is 0, or spells a number, when its two
parts do. -/

theorem slice_split {hi lo : Nat} (mid v : Nat) (hlo : lo ≤ mid) (hhi : mid < hi) :
    slice w hi lo = v ↔ slice w mid lo = v % 2 ^ (mid + 1 - lo) ∧ slice w hi (mid + 1) = v / 2 ^ (mid + 1 - lo) := by
  have hlow : 2 ^ (mid + 1) = 2 ^ lo * 2 ^ (mid + 1 - lo) := by rw [← pow_add]; congr 1; omega
  have hwidth : 2 ^ (hi + 1 - lo) = 2 ^ (mid + 1 - lo) * 2 ^ (hi + 1 - (mid + 1)) := by rw [← pow_add]; congr 1; omega
  have hpos := Nat.two_pow_pos (mid + 1 - lo)
  simp only [slice, hlow, hwidth, ← Nat.div_div_eq_div_mul, Nat.mod_mul]
  constructor
  · rintro rfl
    rw [Nat.add_mul_mod_self_left, Nat.mod_mod, Nat.add_mul_div_left _ _ hpos,
      Nat.div_eq_of_lt (Nat.mod_lt _ hpos), Nat.zero_add]
    exact ⟨rfl, rfl⟩
  · rintro ⟨hl, hh⟩
    rw [hl, hh, Nat.mod_add_div]

theorem slice_31_18_eq_zero : slice w 31 18 = 0 ↔ slice w 19 18 = 0 ∧ slice w 31 20 = 0 :=
  slice_split 19 0 (by decide) (by decide)

theorem slice_21_14_eq_zero : slice w 21 14 = 0 ↔ slice w 17 14 = 0 ∧ slice w 21 18 = 0 :=
  slice_split 17 0 (by decide) (by decide)

theorem slice_31_14_eq_zero : slice w 31 14 = 0 ↔ slice w 17 14 = 0 ∧ slice w 31 18 = 0 :=
  slice_split 17 0 (by decide) (by decide)

theorem slice_19_14_eq_zero : slice w 19 14 = 0 ↔ slice w 17 14 = 0 ∧ slice w 19 18 = 0 :=
  slice_split 17 0 (by decide) (by decide)

theorem slice_31_28_eq_zero : slice w 31 28 = 0 ↔ slice w 29 28 = 0 ∧ slice w 31 30 = 0 :=
  slice_split 29 0 (by decide) (by decide)

theorem slice_31_26_eq_zero : slice w 31 26 = 0 ↔ slice w 29 26 = 0 ∧ slice w 31 30 = 0 :=
  slice_split 29 0 (by decide) (by decide)

theorem slice_31_26_eq_16 : slice w 31 26 = 16 ↔ slice w 29 26 = 0 ∧ slice w 31 30 = 1 :=
  slice_split 29 16 (by decide) (by decide)

theorem slice_31_26_eq_32 : slice w 31 26 = 32 ↔ slice w 29 26 = 0 ∧ slice w 31 30 = 2 :=
  slice_split 29 32 (by decide) (by decide)

theorem slice_13_7_eq_one : slice w 13 7 = 1 ↔ slice w 7 7 = 1 ∧ slice w 13 8 = 0 :=
  slice_split 7 1 (by decide) (by decide)

theorem slice_31_30_eq_bit (b : Bool) : slice w 31 30 = b.toNat ↔ slice w 30 30 = b.toNat ∧ slice w 31 31 = 0 := by
  cases b <;> exact slice_split 30 _ (by decide) (by decide)

theorem slice_31_20_eq_bit (b : Bool) : slice w 31 20 = b.toNat ↔ slice w 20 20 = b.toNat ∧ slice w 31 21 = 0 := by
  cases b <;> exact slice_split 20 _ (by decide) (by decide)

theorem slice_21_18_eq_slot (k : SlotNum) : slice w 21 18 = k.val ↔ slice w 19 18 = k.val ∧ slice w 21 20 = 0 := by
  have := k.isLt
  rw [slice_split 19 _ (by decide) (by decide), Nat.mod_eq_of_lt (by omega), Nat.div_eq_of_lt (by omega)]

theorem slice_29_26_eq_slot (k : SlotNum) : slice w 29 26 = k.val ↔ slice w 27 26 = k.val ∧ slice w 29 28 = 0 := by
  have := k.isLt
  rw [slice_split 27 _ (by decide) (by decide), Nat.mod_eq_of_lt (by omega), Nat.div_eq_of_lt (by omega)]

theorem slice_13_0_eq {k : Nat} (hk : k < 64) : slice w 13 0 = k ↔ slice w 5 0 = k ∧ slice w 13 6 = 0 := by
  rw [slice_split 5 k (by decide) (by decide), Nat.mod_eq_of_lt (by omega), Nat.div_eq_of_lt (by omega)]

theorem slice_7_0_eq {k : Nat} (hk : k < 64) : slice w 7 0 = k ↔ slice w 5 0 = k ∧ slice w 6 6 = 0 ∧ slice w 7 7 = 0 := by
  have hlow : slice w 7 6 = 0 ↔ slice w 6 6 = 0 ∧ slice w 7 7 = 0 := slice_split 6 0 (by decide) (by decide)
  rw [← hlow, slice_split 5 k (by decide) (by decide), Nat.mod_eq_of_lt (by omega), Nat.div_eq_of_lt (by omega)]

theorem slice_19_0_eq {k : Nat} (hk : k < 64) : slice w 19 0 = k ↔ slice w 13 0 = k ∧ slice w 19 14 = 0 := by
  rw [slice_split 13 k (by decide) (by decide), Nat.mod_eq_of_lt (by omega), Nat.div_eq_of_lt (by omega)]

theorem slice_31_0_eq {k : Nat} (hk : k < 64) : slice w 31 0 = k ↔ slice w 13 0 = k ∧ slice w 31 14 = 0 := by
  rw [slice_split 13 k (by decide) (by decide), Nat.mod_eq_of_lt (by omega), Nat.div_eq_of_lt (by omega)]

/-! ### Type descriptors -/

/-- The bit `arb` of a type descriptor (30_encoding.md R71). -/
def arbBit : Ty → Bool
  | .sys _ _ => false
  | .arb _ => true

/-- The field `n` of a type descriptor (30_encoding.md R71). -/
def sizeField : Ty → Nat
  | .sys _ n => n.val
  | .arb _ => 0

theorem sizeField_lt (t : Ty) : sizeField t < 64 := by
  cases t with
  | sys sgn n => exact n.isLt
  | arb sgn => exact Nat.zero_lt_succ 63

theorem tyOf_eq_ok_iff {j k l : Nat} : tyOf (bitAt w j) (bitAt w k) (sizeAt w l) = .ok t ↔
    slice w j j = (signed t).toNat ∧ slice w k k = (arbBit t).toNat ∧ slice w (l + 5) l = sizeField t := by
  rw [← bitAt_eq_iff, ← bitAt_eq_iff]
  cases harb : bitAt w k with
  | false => cases t <;> simp [tyOf, signed, arbBit, sizeField, sizeAt_eq_iff]
  | true =>
    cases t <;>
      simp [tyOf, bind_eq_ok, pure_ok, require_eq_ok, signed, arbBit, sizeField, sizeAt_eq_iff, and_comm]

theorem typed_eq_ok_iff : typed w = .ok t ↔
    slice w 6 6 = (signed t).toNat ∧ slice w 7 7 = (arbBit t).toNat ∧ slice w 13 8 = sizeField t := tyOf_eq_ok_iff

/-! The three restricted readers take the types of their kind (30_encoding.md R80 item 5). -/

theorem systemsOnly_eq_ok_iff {sgn : Bool} {n : Size} :
    systemsOnly w = .ok (sgn, n) ↔ typed w = .ok (.sys sgn n) := by
  rw [typed_eq_ok_iff, ← bitAt_eq_iff, ← bitAt_eq_iff]
  simp [systemsOnly, bind_eq_ok, require_eq_ok, pure_ok, signed, arbBit, sizeField, sizeAt_eq_iff, and_left_comm]

theorem unsignedOnly_eq_ok_iff {n : Size} : unsignedOnly w = .ok n ↔ typed w = .ok (.sys false n) := by
  rw [typed_eq_ok_iff, ← bitAt_eq_iff, ← bitAt_eq_iff]
  simp [unsignedOnly, bind_eq_ok, require_eq_ok, pure_ok, signed, arbBit, sizeField, sizeAt_eq_iff, and_assoc,
    and_left_comm]

theorem arbitraryOnly_eq_ok_iff {sgn : Bool} : arbitraryOnly w = .ok sgn ↔ typed w = .ok (.arb sgn) := by
  rw [typed_eq_ok_iff, ← bitAt_eq_iff, ← bitAt_eq_iff]
  simp [arbitraryOnly, bind_eq_ok, require_eq_ok, pure_ok, signed, arbBit, sizeField, sizeAt_eq_iff]
  tauto

/-! ### The words that the encoder packs -/

theorem packTy_eq (o : Op) (t : Ty) : packTy o t = packType o (signed t) (arbBit t) (sizeField t) := by
  cases t <;> rfl

theorem packTy_lt (o : Op) (t : Ty) : packTy o t < 2 ^ 14 := by
  rw [packTy_eq]
  exact packType_lt _ _ _ _ (sizeField_lt t)

theorem packUntyped_lt (o : Op) : packType o false false 0 < 2 ^ 14 := packType_lt o false false 0 (by decide)

/-- The converse of `packType_fields`. -/
theorem low_eq_packType_iff {sgn arb : Bool} {n : Nat} : w.toNat % 2 ^ 14 = packType o sgn arb n ↔
    slice w 5 0 = o.code ∧ slice w 6 6 = sgn.toNat ∧ slice w 7 7 = arb.toNat ∧ slice w 13 8 = n := by
  refine ⟨packType_fields w o sgn arb n, ?_⟩
  simp only [slice, packType]
  rintro ⟨hop, hsgn, harb, hsize⟩
  omega

theorem low_eq_packTy_iff : w.toNat % 2 ^ 14 = packTy o t ↔ slice w 5 0 = o.code ∧
    slice w 6 6 = (signed t).toNat ∧ slice w 7 7 = (arbBit t).toNat ∧ slice w 13 8 = sizeField t := by
  rw [packTy_eq, low_eq_packType_iff]

theorem low_eq_packUntyped_iff :
    w.toNat % 2 ^ 14 = packType o false false 0 ↔ slice w 5 0 = o.code ∧ slice w 13 6 = 0 := by
  have hsize : slice w 13 7 = 0 ↔ slice w 7 7 = 0 ∧ slice w 13 8 = 0 := slice_split 7 0 (by decide) (by decide)
  have hlow : slice w 13 6 = 0 ↔ slice w 6 6 = 0 ∧ slice w 13 7 = 0 := slice_split 6 0 (by decide) (by decide)
  rw [low_eq_packType_iff, hlow, hsize]
  rfl

/-- A word of format R is the word with its fields: the converse of `packR_fields`. -/
theorem packR_eq_iff {low rd re ra rb m : Nat} (hl : low < 2 ^ 14) (hd : rd < 16) (he : re < 16) (ha : ra < 16)
    (hb : rb < 16) (hm : m < 4) :
    packR low rd re ra rb m = w ↔ w.toNat % 2 ^ 14 = low ∧ slice w 17 14 = rd ∧ slice w 21 18 = re ∧
      slice w 25 22 = ra ∧ slice w 29 26 = rb ∧ slice w 31 30 = m := by
  constructor
  · rintro rfl
    exact packR_fields low rd re ra rb m hl hd he ha hb hm
  · simp only [slice]
    rintro ⟨rfl, rfl, rfl, rfl, rfl, rfl⟩
    have := w.isLt
    apply BitVec.eq_of_toNat_eq
    rw [packR, BitVec.toNat_ofNat]
    omega

/-- As `packR_eq_iff`, for format X. -/
theorem packX_eq_iff {low r vw idx : Nat} (hl : low < 2 ^ 14) (hr : r < 16) (hv : vw < 4) (hi : idx < 4096) :
    packX low r vw idx = w ↔ w.toNat % 2 ^ 14 = low ∧ slice w 17 14 = r ∧ slice w 19 18 = vw ∧
      slice w 31 20 = idx := by
  constructor
  · rintro rfl
    exact packX_fields low r vw idx hl hr hv hi
  · simp only [slice]
    rintro ⟨rfl, rfl, rfl, rfl⟩
    have := w.isLt
    apply BitVec.eq_of_toNat_eq
    rw [packX, BitVec.toNat_ofNat]
    omega

/-- As `packR_eq_iff`, for format C. -/
theorem packC_eq_iff {low rd ra dn : Nat} {dsgn darb : Bool} (hl : low < 2 ^ 14) (hd : rd < 16) (ha : ra < 16)
    (hn : dn < 64) :
    packC low rd ra dn dsgn darb = w ↔ w.toNat % 2 ^ 14 = low ∧ slice w 17 14 = rd ∧ slice w 21 18 = ra ∧
      slice w 27 22 = dn ∧ slice w 28 28 = dsgn.toNat ∧ slice w 29 29 = darb.toNat ∧ slice w 31 30 = 0 := by
  constructor
  · rintro rfl
    exact packC_fields low rd ra dn dsgn darb hl hd ha hn
  · simp only [slice]
    rintro ⟨hlow, hrd, hra, hdn, hsgn, harb, hzero⟩
    have := w.isLt
    apply BitVec.eq_of_toNat_eq
    rw [packC, BitVec.toNat_ofNat]
    omega

theorem encode_cvt (ts td : Ty) (rd ra : RegNum) : encode (.cvt ts td rd ra) =
    packC (packTy .cvt ts) rd ra (sizeField td) (signed td) (arbBit td) := by
  cases td <;> rfl

/-! What the encoder puts into a field fits it. -/

theorem bit_lt_four (b : Bool) : b.toNat < 4 := by cases b <;> decide
theorem bit_lt_4096 (b : Bool) : b.toNat < 4096 := by cases b <;> decide
theorem view_code_lt_four (vw : View) : vw.code < 4 := by cases vw <;> decide
theorem index_lt_4096 (idx : BitVec 12) : idx.toNat < 4096 := idx.isLt
theorem slot_lt_16 (k : SlotNum) : k.val < 16 := by omega

end Sys2Proof.Machine
end

section
/-! PROOFS. The statements of 30_encoding.md: encoding and decoding are inverse to each other (R71 to R76, R80). -/

namespace Sys2Proof.Machine

open Sys2Proof.Laws

variable {c : Config} {w : Cmd} {i : Instr} {t : Ty}

/-! ### The word of a command -/

/-- The place of a command's row in the opcode table. -/
def rowIndex : Instr → Fin 40
  | .init _ _ => 0
  | .wrw _ _ _ _ => 1
  | .wrapp _ _ _ => 2
  | .rdw _ _ _ _ => 3
  | .rdbit _ _ _ => 4
  | .rdlen _ => 5
  | .rdapp _ _ => 6
  | .rde _ => 7
  | .cnt _ _ _ _ => 8
  | .asc _ _ _ _ => 9
  | .dsc _ _ _ _ => 10
  | .bswap _ _ _ _ => 11
  | .cvt _ _ _ _ => 12
  | .veto _ _ _ => 13
  | .unwrap _ _ => 14
  | .feq _ _ _ => 15
  | .gnz _ _ => 16
  | .gnat _ _ => 17
  | .gfin _ _ => 18
  | .add _ _ _ _ => 19
  | .sub _ _ _ _ => 20
  | .bnot _ _ _ => 21
  | .cpl _ _ _ _ => 22
  | .mag _ _ _ => 23
  | .shl _ _ _ _ => 24
  | .shr _ _ _ _ => 25
  | .shlm _ _ _ _ _ => 26
  | .shrm _ _ _ _ _ => 27
  | .mul _ _ _ _ => 28
  | .mulf _ _ _ _ _ => 29
  | .sqr _ _ _ => 30
  | .div _ _ _ _ _ => 31
  | .div21 _ _ _ _ _ _ => 32
  | .rcpset _ _ _ => 33
  | .rcpdiv _ _ _ _ _ => 34
  | .rcp21set _ _ _ => 35
  | .rcp21div _ _ _ _ _ => 36
  | .rcprd _ _ _ => 37
  | .rdstat => 38
  | .rdcfg _ => 39

/-- A row of the opcode table. -/
def rowAt (k : Fin 40) : OpcodeRow := opcodeTable[k]

theorem rowAt_mem (k : Fin 40) : rowAt k ∈ opcodeTable := List.getElem_mem _

theorem mnemonic_rowAt (i : Instr) : (rowAt (rowIndex i)).mnemonic = mnemonicOf i := by
  cases i <;> rfl

/-- The word has the fields that the row of the command fixes. -/
def HasFixedFields (w : Cmd) (i : Instr) : Prop :=
  ∀ f ∈ (rowAt (rowIndex i)).fixed, slice w f.1 f.2.1 = f.2.2

/-- The operand fields of the word spell the operands of the command (30_encoding.md R72 to R74). -/
def ReadsOperands (w : Cmd) : Instr → Prop
  | .init t r | .rdapp t r => typed w = .ok t ∧ regAt w 14 = r
  | .wrw t r vw idx | .rdw t r vw idx =>
    typed w = .ok t ∧ regAt w 14 = r ∧ View.ofCode (slice w 19 18) = vw ∧ idxOf w = idx
  | .wrapp sgn r bit => typed w = .ok (.arb sgn) ∧ regAt w 14 = r ∧ bitAt w 20 = bit
  | .rdbit t r idx => typed w = .ok t ∧ regAt w 14 = r ∧ idxOf w = idx
  | .rdlen r | .rde r => regAt w 14 = r
  | .cnt t rd ra bit | .asc t rd ra bit | .dsc t rd ra bit | .cpl t rd ra bit =>
    typed w = .ok t ∧ regAt w 14 = rd ∧ regAt w 22 = ra ∧ bitAt w 30 = bit
  | .bswap sgn n rd ra => typed w = .ok (.sys sgn n) ∧ regAt w 14 = rd ∧ regAt w 22 = ra
  | .cvt ts td rd ra => typed w = .ok ts ∧ tyOf (bitAt w 28) (bitAt w 29) (sizeAt w 22) = .ok td ∧
    regAt w 14 = rd ∧ regAt w 18 = ra
  | .veto rd ra b => regAt w 14 = rd ∧ regAt w 22 = ra ∧ bitAt w 30 = b
  | .unwrap rd ra => regAt w 14 = rd ∧ regAt w 22 = ra
  | .feq t ra rb => typed w = .ok t ∧ regAt w 22 = ra ∧ regAt w 26 = rb
  | .gnz t ra | .gnat t ra | .gfin t ra => typed w = .ok t ∧ regAt w 22 = ra
  | .add t rd ra rb | .sub t rd ra rb | .shl t rd ra rb | .shr t rd ra rb | .mul t rd ra rb =>
    typed w = .ok t ∧ regAt w 14 = rd ∧ regAt w 22 = ra ∧ regAt w 26 = rb
  | .bnot t rd ra | .mag t rd ra | .sqr t rd ra => typed w = .ok t ∧ regAt w 14 = rd ∧ regAt w 22 = ra
  | .shlm sgn n rd ra rb | .shrm sgn n rd ra rb | .mulf sgn n rd ra rb =>
    typed w = .ok (.sys sgn n) ∧ regAt w 14 = rd ∧ regAt w 22 = ra ∧ regAt w 26 = rb
  | .div t rd re ra rb =>
    typed w = .ok t ∧ regAt w 14 = rd ∧ regAt w 18 = re ∧ regAt w 22 = ra ∧ regAt w 26 = rb
  | .div21 sgn n rd re ra rb =>
    typed w = .ok (.sys sgn n) ∧ regAt w 14 = rd ∧ regAt w 18 = re ∧ regAt w 22 = ra ∧ regAt w 26 = rb
  | .rcpset n k ra | .rcp21set n k ra => typed w = .ok (.sys false n) ∧ slotAt w 18 = k ∧ regAt w 22 = ra
  | .rcpdiv n rd re ra k | .rcp21div n rd re ra k =>
    typed w = .ok (.sys false n) ∧ regAt w 14 = rd ∧ regAt w 18 = re ∧ regAt w 22 = ra ∧ slotAt w 26 = k
  | .rcprd rd re k => regAt w 14 = rd ∧ regAt w 18 = re ∧ slotAt w 26 = k
  | .rdstat => True
  | .rdcfg idx => idxOf w = idx

/-! ### Encoding

The fields that a format packs, and the fields that the table fixes or an operand takes, cut the word at different
bits: with all of them cut at the same bits, the two conjunctions are one. -/

/-- The three formats of a command word (30_encoding.md R72 to R74). -/
inductive Format where
  | R | X | C

/-- The format of a command's word. -/
def formatOf : Instr → Format
  | .init _ _ | .wrw _ _ _ _ | .wrapp _ _ _ | .rdw _ _ _ _ | .rdbit _ _ _ | .rdlen _ | .rdapp _ _ | .rde _ => .X
  | .rdstat | .rdcfg _ => .X
  | .cvt _ _ _ _ => .C
  | _ => .R

theorem encode_eq_iff_of_formatX (h : formatOf i = .X) :
    encode i = w ↔ HasFixedFields w i ∧ ReadsOperands w i := by
  cases i
  case init | wrw | wrapp | rdw | rdbit | rdlen | rdapp | rde | rdstat | rdcfg =>
    simp only [encode, packX_eq_iff, packTy_lt, packUntyped_lt, Fin.is_lt, bit_lt_4096, view_code_lt_four,
      index_lt_4096, Nat.zero_lt_succ, low_eq_packTy_iff, low_eq_packUntyped_iff]
    simp [HasFixedFields, rowAt, rowIndex, opcodeTable, wordModelRows, middleRows, lastRows, Op.code, opcodeMap,
      ReadsOperands, typed_eq_ok_iff, signed, arbBit, sizeField, regAt_eq_iff, viewAt_eq_iff, idxOf_eq_iff,
      bitAt_eq_iff, slice_31_18_eq_zero, slice_13_7_eq_one, slice_31_20_eq_bit, slice_13_0_eq, slice_19_0_eq,
      slice_31_0_eq, slice_31_14_eq_zero, slice_19_14_eq_zero] <;>
      tauto
  all_goals cases h

theorem encode_eq_iff_of_formatC (h : formatOf i = .C) :
    encode i = w ↔ HasFixedFields w i ∧ ReadsOperands w i := by
  cases i
  case cvt =>
    rw [encode_cvt, packC_eq_iff (packTy_lt _ _) (Fin.is_lt _) (Fin.is_lt _) (sizeField_lt _), low_eq_packTy_iff]
    simp [HasFixedFields, rowAt, rowIndex, opcodeTable, wordModelRows, middleRows, lastRows, Op.code, opcodeMap,
      ReadsOperands, typed_eq_ok_iff, tyOf_eq_ok_iff, regAt_eq_iff]
    tauto
  all_goals cases h

theorem encode_eq_iff_of_formatR (h : formatOf i = .R) :
    encode i = w ↔ HasFixedFields w i ∧ ReadsOperands w i := by
  cases i
  case cnt | asc | dsc | bswap | veto | unwrap | feq | gnz | gnat | gfin | add | sub | bnot | cpl | mag | shl | shr |
      shlm | shrm | mul | mulf | sqr | div | div21 | rcpset | rcpdiv | rcp21set | rcp21div | rcprd =>
    simp only [encode, packR_eq_iff, packTy_lt, packUntyped_lt, Fin.is_lt, slot_lt_16, bit_lt_four, Nat.reduceLT,
      Nat.zero_lt_succ, low_eq_packTy_iff, low_eq_packUntyped_iff]
    simp [HasFixedFields, rowAt, rowIndex, opcodeTable, wordModelRows, middleRows, lastRows, Op.code, opcodeMap,
      ReadsOperands, typed_eq_ok_iff, signed, arbBit, sizeField, regAt_eq_iff, slotAt_eq_iff, bitAt_eq_iff,
      slice_21_14_eq_zero, slice_31_26_eq_zero, slice_31_26_eq_16, slice_31_26_eq_32, slice_31_28_eq_zero,
      slice_31_30_eq_bit, slice_13_0_eq, slice_7_0_eq, slice_21_18_eq_slot, slice_29_26_eq_slot]
    tauto
  all_goals cases h

/-- The words that the encoder makes of a command: each field has the value that the row of the table or the operand
asks for. -/
theorem encode_eq_iff : encode i = w ↔ HasFixedFields w i ∧ ReadsOperands w i := by
  cases h : formatOf i with
  | R => exact encode_eq_iff_of_formatR h
  | X => exact encode_eq_iff_of_formatX h
  | C => exact encode_eq_iff_of_formatC h

/-! ### Decoding -/

theorem parse_eq_ok_iff : parse w = .ok i ↔ slice w 5 0 = (opOf i).code ∧ parseOp (opOf i) w = .ok i := by
  constructor
  · intro hparse
    simp only [parse] at hparse
    split at hparse
    next o ho =>
      obtain rfl := parseOp_yields_opOf o w _ hparse
      exact ⟨code_of_ofCode ho, hparse⟩
    next => cases hparse
  · rintro ⟨hop, hfields⟩
    simp only [parse, hop, ofCode_code, hfields]

/-- The modifier tells the commands of opcode 0x10 apart (30_encoding.md R76). -/
theorem parseOp_contract_eq_ok_iff : parseOp .contract w = .ok i ↔
    slice w 13 6 = 0 ∧ slice w 21 18 = 0 ∧ slice w 29 26 = 0 ∧
      ((∃ b : Bool, slice w 31 30 = b.toNat ∧ .veto (regAt w 14) (regAt w 22) b = i) ∨
        (slice w 31 30 = 2 ∧ .unwrap (regAt w 14) (regAt w 22) = i)) := by
  simp only [parseOp, bind_eq_ok, untyped_eq_ok, unused_eq_ok, exists_and_left, exists_const, Bool.exists_bool]
  have hm : slice w 31 30 < 4 := slice_lt w 31 30
  generalize slice w 31 30 = m at hm
  interval_cases m <;> simp [pure_ok]

/-- As `parseOp_contract_eq_ok_iff`, for opcode 0x12. -/
theorem parseOp_guard_eq_ok_iff : parseOp .guard w = .ok i ↔
    slice w 21 14 = 0 ∧ slice w 29 26 = 0 ∧ ∃ t, typed w = .ok t ∧
      ((slice w 31 30 = 0 ∧ .gnz t (regAt w 22) = i) ∨ (slice w 31 30 = 1 ∧ .gnat t (regAt w 22) = i) ∨
        (slice w 31 30 = 2 ∧ .gfin t (regAt w 22) = i)) := by
  simp only [parseOp, bind_eq_ok, unused_eq_ok, exists_and_left, exists_const]
  have hm : slice w 31 30 < 4 := slice_lt w 31 30
  generalize slice w 31 30 = m at hm
  interval_cases m <;> simp [pure_ok]

/-- The words that the decoder reads a command from, before the conditions that depend on the configuration. -/
theorem parse_eq_ok_iff_fields : parse w = .ok i ↔ HasFixedFields w i ∧ ReadsOperands w i := by
  rw [parse_eq_ok_iff]
  cases i
  case veto rd ra b =>
    simp [opOf, parseOp_contract_eq_ok_iff, HasFixedFields, rowAt, rowIndex, opcodeTable, wordModelRows, middleRows,
      lastRows, Op.code, opcodeMap, ReadsOperands, bitAt_eq_iff, slice_31_30_eq_bit, slice_13_0_eq]
    cases b <;> simp <;> tauto
  case unwrap =>
    simp [opOf, parseOp_contract_eq_ok_iff, HasFixedFields, rowAt, rowIndex, opcodeTable, wordModelRows, middleRows,
      lastRows, Op.code, opcodeMap, ReadsOperands, slice_31_26_eq_32, slice_13_0_eq]
    tauto
  case gnz | gnat | gfin =>
    simp [opOf, parseOp_guard_eq_ok_iff, HasFixedFields, rowAt, rowIndex, opcodeTable, wordModelRows, middleRows,
      lastRows, Op.code, opcodeMap, ReadsOperands, slice_31_26_eq_zero, slice_31_26_eq_16, slice_31_26_eq_32]
    tauto
  case wrapp sgn _ _ | bswap sgn _ _ _ | shlm sgn _ _ _ _ | shrm sgn _ _ _ _ | mulf sgn _ _ _ _ |
      div21 sgn _ _ _ _ _ =>
    simp [opOf, parseOp, bind_eq_ok, unused_eq_ok, pure_ok, systemsOnly_eq_ok_iff, arbitraryOnly_eq_ok_iff,
      HasFixedFields, rowAt, rowIndex, opcodeTable, wordModelRows, middleRows, lastRows, Op.code, opcodeMap,
      ReadsOperands, typed_eq_ok_iff, signed, arbBit, sizeField, slice_13_7_eq_one]
    cases sgn <;> simp <;> tauto
  case rcpset | rcp21set | rcpdiv | rcp21div =>
    simp [opOf, parseOp, bind_eq_ok, unused_eq_ok, pure_ok, unsignedOnly_eq_ok_iff, HasFixedFields, rowAt, rowIndex,
      opcodeTable, wordModelRows, middleRows, lastRows, Op.code, opcodeMap, ReadsOperands, typed_eq_ok_iff, signed,
      arbBit, sizeField, slice_7_0_eq]
    tauto
  all_goals
    simp [opOf, parseOp, bind_eq_ok, unused_eq_ok, untyped_eq_ok, pure_ok, HasFixedFields, rowAt, rowIndex,
      opcodeTable, wordModelRows, middleRows, lastRows, Op.code, opcodeMap, ReadsOperands, slice_13_0_eq,
      slice_19_0_eq, slice_31_0_eq] <;>
      tauto

theorem admissible_eq_ok_iff {u : Unit} : admissible c i = .ok u ↔ i.wellFormed c = true := by
  simp [admissible, bind_eq_ok, require_eq_ok, Instr.wellFormed, and_assoc]

theorem decode_eq_ok_iff : decode c w = .ok i ↔ parse w = .ok i ∧ i.wellFormed c = true := by
  simp only [decode, bind_eq_ok, admissible_eq_ok_iff, pure_ok, ok_inj]
  constructor
  · rintro ⟨_, hparse, _, hwf, rfl⟩
    exact ⟨hparse, hwf⟩
  · rintro ⟨hparse, hwf⟩
    exact ⟨i, hparse, (), hwf, rfl⟩

/-- The decoder reads exactly the legal commands, each from the word that the encoder makes of it. -/
theorem decode_eq_ok_iff_encode : decode c w = .ok i ↔ encode i = w ∧ i.wellFormed c = true := by
  rw [decode_eq_ok_iff, parse_eq_ok_iff_fields, encode_eq_iff]

/-- Settles O1. -/
theorem decodeInvertsEncode : Obligations.DecodeInvertsEncode :=
  fun _ _ hwf => decode_eq_ok_iff_encode.2 ⟨rfl, hwf⟩

/-- Settles O2. -/
theorem encodeInvertsDecode : Obligations.EncodeInvertsDecode :=
  fun _ _ _ hdecode => (decode_eq_ok_iff_encode.1 hdecode).symm

end Sys2Proof.Machine
end


section
/-! PROOFS. The statements of 30_encoding.md: the words that decode to a mnemonic are those its row of the opcode table
admits (R76, R80). -/

namespace Sys2Proof.Machine

open Sys2Proof.Laws

variable {c : Config} {w : Cmd} {i : Instr} {t : Ty} {k : Fin 40}

/-! ### The constraints of a row in the terms of the decoder -/

theorem wellFormed_iff :
    i.wellFormed c = true ↔ i.sizesFit c = true ∧ i.viewFits c = true ∧ i.destsDiffer = true := by
  simp [Instr.wellFormed, and_assoc]

theorem sizeFieldOk_of_tyOf {j k l : Nat} (h : tyOf (bitAt w j) (bitAt w k) (sizeAt w l) = .ok t)
    (hfits : t.fits c = true) : sizeFieldOk c (slice w k k) (slice w (l + 5) l) := by
  obtain ⟨-, harb, hsize⟩ := tyOf_eq_ok_iff.1 h
  rw [harb, hsize]
  cases t with
  | sys sgn n => simpa [sizeFieldOk, arbBit, sizeField, Ty.fits] using hfits
  | arb sgn => simp [sizeFieldOk, arbBit, sizeField]

theorem exists_tyOf {k l : Nat} (j : Nat) (h : sizeFieldOk c (slice w k k) (slice w (l + 5) l)) :
    ∃ t, tyOf (bitAt w j) (bitAt w k) (sizeAt w l) = .ok t ∧ t.fits c = true := by
  have hsize := (sizeAt_eq_iff w l _).1 rfl
  cases harb : bitAt w k with
  | false =>
    have hk : slice w k k = 0 := (bitAt_eq_iff w k false).1 harb
    exact ⟨_, rfl, by simpa [sizeFieldOk, hk, hsize, Ty.fits] using h⟩
  | true =>
    have hk : slice w k k = 1 := (bitAt_eq_iff w k true).1 harb
    have hzero : sizeAt w l = 0 := (sizeAt_eq_iff w l 0).2 (by simpa [sizeFieldOk, hk] using h)
    exact ⟨.arb (bitAt w j), by simp [tyOf, hzero, require, bind_ok, pure_ok], rfl⟩

theorem exists_typed (h : sizeFieldOk c (slice w 7 7) (slice w 13 8)) : ∃ t, typed w = .ok t ∧ t.fits c = true :=
  exists_tyOf 6 h

theorem exists_typed_systems (h : sizeFieldOk c (slice w 7 7) (slice w 13 8)) (hsys : slice w 7 7 = 0) :
    ∃ sgn n, typed w = .ok (.sys sgn n) ∧ (Ty.sys sgn n).fits c = true := by
  obtain ⟨t, ht, hfits⟩ := exists_typed h
  cases t with
  | sys sgn n => exact ⟨sgn, n, ht, hfits⟩
  | arb sgn =>
    obtain ⟨-, harb, -⟩ := typed_eq_ok_iff.1 ht
    cases hsys.symm.trans harb

theorem slice_size_of_typed {sgn : Bool} {n : Size} (h : typed w = .ok (.sys sgn n)) : slice w 13 8 = n.val := by
  obtain ⟨-, -, hsize⟩ := typed_eq_ok_iff.1 h
  exact hsize

theorem fits_of_doubletFits {sgn : Bool} {n : Size} (h : Size.doubletFits c n = true) :
    (Ty.sys sgn n).fits c = true := by
  simp only [Size.doubletFits, Ty.fits, decide_eq_true_eq] at h ⊢
  omega

theorem doubletFits_of_slice {n : Size} (hn : slice w 13 8 = n.val) (h : 2 * (slice w 13 8 + 1) ≤ c.CAP) :
    Size.doubletFits c n = true := decide_eq_true (by rwa [hn] at h)

theorem slice_of_doubletFits {sgn : Bool} {n : Size} (ht : typed w = .ok (.sys sgn n))
    (h : Size.doubletFits c n = true) : 2 * (slice w 13 8 + 1) ≤ c.CAP := by
  rw [slice_size_of_typed ht]
  exact of_decide_eq_true h

/-- `V = 8 * 2^vw` (30_encoding.md R73). -/
theorem view_bits_eq (vw : View) : vw.bits = 8 * 2 ^ vw.code := by
  cases vw <;> rfl

theorem view_constraint_iff {vw : View} (h : View.ofCode (slice w 19 18) = vw) :
    8 * 2 ^ slice w 19 18 ≤ c.W ↔ vw.bits ≤ c.W := by
  rw [(viewAt_eq_iff w vw).1 h, view_bits_eq]

theorem regAt_ne_iff : regAt w 14 ≠ regAt w 18 ↔ slice w 17 14 ≠ slice w 21 18 := by
  have hd : slice w 17 14 = (regAt w 14).val := (regAt_eq_iff w 14 _).1 rfl
  have he : slice w 21 18 = (regAt w 18).val := (regAt_eq_iff w 18 _).1 rfl
  rw [hd, he, ne_eq, ne_eq, Fin.ext_iff]

theorem slice_ne_of_regAt {rd re : RegNum} (hd : regAt w 14 = rd) (he : regAt w 18 = re) (hne : rd ≠ re) :
    slice w 17 14 ≠ slice w 21 18 := regAt_ne_iff.1 (by rwa [hd, he])

/-! ### A word that spells a legal command is admitted by the command's row -/

/-- A constraint that the row does not have. -/
theorem not_constrained {P : Prop} (h : false = true) : P := nomatch h

theorem row_admits (hfix : HasFixedFields w i) (hread : ReadsOperands w i) (hwf : i.wellFormed c = true) :
    (rowAt (rowIndex i)).admits c w := by
  obtain ⟨hsize, hview, hdiff⟩ := wellFormed_iff.1 hwf
  cases i
  case rdlen | rde | veto | unwrap | rdstat | rdcfg =>
    exact ⟨hfix, not_constrained, not_constrained, not_constrained, not_constrained, not_constrained⟩
  case init | rdbit | rdapp | cnt | asc | dsc | feq | gnz | gnat | gfin | add | sub | bnot | cpl | mag | shl | shr |
      mul | sqr | bswap | shlm | shrm | wrapp | rcpset =>
    obtain ⟨ht, -⟩ := hread
    exact ⟨hfix, fun _ => sizeFieldOk_of_tyOf ht hsize, not_constrained, not_constrained, not_constrained,
      not_constrained⟩
  case wrw | rdw =>
    obtain ⟨ht, -, hvw, -⟩ := hread
    exact ⟨hfix, fun _ => sizeFieldOk_of_tyOf ht hsize, not_constrained,
      fun _ => (view_constraint_iff hvw).2 (of_decide_eq_true hview), not_constrained, not_constrained⟩
  case cvt =>
    obtain ⟨hts, htd, -⟩ := hread
    obtain ⟨hs, hd⟩ := (Bool.and_eq_true _ _).mp hsize
    exact ⟨hfix, fun _ => sizeFieldOk_of_tyOf hts hs, not_constrained, not_constrained, not_constrained,
      fun _ => sizeFieldOk_of_tyOf htd hd⟩
  case mulf | rcp21set =>
    obtain ⟨ht, -⟩ := hread
    exact ⟨hfix, fun _ => sizeFieldOk_of_tyOf ht (fits_of_doubletFits hsize), fun _ => slice_of_doubletFits ht hsize,
      not_constrained, not_constrained, not_constrained⟩
  case div21 | rcp21div =>
    obtain ⟨ht, hd, he, -⟩ := hread
    exact ⟨hfix, fun _ => sizeFieldOk_of_tyOf ht (fits_of_doubletFits hsize), fun _ => slice_of_doubletFits ht hsize,
      not_constrained, fun _ => slice_ne_of_regAt hd he (of_decide_eq_true hdiff), not_constrained⟩
  case div | rcpdiv =>
    obtain ⟨ht, hd, he, -⟩ := hread
    exact ⟨hfix, fun _ => sizeFieldOk_of_tyOf ht hsize, not_constrained, not_constrained,
      fun _ => slice_ne_of_regAt hd he (of_decide_eq_true hdiff), not_constrained⟩
  case rcprd =>
    obtain ⟨hd, he, -⟩ := hread
    exact ⟨hfix, not_constrained, not_constrained, not_constrained,
      fun _ => slice_ne_of_regAt hd he (of_decide_eq_true hdiff), not_constrained⟩

/-! ### A word that a row admits spells a legal command of that row -/

/-- Row `k` is the row of a legal command whose operands the word spells. -/
def Spells (c : Config) (w : Cmd) (k : Fin 40) : Prop :=
  ∃ i, rowIndex i = k ∧ ReadsOperands w i ∧ i.wellFormed c = true

theorem legal_of_fits (hsize : i.sizesFit c = true) (h : i.viewFits c = true ∧ i.destsDiffer = true) :
    i.wellFormed c = true := wellFormed_iff.2 ⟨hsize, h⟩

theorem spells_untyped (i : Instr) (hread : ReadsOperands w i) (hwf : i.wellFormed c = true) :
    Spells c w (rowIndex i) := ⟨i, rfl, hread, hwf⟩

/-! The command of a row, as a function of the type that the word spells: of any kind, or of the kind that the row
takes. -/

theorem spells_typed (h : sizeFieldOk c (slice w 7 7) (slice w 13 8)) (mk : Ty → Instr)
    (hmk : ∀ t, typed w = .ok t → rowIndex (mk t) = k ∧ ReadsOperands w (mk t))
    (hwf : ∀ t, t.fits c = true → (mk t).wellFormed c = true) : Spells c w k := by
  obtain ⟨t, ht, hfits⟩ := exists_typed h
  obtain ⟨hk, hread⟩ := hmk t ht
  exact ⟨mk t, hk, hread, hwf t hfits⟩

theorem spells_systems (h : sizeFieldOk c (slice w 7 7) (slice w 13 8)) (hsys : slice w 7 7 = 0)
    (mk : Bool → Size → Instr)
    (hmk : ∀ sgn n, typed w = .ok (.sys sgn n) → rowIndex (mk sgn n) = k ∧ ReadsOperands w (mk sgn n))
    (hwf : ∀ sgn n, slice w 13 8 = n.val → (Ty.sys sgn n).fits c = true → (mk sgn n).wellFormed c = true) :
    Spells c w k := by
  obtain ⟨sgn, n, ht, hfits⟩ := exists_typed_systems h hsys
  obtain ⟨hk, hread⟩ := hmk sgn n ht
  exact ⟨mk sgn n, hk, hread, hwf sgn n (slice_size_of_typed ht) hfits⟩

theorem spells_unsigned (h : sizeFieldOk c (slice w 7 7) (slice w 13 8)) (hlow : slice w 6 6 = 0 ∧ slice w 7 7 = 0)
    (mk : Size → Instr)
    (hmk : ∀ n, typed w = .ok (.sys false n) → rowIndex (mk n) = k ∧ ReadsOperands w (mk n))
    (hwf : ∀ n, slice w 13 8 = n.val → (Ty.sys false n).fits c = true → (mk n).wellFormed c = true) :
    Spells c w k := by
  obtain ⟨hsgn, hsys⟩ := hlow
  obtain ⟨sgn, n, ht, hfits⟩ := exists_typed_systems h hsys
  obtain ⟨hbit, -⟩ := typed_eq_ok_iff.1 ht
  cases sgn with
  | true => cases hsgn.symm.trans hbit
  | false =>
    obtain ⟨hk, hread⟩ := hmk n ht
    exact ⟨mk n, hk, hread, hwf n (slice_size_of_typed ht) hfits⟩

theorem spells_arbitrary (h : sizeFieldOk c (slice w 7 7) (slice w 13 8)) (harb : slice w 7 7 = 1) (mk : Bool → Instr)
    (hmk : ∀ sgn, typed w = .ok (.arb sgn) →
      rowIndex (mk sgn) = k ∧ ReadsOperands w (mk sgn) ∧ (mk sgn).wellFormed c = true) : Spells c w k := by
  obtain ⟨t, ht, -⟩ := exists_typed h
  cases t with
  | sys sgn n =>
    obtain ⟨-, hbit, -⟩ := typed_eq_ok_iff.1 ht
    cases harb.symm.trans hbit
  | arb sgn => exact ⟨mk sgn, hmk sgn ht⟩

theorem spells_of_row_admits (k : Fin 40) (h : (rowAt k).admits c w) : Spells c w k := by
  obtain ⟨hfix, htyped, hdouble, hview, hdests, hconv⟩ := h
  have hvw := fun h => (view_constraint_iff (c := c) rfl).1 (hview h)
  have hne := fun h => decide_eq_true (regAt_ne_iff.2 (hdests h))
  match k with
  | 0 =>
    exact spells_typed (htyped rfl) (.init · (regAt w 14)) (fun _ ht => ⟨rfl, ht, rfl⟩)
      fun _ hf => legal_of_fits hf ⟨rfl, rfl⟩
  | 1 =>
    exact spells_typed (htyped rfl) (.wrw · (regAt w 14) (View.ofCode (slice w 19 18)) (idxOf w))
      (fun _ ht => ⟨rfl, ht, rfl, rfl, rfl⟩) fun _ hf => legal_of_fits hf ⟨decide_eq_true (hvw rfl), rfl⟩
  | 2 =>
    exact spells_arbitrary (htyped rfl) (slice_13_7_eq_one.1 (hfix (13, 7, 1) (by decide))).1
      (.wrapp · (regAt w 14) (bitAt w 20)) fun _ ht => ⟨rfl, ⟨ht, rfl, rfl⟩, rfl⟩
  | 3 =>
    exact spells_typed (htyped rfl) (.rdw · (regAt w 14) (View.ofCode (slice w 19 18)) (idxOf w))
      (fun _ ht => ⟨rfl, ht, rfl, rfl, rfl⟩) fun _ hf => legal_of_fits hf ⟨decide_eq_true (hvw rfl), rfl⟩
  | 4 =>
    exact spells_typed (htyped rfl) (.rdbit · (regAt w 14) (idxOf w)) (fun _ ht => ⟨rfl, ht, rfl, rfl⟩)
      fun _ hf => legal_of_fits hf ⟨rfl, rfl⟩
  | 5 => exact spells_untyped (.rdlen (regAt w 14)) rfl rfl
  | 6 =>
    exact spells_typed (htyped rfl) (.rdapp · (regAt w 14)) (fun _ ht => ⟨rfl, ht, rfl⟩)
      fun _ hf => legal_of_fits hf ⟨rfl, rfl⟩
  | 7 => exact spells_untyped (.rde (regAt w 14)) rfl rfl
  | 8 =>
    exact spells_typed (htyped rfl) (.cnt · (regAt w 14) (regAt w 22) (bitAt w 30))
      (fun _ ht => ⟨rfl, ht, rfl, rfl, rfl⟩) fun _ hf => legal_of_fits hf ⟨rfl, rfl⟩
  | 9 =>
    exact spells_typed (htyped rfl) (.asc · (regAt w 14) (regAt w 22) (bitAt w 30))
      (fun _ ht => ⟨rfl, ht, rfl, rfl, rfl⟩) fun _ hf => legal_of_fits hf ⟨rfl, rfl⟩
  | 10 =>
    exact spells_typed (htyped rfl) (.dsc · (regAt w 14) (regAt w 22) (bitAt w 30))
      (fun _ ht => ⟨rfl, ht, rfl, rfl, rfl⟩) fun _ hf => legal_of_fits hf ⟨rfl, rfl⟩
  | 11 =>
    exact spells_systems (htyped rfl) (hfix (7, 7, 0) (by decide)) (.bswap · · (regAt w 14) (regAt w 22))
      (fun _ _ ht => ⟨rfl, ht, rfl, rfl⟩) fun _ _ _ hf => legal_of_fits hf ⟨rfl, rfl⟩
  | 12 =>
    obtain ⟨td, htd, hdst⟩ := exists_tyOf 28 (hconv rfl)
    exact spells_typed (htyped rfl) (.cvt · td (regAt w 14) (regAt w 18)) (fun _ ht => ⟨rfl, ht, htd, rfl, rfl⟩)
      fun _ hf => legal_of_fits ((Bool.and_eq_true _ _).mpr ⟨hf, hdst⟩) ⟨rfl, rfl⟩
  | 13 => exact spells_untyped (.veto (regAt w 14) (regAt w 22) (bitAt w 30)) ⟨rfl, rfl, rfl⟩ rfl
  | 14 => exact spells_untyped (.unwrap (regAt w 14) (regAt w 22)) ⟨rfl, rfl⟩ rfl
  | 15 =>
    exact spells_typed (htyped rfl) (.feq · (regAt w 22) (regAt w 26)) (fun _ ht => ⟨rfl, ht, rfl, rfl⟩)
      fun _ hf => legal_of_fits hf ⟨rfl, rfl⟩
  | 16 =>
    exact spells_typed (htyped rfl) (.gnz · (regAt w 22)) (fun _ ht => ⟨rfl, ht, rfl⟩)
      fun _ hf => legal_of_fits hf ⟨rfl, rfl⟩
  | 17 =>
    exact spells_typed (htyped rfl) (.gnat · (regAt w 22)) (fun _ ht => ⟨rfl, ht, rfl⟩)
      fun _ hf => legal_of_fits hf ⟨rfl, rfl⟩
  | 18 =>
    exact spells_typed (htyped rfl) (.gfin · (regAt w 22)) (fun _ ht => ⟨rfl, ht, rfl⟩)
      fun _ hf => legal_of_fits hf ⟨rfl, rfl⟩
  | 19 =>
    exact spells_typed (htyped rfl) (.add · (regAt w 14) (regAt w 22) (regAt w 26))
      (fun _ ht => ⟨rfl, ht, rfl, rfl, rfl⟩) fun _ hf => legal_of_fits hf ⟨rfl, rfl⟩
  | 20 =>
    exact spells_typed (htyped rfl) (.sub · (regAt w 14) (regAt w 22) (regAt w 26))
      (fun _ ht => ⟨rfl, ht, rfl, rfl, rfl⟩) fun _ hf => legal_of_fits hf ⟨rfl, rfl⟩
  | 21 =>
    exact spells_typed (htyped rfl) (.bnot · (regAt w 14) (regAt w 22)) (fun _ ht => ⟨rfl, ht, rfl, rfl⟩)
      fun _ hf => legal_of_fits hf ⟨rfl, rfl⟩
  | 22 =>
    exact spells_typed (htyped rfl) (.cpl · (regAt w 14) (regAt w 22) (bitAt w 30))
      (fun _ ht => ⟨rfl, ht, rfl, rfl, rfl⟩) fun _ hf => legal_of_fits hf ⟨rfl, rfl⟩
  | 23 =>
    exact spells_typed (htyped rfl) (.mag · (regAt w 14) (regAt w 22)) (fun _ ht => ⟨rfl, ht, rfl, rfl⟩)
      fun _ hf => legal_of_fits hf ⟨rfl, rfl⟩
  | 24 =>
    exact spells_typed (htyped rfl) (.shl · (regAt w 14) (regAt w 22) (regAt w 26))
      (fun _ ht => ⟨rfl, ht, rfl, rfl, rfl⟩) fun _ hf => legal_of_fits hf ⟨rfl, rfl⟩
  | 25 =>
    exact spells_typed (htyped rfl) (.shr · (regAt w 14) (regAt w 22) (regAt w 26))
      (fun _ ht => ⟨rfl, ht, rfl, rfl, rfl⟩) fun _ hf => legal_of_fits hf ⟨rfl, rfl⟩
  | 26 =>
    exact spells_systems (htyped rfl) (hfix (7, 7, 0) (by decide))
      (.shlm · · (regAt w 14) (regAt w 22) (regAt w 26)) (fun _ _ ht => ⟨rfl, ht, rfl, rfl, rfl⟩)
      fun _ _ _ hf => legal_of_fits hf ⟨rfl, rfl⟩
  | 27 =>
    exact spells_systems (htyped rfl) (hfix (7, 7, 0) (by decide))
      (.shrm · · (regAt w 14) (regAt w 22) (regAt w 26)) (fun _ _ ht => ⟨rfl, ht, rfl, rfl, rfl⟩)
      fun _ _ _ hf => legal_of_fits hf ⟨rfl, rfl⟩
  | 28 =>
    exact spells_typed (htyped rfl) (.mul · (regAt w 14) (regAt w 22) (regAt w 26))
      (fun _ ht => ⟨rfl, ht, rfl, rfl, rfl⟩) fun _ hf => legal_of_fits hf ⟨rfl, rfl⟩
  | 29 =>
    exact spells_systems (htyped rfl) (hfix (7, 7, 0) (by decide))
      (.mulf · · (regAt w 14) (regAt w 22) (regAt w 26)) (fun _ _ ht => ⟨rfl, ht, rfl, rfl, rfl⟩)
      fun _ _ hn _ => legal_of_fits (doubletFits_of_slice hn (hdouble rfl)) ⟨rfl, rfl⟩
  | 30 =>
    exact spells_typed (htyped rfl) (.sqr · (regAt w 14) (regAt w 22)) (fun _ ht => ⟨rfl, ht, rfl, rfl⟩)
      fun _ hf => legal_of_fits hf ⟨rfl, rfl⟩
  | 31 =>
    exact spells_typed (htyped rfl) (.div · (regAt w 14) (regAt w 18) (regAt w 22) (regAt w 26))
      (fun _ ht => ⟨rfl, ht, rfl, rfl, rfl, rfl⟩) fun _ hf => legal_of_fits hf ⟨rfl, hne rfl⟩
  | 32 =>
    exact spells_systems (htyped rfl) (hfix (7, 7, 0) (by decide))
      (.div21 · · (regAt w 14) (regAt w 18) (regAt w 22) (regAt w 26))
      (fun _ _ ht => ⟨rfl, ht, rfl, rfl, rfl, rfl⟩)
      fun _ _ hn _ => legal_of_fits (doubletFits_of_slice hn (hdouble rfl)) ⟨rfl, hne rfl⟩
  | 33 =>
    exact spells_unsigned (htyped rfl) ((slice_7_0_eq (by decide)).1 (hfix (7, 0, 0x28) (by decide))).2
      (.rcpset · (slotAt w 18) (regAt w 22)) (fun _ ht => ⟨rfl, ht, rfl, rfl⟩)
      fun _ _ hf => legal_of_fits hf ⟨rfl, rfl⟩
  | 34 =>
    exact spells_unsigned (htyped rfl) ((slice_7_0_eq (by decide)).1 (hfix (7, 0, 0x29) (by decide))).2
      (.rcpdiv · (regAt w 14) (regAt w 18) (regAt w 22) (slotAt w 26)) (fun _ ht => ⟨rfl, ht, rfl, rfl, rfl, rfl⟩)
      fun _ _ hf => legal_of_fits hf ⟨rfl, hne rfl⟩
  | 35 =>
    exact spells_unsigned (htyped rfl) ((slice_7_0_eq (by decide)).1 (hfix (7, 0, 0x2A) (by decide))).2
      (.rcp21set · (slotAt w 18) (regAt w 22)) (fun _ ht => ⟨rfl, ht, rfl, rfl⟩)
      fun _ hn _ => legal_of_fits (doubletFits_of_slice hn (hdouble rfl)) ⟨rfl, rfl⟩
  | 36 =>
    exact spells_unsigned (htyped rfl) ((slice_7_0_eq (by decide)).1 (hfix (7, 0, 0x2B) (by decide))).2
      (.rcp21div · (regAt w 14) (regAt w 18) (regAt w 22) (slotAt w 26))
      (fun _ ht => ⟨rfl, ht, rfl, rfl, rfl, rfl⟩)
      fun _ hn _ => legal_of_fits (doubletFits_of_slice hn (hdouble rfl)) ⟨rfl, hne rfl⟩
  | 37 =>
    exact spells_untyped
      (.rcprd (regAt w 14) (regAt w 18) (slotAt w 26)) ⟨rfl, rfl, rfl⟩ (legal_of_fits rfl ⟨rfl, hne rfl⟩)
  | 38 => exact spells_untyped (.rdstat) trivial rfl
  | 39 => exact spells_untyped (.rdcfg (idxOf w)) rfl rfl
  | ⟨n + 40, h⟩ => exact absurd h (by omega)

/-- Settles O4: the fixed fields of the row are the same on both sides, and its constraints say that a legal command can
be read. -/
theorem legalWordsAreTheTables : Obligations.LegalWordsAreTheTables := by
  intro c w m
  constructor
  · rintro ⟨i, hdecode, rfl⟩
    obtain ⟨hparse, hwf⟩ := decode_eq_ok_iff.1 hdecode
    obtain ⟨hfix, hread⟩ := parse_eq_ok_iff_fields.1 hparse
    exact ⟨_, rowAt_mem _, mnemonic_rowAt i, row_admits hfix hread hwf⟩
  · rintro ⟨row, hrow, rfl, hadmits⟩
    obtain ⟨k, hk, rfl⟩ := List.getElem_of_mem hrow
    obtain ⟨i, hi, hread, hwf⟩ := spells_of_row_admits ⟨k, hk⟩ hadmits
    have hrow : opcodeTable[k] = rowAt (rowIndex i) := by rw [hi]; rfl
    obtain ⟨hfix, -⟩ := hadmits
    rw [hrow] at hfix ⊢
    exact ⟨i, decode_eq_ok_iff.2 ⟨parse_eq_ok_iff_fields.2 ⟨hfix, hread⟩, hwf⟩, (mnemonic_rowAt i).symm⟩

end Sys2Proof.Machine
end


section
/-! PROOFS. The statements about a step as a whole (20_memory.md R62, 60_exceptions.md R219 to R241) and the tier 1
statements: what a step issues, that it answers, and what it leaves unchanged. -/

namespace Sys2Proof.Machine

open Sys2Proof.Laws

variable {c : Config} {s t : State} {w : Cmd} {i : Instr} {rest : List HostAction}

/-! ### What a step issues -/

theorem step_idle (h : s.input = []) : step s = .next s := by simp [step, h]

theorem step_command {d : Nat} (h : s.input = .command w d :: rest) : step s = issue w (s.present d rest) := by
  simp [step, h]

theorem execIllegal_of_ready (hf : s.fault = false) : execIllegal s = .next (s.raise .illegal) :=
  command_error hf rfl

/-- Settles O3. -/
theorem specWordsDecode : Obligations.SpecWordsDecode := by
  unfold Obligations.SpecWordsDecode
  decide

theorem width_bits_injective : Function.Injective Width.bits := by
  intro x y
  cases x <;> cases y <;> decide

/-- Two configurations with one `W` and one `CAP` differ in `INFDIV_ERR` only. -/
theorem eq_with_infdivErr {c c' : Config} (hW : c'.W = c.W) (hCAP : c'.CAP = c.CAP) :
    c' = { c with infdivErr := c'.infdivErr } := by
  obtain ⟨width, capMinus2, infdivErr⟩ := c
  obtain ⟨width', capMinus2', infdivErr'⟩ := c'
  obtain rfl : width' = width := width_bits_injective hW
  obtain rfl : capMinus2' = capMinus2 := Fin.ext (Nat.add_right_cancel hCAP)
  rfl

theorem decode_with_infdivErr (c : Config) (b : Bool) (w : Cmd) :
    decode { c with infdivErr := b } w = decode c w := by
  have hadm (i : Instr) : admissible { c with infdivErr := b } i = admissible c i := by cases i <;> rfl
  simp only [decode, hadm]

/-- Settles O5: no check of the decoder looks at `INFDIV_ERR`, and a rejected word becomes `execIllegal`. -/
theorem illegalWordsRaiseIllegal : Obligations.IllegalWordsRaiseIllegal := by
  refine ⟨fun c c' w hW hCAP => ?_, fun s w d rest hf hin hill => ?_⟩
  · rw [eq_with_infdivErr hW hCAP, decode_with_infdivErr]
  · rw [step_command hin, issue_illegal (by simpa using hill)]
    exact execIllegal_of_ready hf

/-- Settles O6. -/
theorem stepRunsTheDecodedCommand : Obligations.StepRunsTheDecodedCommand := by
  refine ⟨fun s w d rest i hin hdec => ?_, fun s => step_idle⟩
  rw [step_command hin, issue_ok (by simpa using hdec)]

/-! ### Every command answers -/

/-- Every command but the two that answer in the fault state too runs in the frame `command`. -/
theorem exec_eq_command (i : Instr) (s : State) :
    (∃ body, exec i s = command s body) ∨ ∃ d, exec i s = .next (s.answer d false) := by
  cases i
  case rdstat => exact .inr ⟨s.statusWord, rfl⟩
  case rdcfg idx => exact .inr ⟨cfgWord s.cfg idx.toNat, rfl⟩
  case wrapp | rdlen | rde | veto | unwrap =>
    simp only [exec, execWrapp, execRdlen, execRde, execVeto, execUnwrap]
    exact .inl ⟨_, rfl⟩
  all_goals exact .inl ⟨_, rfl⟩

theorem exec_next (i : Instr) (s : State) : ∃ t, exec i s = .next t := by
  obtain ⟨body, h⟩ | ⟨d, h⟩ := exec_eq_command i s
  · rw [h]
    exact command_next s body
  · exact ⟨_, h⟩

theorem issue_next (w : Cmd) (s : State) : ∃ t, issue w s = .next t := by
  cases hdec : decode s.cfg w with
  | ok i =>
    rw [issue_ok hdec]
    exact exec_next i s
  | error why =>
    rw [issue_illegal (by simp [hdec])]
    exact command_next s _

/-- Settles O10. -/
theorem everyCommandAnswers : Obligations.EveryCommandAnswers := by
  refine ⟨fun s => ?_, exec_next⟩
  cases hin : s.input with
  | nil => exact ⟨s, step_idle hin⟩
  | cons act rest =>
    cases act with
    | command w d =>
      rw [step_command hin]
      exact issue_next w _
    | reset => exact ⟨resetState s.cfg rest, step_reset hin⟩

/-! ### The frame -/

theorem reg_write_of_not_mem {rd : RegNum} {r : RegNum} (v : Reg) (h : r ∉ [rd]) : (s.write rd v).reg r = s.reg r :=
  State.reg_write_ne s rd r v (by simpa using h)

theorem reg_write2_of_not_mem {rd re r : RegNum} (v v' : Reg) (x : Nat) (h : r ∉ [rd, re]) :
    (s.write2 rd v re v' x).reg r = s.reg r := by
  simp only [List.mem_cons, List.not_mem_nil, or_false, not_or] at h
  simp [State.reg_write2, h]

theorem slot_setSlot_ne {k k' : SlotNum} (d : Slot) (h : k ≠ k') : (s.setSlot k d).slot k' = s.slot k' := by
  simp [State.slot_setSlot, h.symm]

/-- Settles O11, by what a command can leave (`exec_cases`). -/
theorem commandFrame : Obligations.CommandFrame := by
  intro i s t h
  obtain ⟨x, z, rfl⟩ | ⟨hf, k, rfl⟩ | ⟨hf, rd, v, hd, rfl⟩ | ⟨hf, rd, re, v, v', x, hd, rfl⟩ | ⟨hf, k, d, hk, rfl⟩ :=
    exec_cases h
  · exact ⟨fun _ _ => rfl, fun _ _ => rfl, rfl, rfl, rfl, .inl ⟨rfl, rfl⟩⟩
  · exact ⟨fun _ _ => rfl, fun _ _ => rfl, rfl, rfl, rfl, .inr ⟨hf, rfl⟩⟩
  · exact ⟨fun r hr => reg_write_of_not_mem v (hd ▸ hr), fun _ _ => rfl, rfl, rfl, rfl, .inl ⟨rfl, rfl⟩⟩
  · exact ⟨fun r hr => reg_write2_of_not_mem v v' x (hd ▸ hr), fun _ _ => rfl, rfl, rfl, rfl, .inl ⟨rfl, rfl⟩⟩
  · refine ⟨fun _ _ => rfl, fun k' hk' => slot_setSlot_ne d ?_, rfl, rfl, rfl, .inl ⟨rfl, rfl⟩⟩
    rintro rfl
    exact hk' hk

/-! ### Copies and constants -/

/-- Settles O31. -/
theorem vetoAndUnwrapCopy : Obligations.VetoAndUnwrapCopy :=
  fun _ _ _ hf => ⟨fun _ => command_ok hf rfl, command_ok hf rfl⟩

theorem W_eq_widthCode (c : Config) : c.W = 8 * 2 ^ widthCode c := by
  obtain ⟨width, -, -⟩ := c
  cases width <;> rfl

theorem cfgWord_of_ge {idx : Nat} (h : 5 ≤ idx) : cfgWord c idx = 0 := by
  obtain ⟨m, rfl⟩ := Nat.exists_eq_add_of_le' h
  rfl

/-- Settles O25. -/
theorem statusAndConfigurationReads : Obligations.StatusAndConfigurationReads := by
  intro s
  refine ⟨?_, ⟨widthCode s.cfg, rfl, W_eq_widthCode s.cfg⟩, rfl, rfl, rfl, rfl, fun idx hidx => ?_⟩
  · cases hf : s.fault <;> simp [exec, execRdstat, State.statusWord, hf]
  · simp [exec, execRdcfg, cfgWord_of_ge hidx]

end Sys2Proof.Machine
end


section
/-! PROOFS. The statements that hold of every command by one argument: what a step keeps well formed (10_state.md R20,
R21, R30, R35), which error flags it passes on (00_scope.md R19) and what it answers (10_state.md R27). All three are
read off one description of what a command does, `Effect`, which is proved once for each shape of command. -/

namespace Sys2Proof.Machine

variable {c : Config} {s u : State} {i : Instr} {t : Ty} {n : Size} {rd re ra rb : RegNum} {k : SlotNum} {v : Reg}

/-! ### Records that are well formed -/

theorem holds_of_res {e : Bool} {x : Int} (h : res c t x e = .ok v) : holds c t v x ∧ v.err = e := by
  by_cases hc : inCapacity c t x
  · obtain ⟨r, hr, hh, he⟩ := res_ok e hc
    obtain rfl : r = v := ok_inj.1 (hr.symm.trans h)
    exact ⟨hh, he⟩
  · cases (res_error e hc).symm.trans h

theorem res_wf {e : Bool} {x : Int} (h : res c t x e = .ok v) (hf : t.fits c = true) : v.wf c :=
  holds_wf (holds_of_res h).1 hf

theorem cntrec_spec {m : Count} {e : Bool} (h : cntrec c m e = .ok v) : v.wf c ∧ v.err = e := by
  cases m with
  | infinite =>
    obtain rfl := ok_inj.1 h
    exact ⟨by simp [Reg.wf, Reg.len], rfl⟩
  | finite m =>
    have h : res c (.arb false) m e = .ok v := h
    exact ⟨res_wf h rfl, (holds_of_res h).2⟩

theorem sysrec_wf {m : Nat} (hm : m ≤ c.CAP) (x : Int) (e : Bool) : (sysrec c m x e).wf c :=
  ⟨by rw [sysrec_len]; exact hm, sysrec_words c m x e⟩

theorem words_le_of_fits (sgn : Bool) (h : (Ty.sys sgn n).fits c = true) : words n ≤ c.CAP := by
  simpa [Ty.fits, words] using h

theorem double_words_le (h : Size.doubletFits c n = true) : 2 * words n ≤ c.CAP := by
  simpa [Size.doubletFits, words] using h

theorem elemWr_err {r : Reg} {w j d : Nat} (h : elemWr c t r w j d = .ok v) : v.err = r.err := by
  cases t with
  | sys sgn n =>
    obtain ⟨_, _, h⟩ := bind_eq_ok.1 h
    split at h
    · cases h
    · obtain rfl := ok_inj.1 h
      rfl
  | arb sgn =>
    simp only [elemWr] at h
    split at h
    · cases h
    · obtain rfl := ok_inj.1 h
      rfl

theorem elemWr_wf {r : Reg} {vw : View} {j d : Nat} (hw : r.wf c) (hv : vw.bits ≤ c.W)
    (h : elemWr c t r vw.bits j d = .ok v) : v.wf c := by
  cases t with
  | sys sgn n =>
    by_cases hl : r.len = words n
    · by_cases he : vw.bits * (j + 1) ≤ bitLen c n
      · obtain ⟨r', hr', hwf, -⟩ := elemWr_sys_ok (sgn := sgn) (d := d) hw hl he
        obtain rfl : r' = v := ok_inj.1 (hr'.symm.trans h)
        exact hwf
      · cases (elemWr_sys_index hl he).symm.trans h
    · cases (elemWr_sys_operand hl).symm.trans h
  | arb sgn =>
    by_cases he : vw.bits * j / c.W < c.CAP
    · have hpos : 0 < vw.bits := by have := View.bits_pos vw; omega
      obtain ⟨r', hr', hwf, -⟩ := elemWr_arb_ok (sgn := sgn) (d := d) hw (View.bits_dvd c vw hv) hpos he
      obtain rfl : r' = v := ok_inj.1 (hr'.symm.trans h)
      exact hwf
    · cases (elemWr_arb_capacity he).symm.trans h

theorem trimTop_wf {r : Reg} (hw : r.wf c) (e : Nat) (a b : Bool) : Reg.wf c ⟨trimTop e r.body, a, b⟩ :=
  ⟨(trimTop_length_le e r.body).trans hw.1, fun w hmem => hw.2 w (mem_of_mem_trimTop hmem)⟩

/-- An up-shift writes the record of some integer, whatever the distance. -/
theorem shiftUp_eq_res (c : Config) (t : Ty) (a : Int) (d : Count) (e : Bool) :
    ∃ x, shiftUp c t a d e = res c t x e := by
  cases d with
  | finite d => exact ⟨_, shiftUp_finite c t a d e⟩
  | infinite => exact ⟨_, shiftUp_infinite c t a e⟩

/-! ### Answers that fit a Word -/

theorem bitWord_lt (c : Config) (b : Bool) : bitWord b < c.B := by
  have := c.B_ge
  cases b <;> simp only [bitWord, Bool.toNat_true, Bool.toNat_false] <;> omega

theorem natOfBits_lt (bits : List Bool) : natOfBits bits < 2 ^ bits.length := by
  have h : ∀ w ∈ bits.map Bool.toNat, w < 2 := by
    intro w hw
    obtain ⟨b, -, rfl⟩ := List.mem_map.1 hw
    exact b.toNat_lt
  simpa [natOfBits] using natOf_lt h

theorem elemRd_lt {r : Reg} {vw : View} {j x : Nat} (hv : vw.bits ≤ c.W) (h : elemRd c t r vw.bits j = .ok x) :
    x < c.B := by
  obtain ⟨_, -, h⟩ := bind_eq_ok.1 h
  obtain rfl := ok_inj.1 h
  refine (natOfBits_lt _).trans_le ?_
  simpa [Config.B] using Nat.pow_le_pow_right (by decide : 0 < 2) hv

theorem len_lt_B {r : Reg} (hw : r.wf c) : r.len < c.B := by
  have := hw.1
  have := c.CAP_le
  have := c.B_ge
  omega

theorem statusWord_lt (s : State) : s.statusWord < s.cfg.B := by
  have := s.cfg.B_ge
  have := s.fcause.isLt
  have := s.fault.toNat_lt
  simp only [State.statusWord]
  omega

theorem cfgWord_lt (c : Config) (idx : Nat) : cfgWord c idx < c.B := by
  have := c.B_ge
  have := c.CAP_le
  have : widthCode c ≤ 3 := by
    simp only [widthCode]
    split <;> decide
  simp only [cfgWord]
  split <;> omega

/-! ### What a command does -/

/-- The flags of the command's source registers and of the slot it applies are all passed on to `e`. -/
def PassesFlags (i : Instr) (s : State) (e : Bool) : Prop :=
  (∀ ra ∈ i.sources, (s.reg ra).err = true → e = true) ∧
  (∀ k, i.sourceSlot = some k → (s.slot k).err = true → e = true)

/-- The record a command writes: well formed when the command is legal and the state is, and with the flags of the
sources unless the command lowers flags. -/
structure Sound (i : Instr) (s : State) (v : Reg) : Prop where
  wf : s.wf → i.wellFormed s.cfg = true → v.wf s.cfg
  flags : i.lowersFlag = false → PassesFlags i s v.err

/-- What the execution of a command is, with all that the statements about every command need. -/
inductive Effect (i : Instr) (s : State) : State → Prop
  | ignored (hf : s.fault = true) : Effect i s s.ignore
  | raised (k : Cause) : Effect i s (s.raise k)
  | answered (x : Nat) (z : Bool) (hd : i.dests = []) (hx : s.wf → i.wellFormed s.cfg = true → x < s.cfg.B)
      (hz : z = true → i.mayAnswerNil = true ∧ x = 0) : Effect i s (s.answer x z)
  | wrote (rd : RegNum) (v : Reg) (hd : i.dests = [rd]) (hv : Sound i s v) : Effect i s (s.write rd v)
  | wrote2 (rd re : RegNum) (v v' : Reg) (x : Nat) (hd : i.dests = [rd, re])
      (hx : x < s.cfg.B) (hv : Sound i s v) (hv' : Sound i s v') : Effect i s (s.write2 rd v re v' x)
  | constructed (k : SlotNum) (d : Slot) (hd : i.dests = [])
      (hw : s.wf → i.wellFormed s.cfg = true → d.wf s.cfg) : Effect i s ((s.setSlot k d).answer 0 false)

theorem command_effect {body : Except Cause State} (h : command s body = .next u)
    (hb : body = .ok u → Effect i s u) : Effect i s u := by
  obtain ⟨hf, rfl⟩ | ⟨_, hok | ⟨k, _, rfl⟩⟩ := command_cases h
  · exact .ignored hf
  · exact hb hok
  · exact .raised k

/-- A response that needs no premise to fit a Word and is no `nil`. -/
theorem Effect.answer_bit (hd : i.dests = []) (b : Bool) : Effect i s (s.answer (bitWord b) false) :=
  .answered _ _ hd (fun _ _ => bitWord_lt _ b) (by simp)

theorem Effect.answer_nil (hd : i.dests = []) (hn : i.mayAnswerNil = true) (z : Bool) : Effect i s (s.answer 0 z) :=
  .answered _ _ hd (fun _ _ => s.cfg.B_pos) fun _ => ⟨hn, rfl⟩

/-! ### Flags -/

theorem passesFlags_one (hsrc : i.sources = [ra]) (hslot : i.sourceSlot = none) (own : Bool) :
    PassesFlags i s ((s.reg ra).err || own) := by
  simp +contextual [PassesFlags, hsrc, hslot]

theorem passesFlags_two (hsrc : i.sources = [ra, rb]) (hslot : i.sourceSlot = none) (own : Bool) :
    PassesFlags i s ((s.reg ra).err || (s.reg rb).err || own) := by
  simp +contextual [PassesFlags, hsrc, hslot]

theorem passesFlags_slot (hsrc : i.sources = [ra]) (hslot : i.sourceSlot = some k) (own : Bool) :
    PassesFlags i s ((s.reg ra).err || (s.slot k).err || own) := by
  simp +contextual [PassesFlags, hsrc, hslot]

theorem passesFlags_slot_only (hsrc : i.sources = []) (hslot : i.sourceSlot = some k) :
    PassesFlags i s (s.slot k).err := by
  simp +contextual [PassesFlags, hsrc, hslot]

theorem passesFlags_one_or_false (hsrc : i.sources = [ra]) (hslot : i.sourceSlot = none) :
    PassesFlags i s (s.reg ra).err := by
  simpa using passesFlags_one (s := s) hsrc hslot false

theorem passesFlags_two_or_false (hsrc : i.sources = [ra, rb]) (hslot : i.sourceSlot = none) :
    PassesFlags i s ((s.reg ra).err || (s.reg rb).err) := by
  simpa using passesFlags_two (s := s) hsrc hslot false

/-! ### The shapes of commands -/

/-- A record of the type: `sizesFit` speaks of the type the command writes. -/
theorem sound_res {e : Bool} {x : Int} (h : res s.cfg t x e = .ok v) (hfit : i.sizesFit s.cfg = true → t.fits s.cfg = true)
    (he : PassesFlags i s e) : Sound i s v where
  wf _ hlegal := res_wf h (hfit (wellFormed_iff.1 hlegal).1)
  flags _ := (holds_of_res h).2 ▸ he

theorem sound_sysrec {m : Nat} {x : Int} {e : Bool} (hfit : i.sizesFit s.cfg = true → m ≤ s.cfg.CAP)
    (he : PassesFlags i s e) : Sound i s (sysrec s.cfg m x e) where
  wf _ hlegal := sysrec_wf (hfit (wellFormed_iff.1 hlegal).1) x e
  flags _ := he

theorem binaryFinite_effect {f : Int → Int → Int} (hd : i.dests = [rd])
    (he : ∀ own, PassesFlags i s ((s.reg ra).err || (s.reg rb).err || own))
    (hfit : i.sizesFit s.cfg = true → t.fits s.cfg = true) (h : binaryFinite f t rd ra rb s = .next u) :
    Effect i s u := by
  refine command_effect h fun hb => ?_
  simp only [bind_eq_ok, pure_ok, ok_inj] at hb
  obtain ⟨a, _, b, _, _, _, v, hv, rfl⟩ := hb
  exact .wrote rd v hd (sound_res hv hfit (he _))

theorem unary_effect {f : Int → Int} {own : Int → Bool} (hd : i.dests = [rd]) (hsrc : i.sources = [ra])
    (hslot : i.sourceSlot = none) (hfit : i.sizesFit s.cfg = true → t.fits s.cfg = true)
    (h : unary f own t rd ra s = .next u) : Effect i s u := by
  refine command_effect h fun hb => ?_
  simp only [bind_eq_ok, pure_ok, ok_inj] at hb
  obtain ⟨a, _, v, hv, rfl⟩ := hb
  exact .wrote rd v hd (sound_res hv hfit (passesFlags_one hsrc hslot _))

theorem counting_effect {count : Reg → Count} (hd : i.dests = [rd]) (hsrc : i.sources = [ra])
    (hslot : i.sourceSlot = none) (h : counting count t rd ra s = .next u) : Effect i s u := by
  refine command_effect h fun hb => ?_
  simp only [bind_eq_ok, pure_ok, ok_inj] at hb
  obtain ⟨_, _, v, hv, rfl⟩ := hb
  obtain ⟨hwf, herr⟩ := cntrec_spec hv
  exact .wrote rd v hd ⟨fun _ _ => hwf, fun _ => herr ▸ passesFlags_one_or_false hsrc hslot⟩

theorem maskedShift_effect {f : Int → Nat → Int} {sgn : Bool} (hd : i.dests = [rd]) (hsrc : i.sources = [ra, rb])
    (hslot : i.sourceSlot = none) (hfit : i.sizesFit s.cfg = true → words n ≤ s.cfg.CAP)
    (h : maskedShift f sgn n rd ra rb s = .next u) : Effect i s u := by
  refine command_effect h fun hb => ?_
  simp only [bind_eq_ok] at hb
  obtain ⟨a, _, hb⟩ := hb
  split at hb
  · cases hb
  · simp only [pure_ok, ok_inj] at hb
    subst hb
    exact .wrote rd _ hd (sound_sysrec hfit (passesFlags_two_or_false hsrc hslot))

/-- The slot that a construction writes holds the constants of its divisor, which is not 0. -/
theorem constructed_wf {k21 : Bool} {r : Reg} (hw : r.wf c) (hl : r.len = words n) (hd : r.nat c ≠ 0)
    (hfit : (if k21 then 2 * words n else words n) ≤ c.CAP) : (dividerOf c k21 n r).wf c := by
  intro _
  refine ⟨words_pos n, hfit, Nat.one_le_iff_ne_zero.2 hd, Reg.nat_lt_bitLen hw hl, ?_⟩
  have hbits : (dividerOf c k21 n r).dividendBits c = if k21 then 2 * bitLen c n else bitLen c n := by
    cases k21 <;> simp [dividerOf, Slot.dividendBits, bitLen, Nat.mul_assoc]
  rw [hbits]
  rfl

theorem rcpConstruct_effect {k21 : Bool} (hd : i.dests = []) (hn : i.mayAnswerNil = true)
    (hfit : i.sizesFit s.cfg = true → (if k21 then 2 * words n else words n) ≤ s.cfg.CAP)
    (h : rcpConstruct k21 n k ra s = .next u) : Effect i s u := by
  refine command_effect h fun hb => ?_
  obtain ⟨d, hlen, hb⟩ := bind_eq_ok.1 hb
  rw [sysnat_eq] at hlen
  split at hlen
  case isFalse => cases hlen
  case isTrue hl =>
    obtain rfl := ok_inj.1 hlen
    split at hb
    case isTrue =>
      obtain rfl := ok_inj.1 hb
      exact .answer_nil hd hn true
    case isFalse hne =>
      obtain rfl := ok_inj.1 hb
      exact .constructed k (dividerOf s.cfg k21 n (s.reg ra)) hd fun hw hlegal =>
        constructed_wf (hw.1 ra) hl hne (hfit (wellFormed_iff.1 hlegal).1)

theorem rcpApply_effect {k21 : Bool} (hd : i.dests = [rd, re]) (hsrc : i.sources = [ra])
    (hslot : i.sourceSlot = some k) (hfit : i.sizesFit s.cfg = true → words n ≤ s.cfg.CAP)
    (h : rcpApply k21 n rd re ra k s = .next u) : Effect i s u := by
  refine command_effect h fun hb => ?_
  simp only [bind_eq_ok, pure_ok, ok_inj] at hb
  obtain ⟨x, _, _, _, rfl⟩ := hb
  have he := passesFlags_slot (s := s) hsrc hslot
  exact .wrote2 rd re _ _ 0 hd s.cfg.B_pos (sound_sysrec hfit (he _)) (sound_sysrec hfit (he _))

theorem div_effect (h : execDiv t rd re ra rb s = .next u) : Effect (.div t rd re ra rb) s u := by
  refine command_effect h fun hb => ?_
  simp only [bind_eq_ok, pure_ok, ok_inj] at hb
  obtain ⟨_, _, _, _, _, _, _, _, vq, hq, vr, hr, rfl⟩ := hb
  exact .wrote2 rd re vq vr 0 rfl s.cfg.B_pos (sound_res hq id (passesFlags_two rfl rfl _))
    (sound_res hr id (passesFlags_two rfl rfl _))

theorem words_le_of_double (h : Size.doubletFits c n = true) : words n ≤ c.CAP := by
  have := double_words_le h
  omega

theorem div21_effect {sgn : Bool} (h : execDiv21 sgn n rd re ra rb s = .next u) :
    Effect (.div21 sgn n rd re ra rb) s u := by
  refine command_effect h fun hb => ?_
  simp only [bind_eq_ok, pure_ok, ok_inj] at hb
  obtain ⟨_, _, _, _, _, _, rfl⟩ := hb
  exact .wrote2 rd re _ _ 0 rfl s.cfg.B_pos (sound_sysrec words_le_of_double (passesFlags_two rfl rfl _))
    (sound_sysrec words_le_of_double (passesFlags_two rfl rfl _))

theorem rcprd_effect (h : execRcprd rd re k s = .next u) : Effect (.rcprd rd re k) s u := by
  refine command_effect h fun hb => ?_
  simp only [bind_eq_ok, pure_ok, ok_inj, check_eq_ok] at hb
  obtain ⟨_, hvalid, shift, hshift, rfl⟩ := hb
  obtain ⟨hwf, herr⟩ := cntrec_spec hshift
  have he : PassesFlags (.rcprd rd re k) s (s.slot k).err := passesFlags_slot_only rfl rfl
  refine .wrote2 rd re _ _ _ rfl (bitWord_lt _ _) ⟨fun hw _ => ?_, fun _ => he⟩ ⟨fun _ _ => hwf, fun _ => herr ▸ he⟩
  obtain ⟨-, hslots, -⟩ := hw
  obtain ⟨-, hsize, -⟩ := hslots k hvalid
  exact sysrec_wf hsize _ _

theorem shl_effect (h : execShl t rd ra rb s = .next u) : Effect (.shl t rd ra rb) s u := by
  refine command_effect h fun hb => ?_
  simp only [bind_eq_ok, pure_ok, ok_inj] at hb
  obtain ⟨a, _, v, hv, rfl⟩ := hb
  obtain ⟨x, hx⟩ := shiftUp_eq_res s.cfg t a.1 (rdCount s.cfg (s.reg rb)) ((s.reg ra).err || (s.reg rb).err)
  exact .wrote rd v rfl (sound_res (hx.symm.trans hv) id (passesFlags_two_or_false rfl rfl))

theorem shr_effect (h : execShr t rd ra rb s = .next u) : Effect (.shr t rd ra rb) s u := by
  refine command_effect h fun hb => ?_
  simp only [bind_eq_ok, pure_ok, ok_inj] at hb
  obtain ⟨_, _, v, hv, rfl⟩ := hb
  exact .wrote rd v rfl (sound_res hv id (passesFlags_two_or_false rfl rfl))

theorem mulf_effect {sgn : Bool} (h : execMulf sgn n rd ra rb s = .next u) :
    Effect (.mulf sgn n rd ra rb) s u := by
  refine command_effect h fun hb => ?_
  simp only [bind_eq_ok, pure_ok, ok_inj] at hb
  obtain ⟨_, _, _, _, rfl⟩ := hb
  exact .wrote rd _ rfl (sound_sysrec double_words_le (passesFlags_two_or_false rfl rfl))

theorem init_effect (h : execInit t rd s = .next u) : Effect (.init t rd) s u := by
  refine command_effect h fun hb => ?_
  simp only [bind_eq_ok, pure_ok, ok_inj] at hb
  obtain ⟨v, hv, rfl⟩ := hb
  exact .wrote rd v rfl ⟨fun _ hlegal => res_wf hv (wellFormed_iff.1 hlegal).1, fun hlow => nomatch hlow⟩

theorem wrw_effect {vw : View} {idx : BitVec 12} (h : execWrw t rd vw idx s = .next u) :
    Effect (.wrw t rd vw idx) s u := by
  refine command_effect h fun hb => ?_
  simp only [bind_eq_ok, pure_ok, ok_inj] at hb
  obtain ⟨v, hv, rfl⟩ := hb
  refine .wrote rd v rfl ⟨fun hw hlegal => ?_, fun _ => elemWr_err hv ▸ passesFlags_one_or_false rfl rfl⟩
  obtain ⟨-, hview, -⟩ := wellFormed_iff.1 hlegal
  exact elemWr_wf (hw.1 rd) (of_decide_eq_true hview) hv

theorem wrapp_effect {sgn bit : Bool} (h : execWrapp sgn rd bit s = .next u) :
    Effect (.wrapp sgn rd bit) s u := by
  refine command_effect h fun hb => ?_
  obtain rfl := ok_inj.1 hb
  exact .wrote rd _ rfl ⟨fun hw _ => trimTop_wf (hw.1 rd) _ _ _, fun _ => passesFlags_one_or_false rfl rfl⟩

theorem bswap_effect {sgn : Bool} (h : execBswap sgn n rd ra s = .next u) :
    Effect (.bswap sgn n rd ra) s u := by
  refine command_effect h fun hb => ?_
  simp only [bind_eq_ok, pure_ok, ok_inj] at hb
  obtain ⟨_, _, rfl⟩ := hb
  exact .wrote rd _ rfl (sound_sysrec (words_le_of_fits sgn) (passesFlags_one_or_false rfl rfl))

theorem cvt_effect {ts td : Ty} (h : execCvt ts td rd ra s = .next u) : Effect (.cvt ts td rd ra) s u := by
  refine command_effect h fun hb => ?_
  simp only [bind_eq_ok, pure_ok, ok_inj] at hb
  obtain ⟨_, _, v, hv, rfl⟩ := hb
  exact .wrote rd v rfl (sound_res hv (fun hsizes => (Bool.and_eq_true_iff.1 hsizes).2) (passesFlags_one rfl rfl _))

theorem veto_effect {b : Bool} (h : execVeto rd ra b s = .next u) : Effect (.veto rd ra b) s u := by
  refine command_effect h fun hb => ?_
  obtain rfl := ok_inj.1 hb
  exact .wrote rd _ rfl ⟨fun hw _ => hw.1 ra, fun _ => passesFlags_one rfl rfl b⟩

theorem unwrap_effect (h : execUnwrap rd ra s = .next u) : Effect (.unwrap rd ra) s u := by
  refine command_effect h fun hb => ?_
  obtain rfl := ok_inj.1 hb
  exact .wrote rd _ rfl ⟨fun hw _ => hw.1 ra, fun hlow => nomatch hlow⟩

theorem rdw_effect {vw : View} {idx : BitVec 12} (h : execRdw t ra vw idx s = .next u) :
    Effect (.rdw t ra vw idx) s u := by
  refine command_effect h fun hb => ?_
  simp only [bind_eq_ok, pure_ok, ok_inj] at hb
  obtain ⟨x, hx, rfl⟩ := hb
  refine .answered x false rfl (fun _ hlegal => ?_) (by simp)
  obtain ⟨-, hview, -⟩ := wellFormed_iff.1 hlegal
  exact elemRd_lt (of_decide_eq_true hview) hx

theorem rdlen_effect (h : execRdlen ra s = .next u) : Effect (.rdlen ra) s u := by
  refine command_effect h fun hb => ?_
  obtain rfl := ok_inj.1 hb
  exact .answered _ false rfl (fun hw _ => len_lt_B (hw.1 ra)) (by simp)

/-- Whichever the command. -/
theorem exec_effect (h : exec i s = .next u) : Effect i s u := by
  cases i <;> simp only [exec] at h
  case add | sub | mul => exact binaryFinite_effect rfl (passesFlags_two rfl rfl) id h
  case sqr t rd ra =>
    refine binaryFinite_effect rfl (fun own => ?_) id h
    simpa using passesFlags_one (i := .sqr t rd ra) rfl rfl own
  case bnot | cpl | mag => exact unary_effect rfl rfl rfl id h
  case cnt | asc | dsc => exact counting_effect rfl rfl rfl h
  case shlm sgn _ _ _ _ | shrm sgn _ _ _ _ => exact maskedShift_effect rfl rfl rfl (words_le_of_fits sgn) h
  case rcpset => exact rcpConstruct_effect (k21 := false) rfl rfl (words_le_of_fits false) h
  case rcp21set => exact rcpConstruct_effect (k21 := true) rfl rfl double_words_le h
  case rcpdiv => exact rcpApply_effect rfl rfl rfl (words_le_of_fits false) h
  case rcp21div => exact rcpApply_effect rfl rfl rfl words_le_of_double h
  case div => exact div_effect h
  case div21 => exact div21_effect h
  case rcprd => exact rcprd_effect h
  case shl => exact shl_effect h
  case shr => exact shr_effect h
  case mulf => exact mulf_effect h
  case init => exact init_effect h
  case wrw => exact wrw_effect h
  case wrapp => exact wrapp_effect h
  case bswap => exact bswap_effect h
  case cvt => exact cvt_effect h
  case veto => exact veto_effect h
  case unwrap => exact unwrap_effect h
  case rdw => exact rdw_effect h
  case rdlen => exact rdlen_effect h
  case rdstat => cases h; exact .answered _ _ rfl (fun _ _ => statusWord_lt s) (by simp)
  case rdcfg => cases h; exact .answered _ _ rfl (fun _ _ => cfgWord_lt _ _) (by simp)
  case rde =>
    refine command_effect h fun hb => ?_
    obtain rfl := ok_inj.1 hb
    exact .answer_bit rfl _
  case rdbit | rdapp =>
    refine command_effect h fun hb => ?_
    simp only [bind_eq_ok, pure_ok, ok_inj] at hb
    obtain ⟨b, _, rfl⟩ := hb
    exact .answer_bit rfl b
  case feq =>
    refine command_effect h fun hb => ?_
    simp only [bind_eq_ok, pure_ok, ok_inj] at hb
    obtain ⟨_, _, _, _, rfl⟩ := hb
    exact .answer_bit rfl _
  case gnz | gnat | gfin =>
    refine command_effect h fun hb => ?_
    simp only [bind_eq_ok, pure_ok, ok_inj] at hb
    obtain ⟨_, _, rfl⟩ := hb
    exact .answer_nil rfl rfl _

/-! ### The state stays well formed -/

theorem fcause_code_iff (k : Cause) : (true = false ↔ k.code = 0) := by
  simpa using code_ne_zero k

/-- What a well-formed state keeps: its registers, its slots and a response that fits a Word. -/
theorem wf_of_updates {s u : State} (hw : s.wf) (hcfg : u.cfg = s.cfg)
    (hregs : ∀ r, u.reg r = s.reg r ∨ (u.reg r).wf s.cfg) (hslots : ∀ k, u.slot k = s.slot k ∨ (u.slot k).wf s.cfg)
    (hstatus : u.fault = false ↔ u.fcause = 0) (hdout : u.dout < s.cfg.B) (hdin : u.din < s.cfg.B) : u.wf := by
  obtain ⟨hr, hk, -⟩ := hw
  refine ⟨fun r => ?_, fun k => ?_, hstatus, hcfg ▸ hdout, hcfg ▸ hdin⟩
  · rw [hcfg]
    obtain h | h := hregs r
    · exact h ▸ hr r
    · exact h
  · rw [hcfg]
    obtain h | h := hslots k
    · exact h ▸ hk k
    · exact h

theorem Effect.keeps_wf (h : Effect i s u) (hw : s.wf) (hlegal : i.wellFormed s.cfg = true) : u.wf := by
  have ⟨_, _, hstatus, _, hdin⟩ := hw
  cases h with
  | ignored => exact wf_of_updates hw rfl (fun _ => .inl rfl) (fun _ => .inl rfl) hstatus s.cfg.B_pos hdin
  | raised k =>
    exact wf_of_updates hw rfl (fun _ => .inl rfl) (fun _ => .inl rfl) (fcause_code_iff k) s.cfg.B_pos hdin
  | answered x z _ hx _ =>
    exact wf_of_updates hw rfl (fun _ => .inl rfl) (fun _ => .inl rfl) hstatus (hx hw hlegal) hdin
  | wrote rd v _ hv =>
    refine wf_of_updates hw rfl (fun r => ?_) (fun _ => .inl rfl) hstatus s.cfg.B_pos hdin
    by_cases hr : r = rd
    · exact .inr (by simpa [State.reg_write, hr] using hv.wf hw hlegal)
    · exact .inl (State.reg_write_ne s rd r v hr)
  | wrote2 rd re v v' x _ hx hv hv' =>
    refine wf_of_updates hw rfl (fun r => ?_) (fun _ => .inl rfl) hstatus hx hdin
    rw [State.reg_write2]
    split
    · exact .inr (hv'.wf hw hlegal)
    · split
      · exact .inr (hv.wf hw hlegal)
      · exact .inl rfl
  | constructed k d _ hd =>
    refine wf_of_updates hw rfl (fun _ => .inl rfl) (fun k' => ?_) hstatus s.cfg.B_pos hdin
    rw [State.slot_answer, State.slot_setSlot]
    split
    · exact .inr (hd hw hlegal)
    · exact .inl rfl

theorem resetState_wf (c : Config) (input : List HostAction) : (resetState c input).wf := by
  refine ⟨fun r => ?_, fun k => ?_, by simp, c.B_pos, c.B_pos⟩
  · rw [resetState_reg]
    simp [Reg.wf, Reg.len, resetReg]
  · rw [resetState_slot]
    simp [resetSlot]

/-- Settles O8. -/
theorem resetIsWellFormed : Obligations.ResetIsWellFormed := ⟨resetState_wf, resetState_wf .standard []⟩

theorem present_wf (hw : s.wf) (d : Nat) (rest : List HostAction) : (s.present d rest).wf := by
  have ⟨_, _, hstatus, hdout, _⟩ := hw
  exact wf_of_updates hw rfl (fun _ => .inl rfl) (fun _ => .inl rfl) hstatus hdout (Nat.mod_lt _ s.cfg.B_pos)

theorem issue_keeps_wf {w : Cmd} (hw : s.wf) (h : issue w s = .next u) : u.wf := by
  cases hdec : decode s.cfg w with
  | ok i =>
    rw [issue_ok hdec] at h
    exact (exec_effect h).keeps_wf hw (decode_eq_ok_iff.1 hdec).2
  | error why =>
    rw [issue_illegal (by simp [hdec])] at h
    have ⟨_, _, hstatus, _, hdin⟩ := hw
    obtain ⟨_, rfl⟩ | ⟨_, hok | ⟨k, _, rfl⟩⟩ := command_cases h
    · exact wf_of_updates hw rfl (fun _ => .inl rfl) (fun _ => .inl rfl) hstatus s.cfg.B_pos hdin
    · cases hok
    · exact wf_of_updates hw rfl (fun _ => .inl rfl) (fun _ => .inl rfl) (fcause_code_iff k) s.cfg.B_pos hdin

/-- Settles O9. -/
theorem stepKeepsWellFormed : Obligations.StepKeepsWellFormed := by
  intro s t hw h
  cases hin : s.input with
  | nil =>
    rw [step_idle hin] at h
    cases h
    exact hw
  | cons act rest =>
    cases act with
    | command w d =>
      rw [step_command hin] at h
      exact issue_keeps_wf (present_wf hw d rest) h
    | reset =>
      rw [step_reset hin] at h
      cases h
      exact resetState_wf s.cfg rest

/-! ### Flags and responses -/

/-- Settles O14: every record that a command writes is `Sound`. -/
theorem errorFlagsArePassedOn : Obligations.ErrorFlagsArePassedOn := by
  intro i s t h hf hlow rd hrd
  suffices hpass : PassesFlags i s (t.reg rd).err from hpass
  cases exec_effect h with
  | ignored hfault => simp [hfault] at hf
  | raised => cases hf
  | answered x z hd => simp [hd] at hrd
  | wrote r v hd hv =>
    obtain rfl : rd = r := by simpa [hd] using hrd
    simpa using hv.flags hlow
  | wrote2 r r' v v' x hd _ hv hv' =>
    rw [State.reg_write2]
    split
    case isTrue => exact hv'.flags hlow
    case isFalse hne =>
      obtain rfl : rd = r := by simpa [hd, hne] using hrd
      simpa using hv.flags hlow
  | constructed k d hd => simp [hd] at hrd

theorem nil_of_exec (h : exec i s = .next u) (hnil : u.nil = true) : i.mayAnswerNil = true ∧ u = s.answer 0 true := by
  cases exec_effect h with
  | answered x z _ _ hz =>
    obtain rfl : z = true := hnil
    obtain ⟨hn, rfl⟩ := hz rfl
    exact ⟨hn, rfl⟩
  | _ => cases hnil

/-- No operand read, no check and no write looks at `dout` or `nil`, so the two runs are one term. -/
theorem exec_answer (i : Instr) (s : State) (d : Nat) (z : Bool) : exec i (s.answer d z) = exec i s := by
  cases i <;> rfl

/-- Settles O15. -/
theorem responseIsOnlyAnOutput : Obligations.ResponseIsOnlyAnOutput := ⟨fun _ _ _ => nil_of_exec, exec_answer⟩

end Sys2Proof.Machine
end


section
/-! PROOFS. The data-in Word (30_encoding.md R75): the two runs of a command on states that differ in `din` only are
compared shape by shape. -/

namespace Sys2Proof.Machine

variable {s : State} {d : Nat}

/-- The state with another data-in Word at the port. -/
def State.withDin (s : State) (d : Nat) : State := { s with din := d }

@[simp] theorem State.withDin_cfg (s : State) (d : Nat) : (s.withDin d).cfg = s.cfg := rfl
@[simp] theorem State.reg_withDin (s : State) (d : Nat) (r : RegNum) : (s.withDin d).reg r = s.reg r := rfl

/-- Two bodies of a command end alike, but for the data-in Word that stands at the port. -/
inductive AlikeBut (d : Nat) : Except Cause State → Except Cause State → Prop
  | ok {u u' : State} (h : u' = u.withDin d) : AlikeBut d (.ok u) (.ok u')
  | error (k : Cause) : AlikeBut d (.error k) (.error k)

theorem AlikeBut.bind {α : Type} (x : Except Cause α) {f f' : α → Except Cause State}
    (h : ∀ a, AlikeBut d (f a) (f' a)) : AlikeBut d (x >>= f) (x >>= f') := by
  cases x with
  | ok a => exact h a
  | error k => exact .error k

/-- Two commands answer alike, but for the data-in Word that stands at the port. -/
def NextAlikeBut (d : Nat) (r r' : Result) : Prop := ∃ u, r = .next u ∧ r' = .next (u.withDin d)

theorem command_alike {b b' : Except Cause State} (hb : AlikeBut d b b') :
    NextAlikeBut d (command s b) (command (s.withDin d) b') := by
  cases hf : s.fault with
  | true => exact ⟨s.ignore, command_fault hf b, command_fault (s := s.withDin d) hf b'⟩
  | false =>
    cases hb with
    | ok h =>
      subst h
      exact ⟨_, command_ok hf rfl, command_ok (s := s.withDin d) hf rfl⟩
    | error k => exact ⟨_, command_error hf rfl, command_error (s := s.withDin d) hf rfl⟩

/-! ### The ends of the bodies -/

theorem alike_answer (x : Nat) (z : Bool) : AlikeBut d (.ok (s.answer x z)) (.ok ((s.withDin d).answer x z)) := .ok rfl

theorem alike_write (rd : RegNum) (v : Reg) : AlikeBut d (.ok (s.write rd v)) (.ok ((s.withDin d).write rd v)) :=
  .ok rfl

theorem alike_write2 (rd : RegNum) (v : Reg) (re : RegNum) (v' : Reg) (x : Nat) :
    AlikeBut d (.ok (s.write2 rd v re v' x)) (.ok ((s.withDin d).write2 rd v re v' x)) := .ok rfl

/-! ### The shapes of commands -/

theorem binaryFinite_alike (f : Int → Int → Int) (t : Ty) (rd ra rb : RegNum) :
    NextAlikeBut d (binaryFinite f t rd ra rb s) (binaryFinite f t rd ra rb (s.withDin d)) :=
  command_alike <| .bind _ fun _ => .bind _ fun _ => .bind _ fun _ => .bind _ fun v => alike_write rd v

theorem unary_alike (f : Int → Int) (own : Int → Bool) (t : Ty) (rd ra : RegNum) :
    NextAlikeBut d (unary f own t rd ra s) (unary f own t rd ra (s.withDin d)) :=
  command_alike <| .bind _ fun _ => .bind _ fun v => alike_write rd v

theorem counting_alike (count : Reg → Count) (t : Ty) (rd ra : RegNum) :
    NextAlikeBut d (counting count t rd ra s) (counting count t rd ra (s.withDin d)) :=
  command_alike <| .bind _ fun _ => .bind _ fun v => alike_write rd v

theorem maskedShift_alike (f : Int → Nat → Int) (sgn : Bool) (n : Size) (rd ra rb : RegNum) :
    NextAlikeBut d (maskedShift f sgn n rd ra rb s) (maskedShift f sgn n rd ra rb (s.withDin d)) := by
  refine command_alike <| .bind _ fun a => ?_
  simp only [State.withDin_cfg, State.reg_withDin]
  cases rdCount s.cfg (s.reg rb) with
  | infinite => exact .error .finite
  | finite x => exact alike_write rd _

theorem rcpConstruct_alike (k21 : Bool) (n : Size) (k : SlotNum) (ra : RegNum) :
    NextAlikeBut d (rcpConstruct k21 n k ra s) (rcpConstruct k21 n k ra (s.withDin d)) := by
  refine command_alike <| .bind _ fun x => ?_
  by_cases hx : x = 0
  · simp only [if_pos hx]
    exact alike_answer 0 true
  · simp only [if_neg hx]
    exact .ok rfl

theorem rcpApply_alike (k21 : Bool) (n : Size) (rd re ra : RegNum) (k : SlotNum) :
    NextAlikeBut d (rcpApply k21 n rd re ra k s) (rcpApply k21 n rd re ra k (s.withDin d)) :=
  command_alike <| .bind _ fun _ => .bind _ fun _ => alike_write2 rd _ re _ 0

/-- Whichever the command, but `WRW`. -/
theorem exec_alike (i : Instr) (hne : ∀ t r vw idx, i ≠ .wrw t r vw idx) :
    NextAlikeBut d (exec i s) (exec i (s.withDin d)) := by
  cases i <;> simp only [exec]
  case wrw t r vw idx => exact absurd rfl (hne t r vw idx)
  case add | sub | mul | sqr => exact binaryFinite_alike ..
  case bnot | cpl | mag => exact unary_alike ..
  case cnt | asc | dsc => exact counting_alike ..
  case shlm | shrm => exact maskedShift_alike ..
  case rcpset | rcp21set => exact rcpConstruct_alike ..
  case rcpdiv | rcp21div => exact rcpApply_alike ..
  case wrapp | veto | unwrap => exact command_alike (alike_write _ _)
  case rdlen | rde => exact command_alike (alike_answer _ _)
  case init | bswap => exact command_alike <| .bind _ fun _ => alike_write _ _
  case cvt | shl | shr | mulf => exact command_alike <| .bind _ fun _ => .bind _ fun _ => alike_write _ _
  case rdw | rdbit | rdapp | gnz | gnat | gfin => exact command_alike <| .bind _ fun _ => alike_answer _ _
  case feq => exact command_alike <| .bind _ fun _ => .bind _ fun _ => alike_answer _ _
  case div =>
    exact command_alike <| .bind _ fun _ => .bind _ fun _ => .bind _ fun _ => .bind _ fun _ => .bind _ fun _ =>
      .bind _ fun _ => alike_write2 _ _ _ _ 0
  case div21 =>
    exact command_alike <| .bind _ fun _ => .bind _ fun _ => .bind _ fun _ => alike_write2 _ _ _ _ 0
  case rcprd => exact command_alike <| .bind _ fun _ => .bind _ fun _ => alike_write2 _ _ _ _ _
  case rdstat => exact ⟨_, rfl, rfl⟩
  case rdcfg => exact ⟨_, rfl, rfl⟩

/-! ### `WRW` -/

theorem replaceBits_congr {u lo len x y : Nat} (h : x % 2 ^ len = y % 2 ^ len) :
    replaceBits u lo len x = replaceBits u lo len y := by
  rw [replaceBits, replaceBits, h]

theorem elemWr_congr {x y v : Nat} (h : x % 2 ^ v = y % 2 ^ v) (c : Config) (t : Ty) (r : Reg) (k : Nat) :
    elemWr c t r v k x = elemWr c t r v k y := by
  cases t with
  | sys sgn n => simp only [elemWr, replaceBits_congr h]
  | arb sgn => simp only [elemWr, replaceBits_congr h]

/-- Settles O16. -/
theorem onlyWrwReadsDataIn : Obligations.OnlyWrwReadsDataIn := by
  refine ⟨fun i s d hne => exec_alike i hne, fun t r vw idx s d h => ?_⟩
  have hwr := elemWr_congr h s.cfg t (s.reg r) idx.toNat
  refine command_alike (s := s) (d := d)
    (b' := elemWr s.cfg t (s.reg r) vw.bits idx.toNat d >>= fun v => pure ((s.withDin d).write r v)) ?_
  rw [hwr]
  exact .bind _ fun v => alike_write r v

end Sys2Proof.Machine
end


section
/-! PROOFS. The statements of 00_scope.md and 40_word_model.md about reading a register's pattern: effective bits (R13 to
R15), the element and field reads (R103 to R107), the counts of bits (R108 to R110), and the commands of
41_overflow_contract.md that only answer (R132 to R135). -/

namespace Sys2Proof.Machine

variable {c : Config} {s : State} {t : Ty} {r : Reg} {rd ra : RegNum} {bit : Bool}

/-! ### Effective bits -/

theorem valueOf_sys_neg_iff {sgn : Bool} {n : Size} (hw : r.wf c) (h : r.len = words n) :
    valueOf c (.sys sgn n) r < 0 ↔ sgn = true ∧ 2 ^ (bitLen c n - 1) ≤ r.nat c := by
  have hlt : (r.nat c : Int) < 2 ^ bitLen c n := by exact_mod_cast Reg.nat_lt_bitLen hw h
  cases sgn with
  | false => simp [valueOf]
  | true =>
    simp only [valueOf, true_and]
    split <;> omega

theorem effAppOf_eq (hw : r.wf c) (h : readable t r) : effAppOf c t r = decide (valueOf c t r < 0) := by
  cases t with
  | sys sgn n =>
    have hpos : 0 < bitLen c n := by have := bitLen_pos c n; omega
    rw [effAppOf, testBit_top hpos (Reg.nat_lt_bitLen hw h), Bool.eq_iff_iff]
    simp [valueOf_sys_neg_iff hw h]
  | arb sgn => simp [effAppOf, valueOf_arb_neg_iff hw sgn]

/-- Above the bits of a systems type the pattern of an integer of its domain repeats the sign. -/
theorem patternBit_sys_of_le {sgn : Bool} {n : Size} {i : Nat} (hw : r.wf c) (h : r.len = words n)
    (hi : bitLen c n ≤ i) : patternBit c (.sys sgn n) r i = decide (valueOf c (.sys sgn n) r < 0) := by
  obtain ⟨hlo, hhi⟩ := inDomain_bounds (valueOf_sys_inDomain (sgn := sgn) hw h)
  exact int_testBit_of_lt hlo hhi hi

theorem effBitOf_eq (hw : r.wf c) (h : readable t r) (i : Nat) : effBitOf c t r i = patternBit c t r i := by
  cases t with
  | sys sgn n =>
    rw [effBitOf]
    split
    case isTrue hi => exact (valueOf_sys_testBit hw.2 h hi).symm
    case isFalse hi => rw [effAppOf_eq hw h, patternBit_sys_of_le hw h (by omega)]
  | arb sgn => exact (valueOf_arb_testBit hw.2 sgn i).symm

/-- Settles O18. -/
theorem effectiveBitsAreTheIntegers : Obligations.EffectiveBitsAreTheIntegers :=
  fun _ _ _ hw h => ⟨effBitOf_eq hw h, effAppOf_eq hw h⟩

/-- Above the stored bits every bit is the appendix. -/
theorem patternBit_of_stored_le {sgn : Bool} {j : Nat} (hw : r.wf c) (hj : c.W * r.len ≤ j) :
    patternBit c (.arb sgn) r j = r.app := by
  have hW : 0 < c.W := by have := c.W_pos; omega
  have hlen : r.len ≤ j / c.W := (Nat.le_div_iff_mul_le hW).2 (by rwa [Nat.mul_comm])
  rw [← effBitOf_eq hw (by trivial), effBitOf, word_of_len_le hlen, extWord_testBit c r.app (Nat.mod_lt _ hW)]

/-! ### Element and field reads -/

theorem elemRd_ok (v k : Nat) (h : readable t r) :
    elemRd c t r v k = .ok (natOfBits ((List.range v).map fun j => effBitOf c t r (v * k + j))) := by
  rw [elemRd, checkLen_ok h]
  rfl

theorem effBit_ok (hw : r.wf c) (h : readable t r) (i : Nat) : effBit c t r i = .ok (patternBit c t r i) := by
  rw [effBit, checkLen_ok h, ← effBitOf_eq hw h]
  rfl

theorem effApp_ok (hw : r.wf c) (h : readable t r) : effApp c t r = .ok (decide (valueOf c t r < 0)) := by
  rw [effApp, checkLen_ok h, ← effAppOf_eq hw h]
  rfl

theorem natOfBits_range_testBit (f : Nat → Bool) (v j : Nat) :
    (natOfBits ((List.range v).map f)).testBit j = (decide (j < v) && f j) := by
  rw [natOfBits_testBit]
  by_cases hj : j < v <;> simp [hj, List.getD]

/-- Settles O23. -/
theorem rdwReadsOneElement : Obligations.RdwReadsOneElement := by
  intro s t r vw idx hs hr
  refine ⟨_, command_ok hs.1 (by rw [elemRd_ok _ _ hr]; rfl), fun j => ?_⟩
  rw [natOfBits_range_testBit, effBitOf_eq (hs.2.1 r) hr]

theorem toNat_eq_ite (b : Bool) : b.toNat = if b = true then 1 else 0 := by cases b <;> rfl

/-- Settles O24. -/
theorem bitAndFieldReads : Obligations.BitAndFieldReads := by
  intro s hs
  refine ⟨fun t r idx hr => ?_, fun t r hr => ?_, fun r => command_ok hs.1 rfl, fun r => ?_⟩
  · exact command_ok hs.1 (by rw [effBit_ok (hs.2.1 r) hr]; rfl)
  · exact command_ok hs.1 (by rw [effApp_ok (hs.2.1 r) hr]; simp [bind_ok, pure_ok, bitWord, toNat_eq_ite])
  · rw [← toNat_eq_ite]
    exact command_ok hs.1 rfl

/-! ### The commands that only answer -/

/-- Settles O32. -/
theorem feqComparesValueAndFlag : Obligations.FeqComparesValueAndFlag := by
  intro s t ra rb hs ha hb
  refine command_ok hs.1 ?_
  rw [opnd_ok (hs.2.1 ra) ha, opnd_ok (hs.2.1 rb) hb]
  simp [bind_ok, pure_ok, bitWord, toNat_eq_ite]

/-- Settles O33. -/
theorem guardsAnswerNil : Obligations.GuardsAnswerNil := by
  intro s t ra hs ha
  have hopnd := opnd_ok (hs.2.1 ra) ha
  have happ := effApp_ok (hs.2.1 ra) ha
  exact ⟨command_ok hs.1 (by rw [hopnd]; rfl), command_ok hs.1 (by rw [happ]; rfl),
    command_ok hs.1 (by rw [hopnd]; rfl)⟩

/-! ### Counts of bits -/

/-- A counting command on a readable operand: no count is above twice the stored bits, so each has a record. -/
theorem counting_ready {count : Reg → Count} (hs : s.ready) (ha : readable t (s.reg ra))
    (hle : ∀ m, count (s.reg ra) = .finite m → m ≤ storedBits s.cfg t (s.reg ra)) :
    ∃ v, counting count t rd ra s = .next (s.write rd v) ∧ holdsCount s.cfg v (count (s.reg ra)) ∧
      v.err = (s.reg ra).err :=
  counting_next hs.1 ha fun m hm => (hle m hm).trans ((storedBits_le (hs.2.1 ra) ha).trans (by decide))

theorem countP_range_eq_card (p : Nat → Prop) [DecidablePred p] (m : Nat) :
    (List.range m).countP p = ((Finset.range m).filter p).card := by
  rw [List.countP_eq_length_filter]
  rfl

/-- The number of stored bits equal to `bit`, as a set of positions. -/
theorem countP_effBit (hw : r.wf c) (h : readable t r) (bit : Bool) (m : Nat) :
    ((List.range m).countP fun i => effBitOf c t r i == bit) =
      ((Finset.range m).filter fun j => patternBit c t r j = bit).card := by
  rw [← countP_range_eq_card]
  simp only [effBitOf_eq hw h, beq_eq_decide]

/-- Settles O26. -/
theorem cntCountsBits : Obligations.CntCountsBits := by
  intro s t rd ra bit hs ha
  have hw := hs.2.1 ra
  obtain ⟨v, hv, hcount, herr⟩ := counting_ready (count := fun r => countOf s.cfg t r bit) (rd := rd) hs ha
    fun m hm => countOf_le hm
  refine ⟨v, hv, herr, ?_⟩
  cases t with
  | sys sgn n =>
    simpa only [countOf, countP_effBit hw ha, storedBits] using hcount
  | arb sgn =>
    by_cases happ : (s.reg ra).app = bit
    · simpa [countOf, effAppOf, happ] using hcount
    · simp only [countOf, effAppOf, happ, if_false, countP_effBit hw ha, storedBits] at hcount ⊢
      refine ⟨_, fun j => ?_, hcount⟩
      simp only [Finset.mem_filter, Finset.mem_range, and_iff_right_iff_imp]
      intro hj
      by_contra hle
      exact happ ((patternBit_of_stored_le hw (by omega)).symm.trans hj)

/-- Settles O27. -/
theorem ascCountsTheLowRun : Obligations.AscCountsTheLowRun := by
  intro s t rd ra bit hs ha
  have hw := hs.2.1 ra
  obtain ⟨v, hv, hcount, herr⟩ := counting_ready (count := fun r => ascendingOf s.cfg t r bit) (rd := rd) hs ha
    fun m hm => ascendingOf_le hm
  refine ⟨v, hv, herr, ?_⟩
  simp only [ascendingOf, effBitOf_eq hw ha] at hcount
  cases t with
  | sys sgn n =>
    cases hfind : (List.range (bitLen s.cfg n)).find? fun i => patternBit s.cfg (.sys sgn n) (s.reg ra) i != bit with
    | none =>
      simp only [hfind, Option.getD_none] at hcount
      exact ⟨_, le_rfl, hcount, fun j hj => by simpa using find_range_eq_none_iff.1 hfind j hj,
        fun hlt => absurd hlt (lt_irrefl _)⟩
    | some m =>
      simp only [hfind, Option.getD_some] at hcount
      obtain ⟨hm, hlt, hbelow⟩ := find_range_eq_some_iff.1 hfind
      exact ⟨m, hlt.le, hcount, fun j hj => by simpa using hbelow j hj, fun _ => by simpa using hm⟩
  | arb sgn =>
    cases hfind : (List.range (storedBits s.cfg (.arb sgn) (s.reg ra) + 1)).find? fun i =>
        patternBit s.cfg (.arb sgn) (s.reg ra) i != bit with
    | none =>
      simp only [hfind] at hcount
      have hall (j : Nat) (hj : j ≤ s.cfg.W * (s.reg ra).len) : patternBit s.cfg (.arb sgn) (s.reg ra) j = bit := by
        simpa using find_range_eq_none_iff.1 hfind j (Nat.lt_succ_of_le hj)
      refine .inr ⟨hcount, fun j => ?_⟩
      obtain hj | hj := le_total j (s.cfg.W * (s.reg ra).len)
      · exact hall j hj
      · rw [patternBit_of_stored_le hw hj, ← hall _ le_rfl, patternBit_of_stored_le hw le_rfl]
    | some m =>
      simp only [hfind] at hcount
      obtain ⟨hm, -, hbelow⟩ := find_range_eq_some_iff.1 hfind
      exact .inl ⟨m, hcount, fun j hj => by simpa using hbelow j hj, by simpa using hm⟩

/-- The run of positions below `n` that satisfy `p`, from `n - 1` down. -/
theorem takeWhile_reverse_range (p : Nat → Bool) (n : Nat) :
    ((List.range n).reverse.takeWhile p).length ≤ n ∧
    (∀ j, n - ((List.range n).reverse.takeWhile p).length ≤ j → j < n → p j = true) ∧
    (((List.range n).reverse.takeWhile p).length < n →
      p (n - 1 - ((List.range n).reverse.takeWhile p).length) = false) := by
  induction n with
  | zero => simp
  | succ n ih =>
    obtain ⟨hle, hrun, hend⟩ := ih
    rw [List.range_succ, List.reverse_append, List.reverse_singleton, List.singleton_append]
    cases hp : p n with
    | false => simpa [List.takeWhile_cons, hp] using fun j h1 h2 => absurd h1 (by omega)
    | true =>
      simp only [List.takeWhile_cons, hp, if_true, List.length_cons]
      refine ⟨by omega, fun j h1 h2 => ?_, fun hlt => ?_⟩
      · obtain rfl | hj := Nat.eq_or_lt_of_le (Nat.le_of_lt_succ h2)
        · exact hp
        · exact hrun j (by omega) hj
      · rw [show ∀ m, n + 1 - 1 - (m + 1) = n - 1 - m by omega]
        exact hend (by omega)

/-- Settles O28. -/
theorem dscCountsTheHighRun : Obligations.DscCountsTheHighRun := by
  intro s t rd ra bit hs ha
  have hw := hs.2.1 ra
  obtain ⟨v, hv, hcount, herr⟩ := counting_ready (count := fun r => descendingOf s.cfg t r bit) (rd := rd) hs ha
    fun m hm => descendingOf_le hm
  refine ⟨v, hv, herr, ?_⟩
  simp only [descendingOf, effBitOf_eq hw ha] at hcount
  cases t with
  | sys sgn n =>
    obtain ⟨hle, hrun, hend⟩ :=
      takeWhile_reverse_range (fun i => patternBit s.cfg (.sys sgn n) (s.reg ra) i == bit) (bitLen s.cfg n)
    exact ⟨_, hle, hcount, fun j h1 h2 => by simpa using hrun j h1 h2, fun hlt => by simpa using hend hlt⟩
  | arb sgn => by_cases happ : (s.reg ra).app = bit <;> simpa [effAppOf, happ] using hcount

end Sys2Proof.Machine
end


section
/-! PROOFS. The statements of 40_word_model.md about the commands that write a pattern: `INIT` (R100), `WRW` (R101),
`WRAPP` (R102), `BSWAP` (R111) and `CVT` (R112). -/

namespace Sys2Proof.Machine

variable {c : Config} {s : State} {t ts td : Ty} {r : Reg} {n : Size} {rd ra : RegNum}

/-- The record of 0 has appendix 0. -/
theorem res_zero (c : Config) (t : Ty) (e : Bool) :
    ∃ v, res c t 0 e = .ok v ∧ holds c t v 0 ∧ v.app = false ∧ v.err = e := by
  cases t with
  | sys sgn n => exact ⟨sysrec c (words n) 0 e, rfl, sysrec_holds c sgn n 0 e, rfl, rfl⟩
  | arb sgn =>
    obtain ⟨v, hv, hh, happ, herr⟩ := arbrec_ok e sgn (inCapacity_zero c (.arb sgn))
    exact ⟨v, hv, hh, by simpa using happ, herr⟩

/-- Settles O20. -/
theorem initWritesZero : Obligations.InitWritesZero := by
  intro s t r hf
  obtain ⟨v, hv, hh, happ, herr⟩ := res_zero s.cfg t false
  exact ⟨v, command_ok hf (by rw [hv]; rfl), hh, happ, herr⟩

/-- Settles O21. -/
theorem wrwReplacesOneElement : Obligations.WrwReplacesOneElement := by
  intro s t r vw idx hs hv hr hrange
  have hw := hs.2.1 r
  cases t with
  | sys sgn n =>
    obtain ⟨v, hok, hwf, hlen, happ, herr, hbit⟩ :=
      elemWr_sys_ok (sgn := sgn) (d := s.din) hw hr hrange
    refine ⟨v, command_ok hs.1 (by rw [hok]; rfl), hwf, happ, herr, hlen, fun j hj => ?_⟩
    rw [patternBit, patternBit, valueOf_sys_testBit hwf.2 hlen hj, valueOf_sys_testBit hw.2 hr hj]
    exact hbit j hj
  | arb sgn =>
    have hpos : 0 < vw.bits := by have := View.bits_pos vw; omega
    obtain ⟨v, hok, hwf, happ, herr, hnormal, hbit⟩ :=
      elemWr_arb_ok (sgn := sgn) (d := s.din) hw (View.bits_dvd s.cfg vw hv) hpos hrange
    exact ⟨v, command_ok hs.1 (by rw [hok]; rfl), hwf, happ, herr, hnormal, fun j _ => hbit j⟩

/-- Settles O22. -/
theorem wrappSetsTheAppendix : Obligations.WrappSetsTheAppendix := by
  intro s sgn r bit hf
  obtain ⟨k, hk, hnormal⟩ := trimTop_spec (extWord s.cfg bit) (s.reg r).body
  exact ⟨_, k, command_ok hf rfl, rfl, rfl, hnormal, hk⟩

/-! ### Bytes -/

theorem bytes_pow_eq (c : Config) (n : Size) : 256 ^ (bitLen c n / 8) = 2 ^ bitLen c n := by
  have hdvd : 8 ∣ bitLen c n := (Nat.dvd_of_mod_eq_zero c.W_mod).mul_left (words n)
  rw [show 256 = 2 ^ 8 by rfl, ← pow_mul, Nat.mul_div_cancel' hdvd]

theorem reverseBytes_lt (m u : Nat) : reverseBytes m u < 256 ^ m := by
  have h : ∀ w ∈ (wordsOf 256 m u).reverse, w < 256 := fun w hw =>
    wordsOf_lt (by decide) m u w (List.mem_reverse.1 hw)
  simpa [reverseBytes] using natOf_lt h

theorem reverseBytes_digit {m u j : Nat} (hu : u < 256 ^ m) (hj : j < m) :
    reverseBytes m u / 256 ^ j % 256 = u / 256 ^ (m - 1 - j) % 256 := by
  have hlt := wordsOf_lt (b := 256) (by decide) m u
  have hval : natOf 256 (wordsOf 256 m u) = u := by rw [natOf_wordsOf, Nat.mod_eq_of_lt hu]
  have hdigit := natOf_digit (m - 1 - j) hlt
  rw [hval] at hdigit
  rw [hdigit, reverseBytes, natOf_digit j fun w hw => hlt w (List.mem_reverse.1 hw)]
  rw [List.getD_eq_getElem _ _ (by simpa using hj), List.getD_eq_getElem _ _ (by rw [wordsOf_length]; omega),
    List.getElem_reverse]
  simp

theorem sysrec_natCast {m u : Nat} (hu : u < 2 ^ (m * c.W)) (e : Bool) : (sysrec c m (u : Int) e).nat c = u := by
  have h := sysrec_nat c m u e
  rw [Int.emod_eq_of_lt (by positivity) (by exact_mod_cast hu)] at h
  exact_mod_cast h

/-- Settles O29. -/
theorem bswapReversesTheBytes : Obligations.BswapReversesTheBytes := by
  intro s sgn n rd ra hs hlen
  have hw := hs.2.1 ra
  have hu := Reg.nat_lt_bitLen hw hlen
  have hrev := reverseBytes_lt (bitLen s.cfg n / 8) ((s.reg ra).nat s.cfg)
  rw [bytes_pow_eq] at hrev
  refine ⟨sysrec s.cfg (words n) (reverseBytes (bitLen s.cfg n / 8) ((s.reg ra).nat s.cfg) : Nat) (s.reg ra).err,
    command_ok hs.1 (by rw [sysnat_ok hlen]; rfl), sysrec_wf (hlen ▸ hw.1) _ _, sysrec_len .., rfl, rfl,
    fun j hj => ?_⟩
  rw [sysrec_natCast hrev]
  exact reverseBytes_digit (by rwa [bytes_pow_eq]) hj

/-! ### Conversion -/

theorem conversionLoses_eq_false {v : Int} {inf : Bool} :
    conversionLoses c td v inf = false ↔
      (inf = false ∧ inDomain c td v) ∨ (inf = true ∧ td = .arb false) := by
  have hfinite : (inf || !indom c td v) = false ↔ inf = false ∧ inDomain c td v := by simp [indom_eq_true]
  match td with
  | .sys sgn n => simpa [conversionLoses] using hfinite
  | .arb true => simpa [conversionLoses] using hfinite
  | .arb false => cases inf <;> simp [conversionLoses, inDomain]

/-- Settles O30. -/
theorem cvtConvertsExactly : Obligations.CvtConvertsExactly := by
  intro s ts td rd ra hs hr
  have hw := hs.2.1 ra
  obtain ⟨v, hv, hh, herr⟩ := res_ok ((s.reg ra).err ||
    conversionLoses s.cfg td (valueOf s.cfg ts (s.reg ra)) (isInfinite ts (s.reg ra))) (valueOf_inCapacity_any hw hr)
  refine ⟨v, _, command_ok hs.1 ?_, hh, herr, conversionLoses_eq_false⟩
  rw [opnd_ok hw hr]
  simp [bind_ok, hv, pure_ok]

end Sys2Proof.Machine
end


section
/-! PROOFS. The statements of 42_adder.md (R140, R141), 43_complement.md (R150 to R152), 44_shift.md (R159 to R163) and
45_multiply.md (R170 to R172) about the values that the arithmetic commands write. -/

namespace Sys2Proof.Machine

variable {c : Config} {s : State} {t : Ty} {n : Size} {rd ra rb : RegNum}

/-! ### Sum, difference and product -/

/-- Settles O34. -/
theorem addAndSubWriteTheTrueResult : Obligations.AddAndSubWriteTheTrueResult := by
  rintro s t rd ra rb a b hs ha hb hia hib rfl rfl
  exact ⟨fun hc => binaryFinite_next (fun a b => a + b) hs ha hb hia hib hc,
    fun hc => binaryFinite_next (fun a b => a - b) hs ha hb hia hib hc⟩

/-- Settles O45: `SQR` is the shape of `MUL` with its source twice. -/
theorem mulAndSqrWriteTheProduct : Obligations.MulAndSqrWriteTheProduct := by
  refine ⟨?_, fun _ _ _ _ => rfl⟩
  rintro s t rd ra rb a b hs ha hb hia hib rfl rfl
  refine ⟨fun hc => binaryFinite_next (fun a b => a * b) hs ha hb hia hib hc, fun hc => ?_⟩
  obtain ⟨v, own, hv, hh, herr, hown⟩ := binaryFinite_next (rd := rd) (fun a b => a * b) hs ha ha hia hia hc
  exact ⟨v, own, hv, hh, by rw [herr, Bool.or_self], hown⟩

/-- An integer in the signed domain of `m` bits is read back from its low `m` bits. -/
theorem signed_of_emod {m u : Nat} {v : Int} (hm : 0 < m) (hlo : -(2 ^ (m - 1)) ≤ v) (hhi : v < 2 ^ (m - 1))
    (hu : (u : Int) = v % 2 ^ m) : (if 2 ^ (m - 1) ≤ u then (u : Int) - 2 ^ m else u) = v := by
  have hpow : (2 : Int) ^ m = 2 * 2 ^ (m - 1) := by rw [← pow_succ', Nat.sub_add_cancel hm]
  have hcast : 2 ^ (m - 1) ≤ u ↔ (2 : Int) ^ (m - 1) ≤ u := by exact_mod_cast Iff.rfl
  rw [emod_pow_of_fits (by omega) (by omega)] at hu
  simp only [hcast]
  split at hu <;> split <;> omega

/-- The product of two values of a systems type lies in the domain of the Doublet. -/
theorem product_bounds {sgn : Bool} {a b : Int} (ha : inDomain c (.sys sgn n) a) (hb : inDomain c (.sys sgn n) b) :
    if sgn then -(2 ^ (2 * bitLen c n - 1)) ≤ a * b ∧ a * b < 2 ^ (2 * bitLen c n - 1)
    else 0 ≤ a * b ∧ a * b < 2 ^ (2 * bitLen c n) := by
  have hpos : 0 < bitLen c n := by have := bitLen_pos c n; omega
  cases sgn with
  | true =>
    have hpow : (2 : Int) ^ (2 * bitLen c n - 1) = 2 * (2 ^ (bitLen c n - 1) * 2 ^ (bitLen c n - 1)) := by
      rw [← pow_add, ← pow_succ']
      congr 1
      omega
    have hp : (0 : Int) < 2 ^ (bitLen c n - 1) * 2 ^ (bitLen c n - 1) := by positivity
    have habs : |a * b| ≤ 2 ^ (bitLen c n - 1) * 2 ^ (bitLen c n - 1) := by
      rw [abs_mul]
      exact mul_le_mul (abs_le.2 ⟨ha.1, ha.2.le⟩) (abs_le.2 ⟨hb.1, hb.2.le⟩) (abs_nonneg b) (by positivity)
    obtain ⟨hlo, hhi⟩ := abs_le.1 habs
    simp only [if_true, hpow]
    omega
  | false =>
    obtain ⟨ha0, ha1⟩ := ha
    obtain ⟨hb0, hb1⟩ := hb
    have hpow : (2 : Int) ^ (2 * bitLen c n) = 2 ^ bitLen c n * 2 ^ bitLen c n := by rw [← pow_add, two_mul]
    simp only [Bool.false_eq_true, if_false, hpow]
    exact ⟨mul_nonneg ha0 hb0, mul_lt_mul'' ha1 hb1 ha0 hb0⟩

theorem double_words_mul (c : Config) (n : Size) : 2 * words n * c.W = 2 * bitLen c n := Nat.mul_assoc 2 _ _

theorem mulf_next {sgn : Bool} (hs : s.ready) (ha : (s.reg ra).len = words n) (hb : (s.reg rb).len = words n) :
    exec (.mulf sgn n rd ra rb) s = .next (s.write rd (sysrec s.cfg (2 * words n)
      (valueOf s.cfg (.sys sgn n) (s.reg ra) * valueOf s.cfg (.sys sgn n) (s.reg rb))
      ((s.reg ra).err || (s.reg rb).err))) := by
  refine command_ok hs.1 ?_
  rw [opnd_ok (hs.2.1 ra) ha, opnd_ok (hs.2.1 rb) hb]
  rfl

/-- Settles O46. -/
theorem mulfWritesTheDoublet : Obligations.MulfWritesTheDoublet := by
  intro s sgn n rd ra rb hs ha hb
  refine ⟨_, mulf_next hs ha hb, sysrec_words _ _ _ _, sysrec_len .., rfl, rfl, ?_⟩
  have hpos := bitLen_pos s.cfg n
  have hbounds := product_bounds (valueOf_sys_inDomain (sgn := sgn) (hs.2.1 ra) ha)
    (valueOf_sys_inDomain (sgn := sgn) (hs.2.1 rb) hb)
  have hnat := sysrec_nat s.cfg (2 * words n)
    (valueOf s.cfg (.sys sgn n) (s.reg ra) * valueOf s.cfg (.sys sgn n) (s.reg rb))
    ((s.reg ra).err || (s.reg rb).err)
  rw [double_words_mul] at hnat
  cases sgn with
  | true => simpa using signed_of_emod (by omega) hbounds.1 hbounds.2 hnat
  | false =>
    rw [Int.emod_eq_of_lt hbounds.1 hbounds.2] at hnat
    simpa using hnat

/-! ### Complement and magnitude -/

/-- Settles O36: `-a - 1` has the inverse pattern, and fits where `a` does. -/
theorem notInvertsThePattern : Obligations.NotInvertsThePattern := by
  intro s t rd ra hs ha
  have hw := hs.2.1 ra
  obtain ⟨v, hv, hh, herr⟩ := unary_next (rd := rd) (fun a => -a - 1) (fun _ => false) hs ha
    (inCapacity_compl (valueOf_inCapacity hw ha))
  refine ⟨v, hv, hh, by rw [herr, Bool.or_false], ?_⟩
  cases t with
  | sys sgn n =>
    intro j hj
    rw [holds_patternBit_sys hh hj, int_testBit_compl]
    rfl
  | arb sgn =>
    intro j
    rw [holds_patternBit_arb hh, int_testBit_compl]
    rfl

/-- Settles O37. -/
theorem cplComplements : Obligations.CplComplements := by
  intro s t rd ra inc hs ha hc
  obtain ⟨v, hv, hh, herr⟩ := cpl_next (rd := rd) inc hs ha hc
  exact ⟨v, _, hv, hh, herr, by rw [Bool.and_eq_true, isLeast_eq_true]⟩

/-- Settles O38. -/
theorem magWritesTheMagnitude : Obligations.MagWritesTheMagnitude := by
  intro s t rd ra hs ha hc
  obtain ⟨v, hv, hh, herr⟩ := mag_next (rd := rd) hs ha hc
  exact ⟨v, _, hv, hh, herr, isLeast_eq_true⟩

/-! ### Shifts -/

/-- Settles O40. -/
theorem shlShiftsUp : Obligations.ShlShiftsUp := by
  intro s t rd ra rb hs ha hc
  have hw := hs.2.1 ra
  cases hb : (s.reg rb).app with
  | false =>
    obtain ⟨v, hv, hh, herr⟩ := res_ok ((s.reg ra).err || (s.reg rb).err) (hc hb)
    exact ⟨v, shl_next_of_res hs.1 hw ha hb hv, by simpa using hh, herr⟩
  | true =>
    obtain ⟨v, hv, hh, herr⟩ := res_ok ((s.reg ra).err || (s.reg rb).err) (inCapacity_zero s.cfg t)
    refine ⟨v, command_ok hs.1 ?_, by simpa using hh, herr⟩
    simp only [opnd_ok hw ha, bind_ok, rdCount_infinite hb, shiftUp_infinite, hv, pure_ok]

/-- Settles O41. -/
theorem shrShiftsDown : Obligations.ShrShiftsDown := by
  intro s t rd ra rb hs ha
  have hw := hs.2.1 ra
  cases hb : (s.reg rb).app with
  | false =>
    obtain ⟨v, hv, hh, herr⟩ := res_ok ((s.reg ra).err || (s.reg rb).err)
      (inCapacity_ediv (distance s.cfg (s.reg rb)) (valueOf_inCapacity hw ha))
    exact ⟨v, shr_next_of_res hs.1 hw ha hb hv, by simpa using hh, herr⟩
  | true =>
    obtain ⟨v, hv, hh, herr⟩ := res_ok ((s.reg ra).err || (s.reg rb).err)
      (shiftDown_inCapacity hw ha .infinite)
    refine ⟨v, command_ok hs.1 ?_, by simpa [shiftDown_infinite] using hh, herr⟩
    simp only [opnd_ok hw ha, bind_ok, rdCount_infinite hb, hv, pure_ok]

/-- A masked shift by a finite distance writes the record of the shift by the reduced distance. -/
theorem maskedShift_next {sgn : Bool} (f : Int → Nat → Int) (hs : s.ready) (ha : (s.reg ra).len = words n)
    (hb : (s.reg rb).app = false) :
    maskedShift f sgn n rd ra rb s = .next (s.write rd (sysrec s.cfg (words n)
      (f (valueOf s.cfg (.sys sgn n) (s.reg ra)) (distance s.cfg (s.reg rb) % bitLen s.cfg n))
      ((s.reg ra).err || (s.reg rb).err))) := by
  refine command_ok hs.1 ?_
  simp only [opnd_ok (t := .sys sgn n) (hs.2.1 ra) ha, bind_ok, rdCount_finite hb, pure_ok]

/-- Settles O42. -/
theorem maskedShiftsReduceTheDistance : Obligations.MaskedShiftsReduceTheDistance := by
  intro s sgn n rd ra rb hs ha hb
  refine ⟨⟨_, maskedShift_next (fun a d => a * 2 ^ d) hs ha hb, sysrec_holds .., rfl⟩,
    ⟨_, maskedShift_next floorShift hs ha hb, ?_, rfl⟩⟩
  rw [floorShift_eq]
  exact sysrec_holds ..

end Sys2Proof.Machine
end


section
/-! PROOFS. The statements of 46_divide.md about the values that `DIV` and `DIV21` write (R179 to R185) and the
division-inverse law (R186, 42_adder.md R143). -/

namespace Sys2Proof.Machine

variable {c : Config} {s u : State} {t : Ty} {n : Size} {sgn : Bool} {rd re ra rb : RegNum} {a b x : Int}

/-! ### Integers between 0 and another -/

/-- `x` lies between 0 and `a`, both included, on the side of 0 where `a` is. -/
def TowardZero (x a : Int) : Prop := (0 ≤ x ∧ x ≤ a) ∨ (a ≤ x ∧ x ≤ 0)

theorem TowardZero.sub (h : TowardZero x a) : TowardZero (a - x) a := by
  obtain ⟨h0, h1⟩ | ⟨h0, h1⟩ := h
  · exact .inl ⟨by omega, by omega⟩
  · exact .inr ⟨by omega, by omega⟩

theorem TowardZero.inDomain (h : TowardZero x a) (ha : inDomain c t a) : inDomain c t x := by
  match t with
  | .sys true n =>
    have hp : (0 : Int) < 2 ^ (bitLen c n - 1) := by positivity
    obtain ⟨hlo, hhi⟩ := ha
    obtain ⟨h0, h1⟩ | ⟨h0, h1⟩ := h <;> exact ⟨by omega, by omega⟩
  | .sys false n =>
    have hp : (0 : Int) < 2 ^ bitLen c n := by positivity
    obtain ⟨hlo, hhi⟩ := ha
    obtain ⟨h0, h1⟩ | ⟨h0, h1⟩ := h <;> exact ⟨by omega, by omega⟩
  | .arb true => trivial
  | .arb false =>
    have hlo : 0 ≤ a := ha
    obtain ⟨h0, h1⟩ | ⟨h0, h1⟩ := h
    · exact h0
    · exact hlo.trans h0

theorem TowardZero.inCapacity (h : TowardZero x a) (ha : inCapacity c t a) : inCapacity c t x := by
  cases t with
  | sys sgn n => trivial
  | arb sgn =>
    have hp : (0 : Int) < (c.B : Int) ^ c.CAP := by have := c.B_pos; positivity
    obtain ⟨hlo, hhi⟩ := ha
    obtain ⟨h0, h1⟩ | ⟨h0, h1⟩ := h <;> exact ⟨by omega, by omega⟩

/-- The remainder of a truncated division has the sign of the dividend and is no larger. -/
theorem towardZero_tmod (a b : Int) : TowardZero (a.tmod b) a := by
  have habs : (a.tmod b).natAbs ≤ a.natAbs := by
    rw [Int.natAbs_tmod]
    exact Nat.mod_le _ _
  obtain ha | ha := le_total 0 a
  · have := Int.tmod_nonneg b ha
    exact .inl ⟨by omega, by omega⟩
  · have := Int.tmod_nonneg b (Int.neg_nonneg.2 ha)
    rw [Int.neg_tmod] at this
    exact .inr ⟨by omega, by omega⟩

theorem towardZero_tdiv_mul (a b : Int) : TowardZero (a.tdiv b * b) a := by
  have h := (towardZero_tmod a b).sub
  have hsum := Int.tdiv_mul_add_tmod a b
  rwa [show a - a.tmod b = a.tdiv b * b by omega] at h

/-! ### `DIV` on finite operands -/

section
variable (hs : s.ready) (ha : readable t (s.reg ra)) (hb : readable t (s.reg rb))
  (hia : isInfinite t (s.reg ra) = false) (hib : isInfinite t (s.reg rb) = false)
include hs ha hb hia hib

/-- Under an arbitrary type the quotient of two finite values is in the domain, so only a systems type overflows. -/
theorem tdiv_inDomain_arb (harb : ∀ sgn n, t ≠ .sys sgn n) :
    inDomain s.cfg t ((valueOf s.cfg t (s.reg ra)).tdiv (valueOf s.cfg t (s.reg rb))) := by
  have hda := valueOf_inDomain (hs.2.1 ra) ha hia
  have hdb := valueOf_inDomain (hs.2.1 rb) hb hib
  match t with
  | .sys sgn n => exact absurd rfl (harb sgn n)
  | .arb true => trivial
  | .arb false => exact Int.tdiv_nonneg hda hdb

theorem div_finite_next (hne : valueOf s.cfg t (s.reg rb) ≠ 0)
    (hc : inCapacity s.cfg t ((valueOf s.cfg t (s.reg ra)).tdiv (valueOf s.cfg t (s.reg rb)))) :
    ∃ q r own, exec (.div t rd re ra rb) s = .next (s.write2 rd q re r 0) ∧
      holds s.cfg t q ((valueOf s.cfg t (s.reg ra)).tdiv (valueOf s.cfg t (s.reg rb))) ∧
      holds s.cfg t r ((valueOf s.cfg t (s.reg ra)).tmod (valueOf s.cfg t (s.reg rb))) ∧
      q.err = ((s.reg ra).err || (s.reg rb).err || own) ∧ r.err = q.err ∧
      (own = false ↔ inDomain s.cfg t ((valueOf s.cfg t (s.reg ra)).tdiv (valueOf s.cfg t (s.reg rb)))) := by
  have hcr := (towardZero_tmod (valueOf s.cfg t (s.reg ra)) (valueOf s.cfg t (s.reg rb))).inCapacity
    (valueOf_inCapacity (hs.2.1 ra) ha)
  have hown := quotientOverflows_eq_false (c := s.cfg)
    (v := (valueOf s.cfg t (s.reg ra)).tdiv (valueOf s.cfg t (s.reg rb)))
    (fun sgn harb => tdiv_inDomain_arb hs ha hb hia hib (by simp [harb]))
  obtain ⟨q, hq, hhq, heq⟩ := res_ok ((s.reg ra).err || (s.reg rb).err || quotientOverflows s.cfg t
    ((valueOf s.cfg t (s.reg ra)).tdiv (valueOf s.cfg t (s.reg rb)))) hc
  obtain ⟨r, hr, hhr, her⟩ := res_ok ((s.reg ra).err || (s.reg rb).err || quotientOverflows s.cfg t
    ((valueOf s.cfg t (s.reg ra)).tdiv (valueOf s.cfg t (s.reg rb)))) hcr
  refine ⟨q, r, _, command_ok hs.1 ?_, hhq, hhr, heq, her.trans heq.symm, hown⟩
  simp only [opnd_ok (hs.2.1 ra) ha, opnd_ok (hs.2.1 rb) hb, bind_ok, hia, hib, Bool.and_self, Bool.not_false,
    check_true, Bool.false_or, bne_iff_ne.2 hne, divide, Bool.false_eq_true, if_false, tdiv_eq, trem_eq_tmod, hq, hr,
    pure_ok]

end

/-- Settles O49. -/
theorem divDividesFiniteValues : Obligations.DivDividesFiniteValues := by
  rintro s t rd re ra rb a b hs ha hb hia hib rfl rfl hne hc
  rw [← trem_eq, trem_eq_tmod]
  exact div_finite_next hs ha hb hia hib hne hc

/-! ### The one overflow -/

theorem tdiv_natAbs_le (a b : Int) : (a.tdiv b).natAbs ≤ a.natAbs := by
  rw [Int.natAbs_tdiv]
  exact Nat.div_le_self _ _

/-- A truncated quotient as large as a nonzero dividend has a divisor of magnitude 1. -/
theorem natAbs_eq_one_of_tdiv (ha : a ≠ 0) (h : (a.tdiv b).natAbs = a.natAbs) : b.natAbs = 1 := by
  rw [Int.natAbs_tdiv] at h
  replace h : a.natAbs / b.natAbs = a.natAbs := h
  by_contra hne
  obtain h0 | h2 : b.natAbs = 0 ∨ 1 < b.natAbs := by omega
  · rw [h0, Nat.div_zero] at h
    omega
  · have := Nat.div_lt_self (Int.natAbs_pos.2 ha) h2
    omega

theorem tdiv_inDomain_iff (ha : inDomain c (.sys sgn n) a) (hb : inDomain c (.sys sgn n) b) :
    inDomain c (.sys sgn n) (a.tdiv b) ↔ ¬(sgn = true ∧ a = -(2 ^ (bitLen c n - 1)) ∧ b = -1) := by
  have habs := tdiv_natAbs_le a b
  cases sgn with
  | false =>
    have hq : 0 ≤ a.tdiv b := Int.tdiv_nonneg ha.1 hb.1
    have ha0 := ha.1
    have ha1 := ha.2
    simp only [Bool.false_eq_true, false_and, not_false_iff, iff_true]
    exact ⟨hq, by omega⟩
  | true =>
    obtain ⟨halo, hahi⟩ := ha
    have hp : (0 : Int) < 2 ^ (bitLen c n - 1) := by positivity
    constructor
    · rintro ⟨-, hlt⟩ ⟨-, rfl, rfl⟩
      simp at hlt
    · intro hnot
      refine ⟨by omega, ?_⟩
      by_contra hge
      have hleast : a = -(2 ^ (bitLen c n - 1)) := by omega
      have hone := natAbs_eq_one_of_tdiv (b := b) (by omega : a ≠ 0) (by omega)
      obtain rfl | rfl : b = 1 ∨ b = -1 := by omega
      · rw [Int.tdiv_one] at hge
        omega
      · exact hnot ⟨rfl, hleast, rfl⟩

/-- The record that holds the greatest magnitude reads as the least value. -/
theorem valueOf_of_holds_least {v : Reg} (h : holds c (.sys true n) v (2 ^ (bitLen c n - 1))) :
    valueOf c (.sys true n) v = -(2 ^ (bitLen c n - 1)) := by
  have hpow : (2 : Int) ^ bitLen c n = 2 * 2 ^ (bitLen c n - 1) := by
    rw [← pow_succ', Nat.sub_add_cancel (by have := bitLen_pos c n; omega)]
  have hp : (0 : Int) < 2 ^ (bitLen c n - 1) := by positivity
  obtain ⟨-, -, -, hnat⟩ := h
  rw [Int.emod_eq_of_lt (by positivity) (by omega)] at hnat
  have hnat' : v.nat c = 2 ^ (bitLen c n - 1) := by exact_mod_cast hnat
  rw [valueOf, if_pos hnat'.ge, hnat, hpow]
  ring

/-- Settles O50. -/
theorem divOverflowsOnlyOnMinByMinusOne : Obligations.DivOverflowsOnlyOnMinByMinusOne := by
  intro s sgn n rd re ra rb hs ha hb hea heb hne
  obtain ⟨q, r, own, hexec, hq, hr, hqe, hre, hown⟩ :=
    div_finite_next (rd := rd) (re := re) hs (t := .sys sgn n) ha hb (isInfinite_sys ..) (isInfinite_sys ..) hne trivial
  rw [tdiv_inDomain_iff (valueOf_sys_inDomain (hs.2.1 ra) ha) (valueOf_sys_inDomain (hs.2.1 rb) hb)] at hown
  rw [hea, heb, Bool.false_or, Bool.false_or] at hqe
  subst hqe
  have hiff : q.err = true ↔ sgn = true ∧ valueOf s.cfg (.sys sgn n) (s.reg ra) = -(2 ^ (bitLen s.cfg n - 1)) ∧
      valueOf s.cfg (.sys sgn n) (s.reg rb) = -1 := by
    rw [← not_iff_not, Bool.not_eq_true]
    exact hown
  refine ⟨q, r, hexec, hiff, hre, fun herr => ?_⟩
  obtain ⟨rfl, hmin, hone⟩ := hiff.1 herr
  rw [hmin, hone] at hq hr
  refine ⟨valueOf_of_holds_least (by simpa using hq), ?_⟩
  have hp : (0 : Int) < 2 ^ (bitLen s.cfg n - 1) := by positivity
  exact valueOf_of_holds (by simpa using hr) ⟨by omega, hp⟩

/-! ### One infinite operand -/

/-- Settles O51. -/
theorem divWithOneInfiniteOperand : Obligations.DivWithOneInfiniteOperand := by
  rintro s rd re ra rb a b hs rfl rfl
  have hopa := opnd_ok (t := .arb false) (hs.2.1 ra) trivial
  have hopb := opnd_ok (t := .arb false) (hs.2.1 rb) trivial
  have hread := valueOf_inCapacity (t := .arb false) (hs.2.1 ra) trivial
  refine ⟨fun hia hib => ?_, fun hia hib hne => ?_⟩
  · obtain ⟨q, hq, hhq, heq⟩ := res_ok ((s.reg ra).err || (s.reg rb).err) (inCapacity_zero s.cfg (.arb false))
    obtain ⟨r, hr, hhr, her⟩ := res_ok ((s.reg ra).err || (s.reg rb).err) hread
    refine ⟨q, r, command_ok hs.1 ?_, hhq, hhr, heq, her.trans heq.symm⟩
    simp only [hopa, hopb, bind_ok, isInfinite_ux, hia, hib, Bool.and_true, Bool.not_false, Bool.true_or, check_true,
      divide, if_true, Bool.or_false, hq, hr, pure_ok]
  · have hpos : 0 < valueOf s.cfg (.arb false) (s.reg rb) :=
      lt_of_le_of_ne (valueOf_inDomain (t := .arb false) (hs.2.1 rb) trivial hib) (Ne.symm hne)
    obtain ⟨q, hq, hhq, heq⟩ := res_ok ((s.reg ra).err || (s.reg rb).err || s.cfg.infdivErr)
      (inCapacity_tdiv hread hpos)
    obtain ⟨r, hr, hhr, her⟩ := res_ok ((s.reg ra).err || (s.reg rb).err || s.cfg.infdivErr)
      ((towardZero_tmod _ (valueOf s.cfg (.arb false) (s.reg rb))).inCapacity hread)
    refine ⟨q, r, command_ok hs.1 ?_, hhq, by rwa [← trem_eq, trem_eq_tmod], heq, her.trans heq.symm⟩
    simp only [hopa, hopb, bind_ok, isInfinite_ux, hia, hib, Bool.and_false, Bool.not_false, Bool.false_or,
      bne_iff_ne.2 hne, check_true, divide, Bool.false_eq_true, if_false, if_true, tdiv_eq, trem_eq_tmod, hq, hr,
      pure_ok]

/-! ### `DIV21` -/

/-- The remainder by a divisor of the domain is in the domain, where the dividend is not negative under an unsigned
type. -/
theorem tmod_inDomain_of_divisor (hb : inDomain c (.sys sgn n) b) (hne : b ≠ 0) (ha : sgn = false → 0 ≤ a) :
    inDomain c (.sys sgn n) (a.tmod b) := by
  have habs : (a.tmod b).natAbs < b.natAbs := by
    rw [Int.natAbs_tmod]
    exact Nat.mod_lt _ (Int.natAbs_pos.2 hne)
  cases sgn with
  | true =>
    obtain ⟨hlo, hhi⟩ := hb
    exact ⟨by omega, by omega⟩
  | false =>
    obtain ⟨hlo, hhi⟩ := hb
    have := Int.tmod_nonneg b (ha rfl)
    exact ⟨this, by omega⟩

/-- The integer of a Doublet (46_divide.md R185). -/
def doubletValue (c : Config) (sgn : Bool) (n : Size) (r : Reg) : Int :=
  if sgn = true ∧ 2 ^ (2 * bitLen c n - 1) ≤ r.nat c then (r.nat c : Int) - 2 ^ (2 * bitLen c n) else r.nat c

theorem doubletValue_eq {r : Reg} (hw : r.wf c) (hl : r.len = 2 * words n) :
    (if sgn then signedOf (2 * bitLen c n) (r.nat c) else (r.nat c : Int)) = doubletValue c sgn n r := by
  have hlt : r.nat c < 2 ^ (2 * bitLen c n) := by simpa [hl, double_words_mul] using Reg.nat_lt hw.2
  rw [doubletValue, signedOf_eq (by have := bitLen_pos c n; omega) hlt]
  cases sgn <;> simp

theorem doubletValue_nonneg (c : Config) (n : Size) (r : Reg) : 0 ≤ doubletValue c false n r := by
  simp [doubletValue]

theorem div21_signed_next {e : Bool} (hs : s.ready) (ha : (s.reg ra).len = 2 * words n) (hb : (s.reg rb).len = words n)
    (hav : a = doubletValue s.cfg sgn n (s.reg ra)) (hbv : b = valueOf s.cfg (.sys sgn n) (s.reg rb)) (hne : b ≠ 0)
    (he : e = ((s.reg ra).err || (s.reg rb).err || overflows s.cfg (.sys sgn n) (a.tdiv b))) :
    exec (.div21 sgn n rd re ra rb) s = .next (s.write2 rd (sysrec s.cfg (words n) (a.tdiv b) e) re
      (sysrec s.cfg (words n) (a - a.tdiv b * b) e) 0) := by
  subst he
  refine command_ok hs.1 ?_
  simp only [sysnat_ok ha, bind_ok, doubletValue_eq (hs.2.1 ra) ha, ← hav, opnd_ok (t := .sys sgn n) (hs.2.1 rb) hb,
    ← hbv, bne_iff_ne.2 hne, check_true, pure_ok, tdiv_eq, trem_eq]

/-- Settles O52. -/
theorem div21DividesADoublet : Obligations.Div21DividesADoublet := by
  intro s sgn n rd re ra rb a b hs ha hb hav hbv hne
  have hr : inDomain s.cfg (.sys sgn n) (a - a.tdiv b * b) := by
    rw [← trem_eq, trem_eq_tmod]
    refine tmod_inDomain_of_divisor (hbv ▸ valueOf_sys_inDomain (hs.2.1 rb) hb) hne ?_
    rintro rfl
    exact hav.symm ▸ doubletValue_nonneg ..
  exact ⟨_, _, _, div21_signed_next hs ha hb hav hbv hne rfl, sysrec_holds .., sysrec_holds ..,
    valueOf_of_holds (sysrec_holds ..) hr, rfl, rfl, overflows_eq_false⟩

/-! ### The division-inverse law -/

/-- What a `DIV` on finite operands that raised no fault found: readable operands, a divisor that is not 0 and a quotient
that fits. -/
theorem div_completed (hs : s.ready) (hia : isInfinite t (s.reg ra) = false) (hib : isInfinite t (s.reg rb) = false)
    (h : exec (.div t rd re ra rb) s = .next u) (hu : u.fault = false) :
    readable t (s.reg ra) ∧ readable t (s.reg rb) ∧ valueOf s.cfg t (s.reg rb) ≠ 0 ∧
      inCapacity s.cfg t ((valueOf s.cfg t (s.reg ra)).tdiv (valueOf s.cfg t (s.reg rb))) := by
  obtain ⟨hf, -⟩ | ⟨-, hok | ⟨k, -, rfl⟩⟩ := command_cases h
  · simp [hs.1] at hf
  · by_cases ha : readable t (s.reg ra)
    case neg => simp [opnd_error ha, bind_error] at hok
    by_cases hb : readable t (s.reg rb)
    case neg => simp [opnd_ok (hs.2.1 ra) ha, opnd_error hb, bind_ok, bind_error] at hok
    simp only [opnd_ok (hs.2.1 ra) ha, opnd_ok (hs.2.1 rb) hb, bind_ok, hia, hib, Bool.and_self, Bool.not_false,
      check_true, Bool.false_or, divide, Bool.false_eq_true, if_false, bind_eq_ok, check_eq_ok] at hok
    obtain ⟨-, hne, q, hq, -⟩ := hok
    refine ⟨ha, hb, bne_iff_ne.1 hne, ?_⟩
    by_contra hc
    cases (res_error _ hc).symm.trans hq
  · cases hu

theorem write2_eq_write_write (s : State) (rd : RegNum) (v : Reg) (re : RegNum) (v' : Reg) :
    s.write2 rd v re v' 0 = (s.write rd v).write re v' := rfl

theorem isInfinite_of_nonneg {v : Reg} (hw : v.wf c) (h : t = .arb false → 0 ≤ valueOf c t v) :
    isInfinite t v = false := by
  by_contra hne
  rw [Bool.not_eq_false] at hne
  have hneg := valueOf_neg_of_isInfinite hw hne
  match t with
  | .sys sgn n => simp [isInfinite_sys] at hne
  | .arb true => simp [isInfinite_sx] at hne
  | .arb false => exact absurd (h rfl) (not_le.2 hneg)

/-- A register that holds an integer of the domain: what the next command reads. -/
structure HoldsFinite (c : Config) (t : Ty) (v : Reg) (x : Int) : Prop where
  wf : v.wf c
  readable : readable t v
  finite : isInfinite t v = false
  value : valueOf c t v = x

theorem HoldsFinite.of_holds {v : Reg} (h : holds c t v x) (hfit : t.fits c = true) (hd : Machine.inDomain c t x) :
    HoldsFinite c t v x := by
  have hwf := holds_wf h hfit
  have hval := valueOf_of_holds h hd
  refine ⟨hwf, holds_readable h, isInfinite_of_nonneg hwf ?_, hval⟩
  rintro rfl
  rw [hval]
  exact hd

/-- A two-operand command on flag-free operands with a result in the domain. -/
theorem binaryFinite_exact {f : Int → Int → Int} (hs : s.ready) (ha : HoldsFinite s.cfg t (s.reg ra) a)
    (hb : HoldsFinite s.cfg t (s.reg rb) b) (hea : (s.reg ra).err = false) (heb : (s.reg rb).err = false)
    (hc : inCapacity s.cfg t (f a b)) (hd : inDomain s.cfg t (f a b)) :
    ∃ v, binaryFinite f t rd ra rb s = .next (s.write rd v) ∧ HoldsFinite s.cfg t v (f a b) ∧ v.err = false := by
  obtain ⟨hwa, hra, hfa, rfl⟩ := ha
  obtain ⟨hwb, hrb, hfb, rfl⟩ := hb
  obtain ⟨v, own, hv, hh, herr, hown⟩ := binaryFinite_next (rd := rd) f hs hra hrb hfa hfb hc
  refine ⟨v, hv, .of_holds hh (fits_of_readable hwa hra) hd, ?_⟩
  rw [herr, hea, heb, hown.2 hd]
  rfl

/-- Settles O53: without a flag the quotient is in the domain, the product `q * b` and the remainder lie between 0 and the
dividend, and their sum is the dividend. -/
theorem divisionInverse : Obligations.DivisionInverse := by
  intro s s1 t rq rr ra rb rp hs hia hib hqr hqb hrb hpr hdiv hf hflag
  obtain ⟨ha, hb, hne, hc⟩ := div_completed hs hia hib hdiv hf
  obtain ⟨q, r, own, hexec, hq, hr, heq, her, hown⟩ :=
    div_finite_next (rd := rq) (re := rr) hs ha hb hia hib hne hc
  obtain rfl : s1 = s.write2 rq q rr r 0 := by
    rw [hexec] at hdiv
    injection hdiv with h
    exact h.symm
  have hwa := hs.2.1 ra
  have hfit := fits_of_readable hwa ha
  have hdom := valueOf_inDomain hwa ha hia
  have hcap := valueOf_inCapacity hwa ha
  have hprod := towardZero_tdiv_mul (valueOf s.cfg t (s.reg ra)) (valueOf s.cfg t (s.reg rb))
  have hrem := towardZero_tmod (valueOf s.cfg t (s.reg ra)) (valueOf s.cfg t (s.reg rb))
  rw [State.reg_write2_fst _ _ _ _ _ _ hqr] at hflag
  have hflags : (s.reg ra).err = false ∧ (s.reg rb).err = false ∧ own = false := by
    rw [hflag] at heq
    simpa [and_assoc] using heq.symm
  obtain ⟨-, heb, hownf⟩ := hflags
  have hqf : HoldsFinite s.cfg t q _ := .of_holds hq hfit (hown.1 hownf)
  have hrf : HoldsFinite s.cfg t r _ := .of_holds hr hfit (hrem.inDomain hdom)
  have hready : (s.write2 rq q rr r 0).ready := by
    rw [write2_eq_write_write]
    exact ready_write (ready_write hs rq hqf.wf) rr hrf.wf
  have hregq : (s.write2 rq q rr r 0).reg rq = q := State.reg_write2_fst _ _ _ _ _ _ hqr
  have hregb : (s.write2 rq q rr r 0).reg rb = s.reg rb :=
    reg_write2_of_not_mem q r 0 (by simp [hqb.symm, hrb.symm])
  obtain ⟨p, hmul, hpf, hpe⟩ := binaryFinite_exact (rd := rp) (f := fun a b => a * b) (ra := rq) (rb := rb) hready
    (hregq.symm ▸ hqf) (hregb.symm ▸ ⟨hs.2.1 rb, hb, hib, rfl⟩) (by rw [hregq, hflag]) (by rw [hregb, heb])
    (hprod.inCapacity hcap) (hprod.inDomain hdom)
  have hready' := ready_write hready rp hpf.wf
  have hsum : (valueOf s.cfg t (s.reg ra)).tdiv (valueOf s.cfg t (s.reg rb)) * valueOf s.cfg t (s.reg rb) +
      (valueOf s.cfg t (s.reg ra)).tmod (valueOf s.cfg t (s.reg rb)) = valueOf s.cfg t (s.reg ra) := by
    rw [mul_comm, Int.mul_tdiv_add_tmod]
  have hregr : ((s.write2 rq q rr r 0).write rp p).reg rr = r := by
    rw [State.reg_write_ne _ _ _ _ hpr.symm, State.reg_write2_snd]
  obtain ⟨v, hadd, hvf, hve⟩ := binaryFinite_exact (rd := rp) (f := fun a b => a + b) (ra := rp) (rb := rr) hready'
    (by rw [State.reg_write_self]; exact hpf) (hregr.symm ▸ hrf) (by rw [State.reg_write_self, hpe])
    (by rw [hregr, her, hflag]) (by rw [hsum]; exact hcap) (by rw [hsum]; exact hdom)
  refine ⟨_, _, hmul, hadd, hs.1, ?_, ?_, ?_⟩
  · rw [State.reg_write_self]
    exact hvf.readable
  · rw [State.reg_write_self, ← hsum]
    exact hvf.value
  · rw [State.reg_write_self, hve]

end Sys2Proof.Machine
end


section
/-! PROOFS. The statements of 47_reciprocal.md about the slots (R200, R203), the divisions by a slot (R202, R204) and the
constants that `RCPRD` reads (R205). -/

namespace Sys2Proof.Machine

variable {c : Config} {s : State} {n : Size} {k21 : Bool} {k : SlotNum} {rd re ra : RegNum} {d : Slot}

/-! ### Construction -/

theorem rcpConstruct_zero (hf : s.fault = false) (hl : (s.reg ra).len = words n) (h0 : (s.reg ra).nat s.cfg = 0) :
    rcpConstruct k21 n k ra s = .next (s.answer 0 true) := by
  refine command_ok hf ?_
  simp only [sysnat_ok hl, bind_ok, if_pos h0, pure_ok]

theorem rcpConstruct_nonzero (hf : s.fault = false) (hl : (s.reg ra).len = words n)
    (h0 : (s.reg ra).nat s.cfg ≠ 0) :
    rcpConstruct k21 n k ra s = .next ((s.setSlot k (dividerOf s.cfg k21 n (s.reg ra))).answer 0 false) := by
  refine command_ok hf ?_
  simp only [sysnat_ok hl, bind_ok, if_neg h0, pure_ok]
  rfl

/-- Settles O56. -/
theorem constructionWritesTheSlot : Obligations.ConstructionWritesTheSlot := by
  intro s n k ra hs hl
  refine ⟨fun h0 => ⟨rcpConstruct_zero hs.1 hl h0, rcpConstruct_zero hs.1 hl h0⟩, fun h0 => ⟨?_, ?_⟩⟩
  · exact ⟨dividerOf s.cfg false n (s.reg ra), rcpConstruct_nonzero hs.1 hl h0, rfl, rfl, rfl, rfl, rfl, rfl⟩
  · exact ⟨dividerOf s.cfg true n (s.reg ra), rcpConstruct_nonzero hs.1 hl h0, rfl, rfl, rfl, rfl, rfl, rfl⟩

/-! ### The constants of a stored slot -/

theorem slot_divisor_lt (hd : d.wf c) (hvalid : d.valid = true) : d.divisor < 2 ^ d.dividendBits c := by
  obtain ⟨-, -, -, hlt, -⟩ := hd hvalid
  have hwidth : d.size * c.W ≤ d.dividendBits c := Nat.mul_le_mul_right _ (by split <;> omega)
  exact hlt.trans_le (Nat.pow_le_pow_right (by decide) hwidth)

/-- A stored slot divides every dividend of its width. -/
theorem rcpQuotient_of_wf {x : Nat} (hd : d.wf c) (hvalid : d.valid = true) (hx : x < 2 ^ d.dividendBits c) :
    rcpQuotient d x = x / d.divisor := by
  obtain ⟨-, -, hpos, -, hconst⟩ := id hd hvalid
  exact rcpQuotient_eq_div hpos (slot_divisor_lt hd hvalid) hconst hx

theorem slot_mul_lt (hd : d.wf c) (hvalid : d.valid = true) : d.mul < 2 ^ d.dividendBits c := by
  obtain ⟨-, -, hpos, -, hconst⟩ := id hd hvalid
  obtain ⟨k, mul, add, heq, -, -, -, -, -, -, -, -, hmul, -⟩ :=
    rcpConstantsAreExact d.divisor (d.dividendBits c) hpos (slot_divisor_lt hd hvalid)
  rw [heq] at hconst
  simp only [Prod.mk.injEq] at hconst
  rw [hconst.1]
  exact hmul

/-! ### Application -/

/-- Application of a slot of its kind and size writes the quotient and the remainder by the slot's divisor. -/
theorem rcpApply_of_wf {e : Bool} (hs : s.ready) (hvalid : (s.slot k).valid = true) (hk : (s.slot k).k21 = k21)
    (hsize : (s.slot k).size = words n) (hl : (s.reg ra).len = if k21 then 2 * words n else words n)
    (he : e = ((s.reg ra).err || (s.slot k).err ||
      (k21 && decide (2 ^ bitLen s.cfg n ≤ (s.reg ra).nat s.cfg / (s.slot k).divisor)))) :
    rcpApply k21 n rd re ra k s = .next (s.write2 rd
      (sysrec s.cfg (words n) ((s.reg ra).nat s.cfg / (s.slot k).divisor : Nat) e) re
      (sysrec s.cfg (words n) ((s.reg ra).nat s.cfg % (s.slot k).divisor : Nat) e) 0) := by
  subst he
  have hx : (s.reg ra).nat s.cfg < 2 ^ (s.slot k).dividendBits s.cfg := by
    have h := Reg.nat_lt (hs.2.1 ra).2
    rwa [hl, ← hsize, ← hk] at h
  have hq := rcpQuotient_of_wf (hs.2.2.1 k) hvalid hx
  have hslot : ((s.slot k).valid && (s.slot k).k21 == k21 && (s.slot k).size == words n) = true := by
    simp [hvalid, hk, hsize]
  refine command_ok hs.1 ?_
  simp only [sysnat_ok hl, bind_ok, hslot, check_true, hq, natCast_sub_div_mul, pure_ok]

/-- Settles O58. -/
theorem reciprocalDivides : Obligations.ReciprocalDivides := by
  intro s n rd re ra k hs hvalid hsize
  refine ⟨fun hk hl => ⟨_, _, rcpApply_of_wf hs hvalid hk hsize hl rfl, sysrec_holds .., sysrec_holds .., ?_, rfl⟩,
    fun hk hl => ⟨_, _, rcpApply_of_wf hs hvalid hk hsize hl rfl, sysrec_holds .., sysrec_holds .., rfl, rfl⟩⟩
  rw [sysrec_err, Bool.false_and, Bool.or_false]

/-- Settles O59. -/
theorem rcprdReadsTheConstants : Obligations.RcprdReadsTheConstants := by
  intro s rd re k hs hvalid
  have hwf : (s.slot k).wf s.cfg := hs.2.2.1 k
  obtain ⟨-, hsize, -⟩ := id hwf hvalid
  obtain ⟨h, hh, hcount, herr⟩ := cntrec_ok (c := s.cfg) (e := (s.slot k).err) (k := .finite (s.slot k).shift) <| by
    rintro _ ⟨⟩
    exact small_lt_B_sq _ (slot_shift_le hwf hvalid)
  refine ⟨_, h, command_ok hs.1 ?_, sysrec_wf hsize (s.slot k).mul (s.slot k).err, sysrec_len .., rfl,
    sysrec_natCast (slot_mul_lt hwf hvalid) _, rfl, hcount, herr⟩
  simp only [hvalid, check_true, bind_ok, hh, pure_ok, bitWord, toNat_eq_ite]

end Sys2Proof.Machine
end


section
/-! PROOFS. The schoolbook multiplier (45_multiply.md R174): each row adds a multiple of the first operand to the partial
product, and for a signed type the high half is corrected. -/

namespace Sys2Proof.Machine

variable {c : Config} {s : State} {b v carry : Nat} {us vs lo hi : List Nat}

/-! ### The rows -/

theorem row_carry_lt {p u : Nat} (hp : p < b) (hu : u < b) (hv : v < b) (hcarry : carry < b) :
    (p + u * v + carry) / b < b := by
  have hmul : u * v ≤ (b - 1) * (b - 1) := Nat.mul_le_mul (by omega) (by omega)
  have hsq : (b - 1) * (b - 1) + 2 * (b - 1) + 1 = b * b := by
    obtain ⟨m, rfl⟩ : ∃ m, b = m + 1 := ⟨b - 1, by omega⟩
    simp only [Nat.add_sub_cancel]
    ring
  exact Nat.div_lt_of_lt_mul (by omega)

/-- One row adds `v` times the first operand and the carry, and leaves the Words above the stored carry. -/
theorem mulRow_spec (hv : v < b) (z : Nat) (hi : List Nat) : ∀ {us lo : List Nat} {carry : Nat},
    lo.length = us.length → (∀ u ∈ us, u < b) → (∀ p ∈ lo, p < b) → carry < b →
    ∃ row, mulRow b v (lo ++ z :: hi) us carry = row ++ hi ∧ row.length = us.length + 1 ∧ (∀ p ∈ row, p < b) ∧
      natOf b row = natOf b lo + v * natOf b us + carry
  | [], [], carry, _, _, _, hcarry => ⟨[carry], rfl, rfl, by simpa using hcarry, by simp⟩
  | u :: us, p :: lo, carry, hlen, hus, hlo, hcarry => by
    obtain ⟨hu, hus⟩ := List.forall_mem_cons.1 hus
    obtain ⟨hp, hlo⟩ := List.forall_mem_cons.1 hlo
    obtain ⟨row, hrow, hrlen, hrlt, hrval⟩ :=
      mulRow_spec hv z hi (by simpa using hlen) hus hlo (row_carry_lt hp hu hv hcarry)
    refine ⟨(p + u * v + carry) % b :: row, ?_, by simp [hrlen], ?_, ?_⟩
    · rw [List.cons_append, mulRow, hrow, List.cons_append]
    · exact List.forall_mem_cons.2 ⟨Nat.mod_lt _ (by omega), hrlt⟩
    · rw [natOf_cons, natOf_cons, natOf_cons, hrval]
      have := Nat.mod_add_div (p + u * v + carry) b
      linarith

/-- The rows add the product, above the Words of the partial product that are still 0. -/
theorem mulRows_spec (hus : ∀ u ∈ us, u < b) : ∀ {vs lo : List Nat}, lo.length = us.length → (∀ v ∈ vs, v < b) →
    (∀ p ∈ lo, p < b) →
    (mulRows b us vs (lo ++ List.replicate vs.length 0)).length = us.length + vs.length ∧
    (∀ p ∈ mulRows b us vs (lo ++ List.replicate vs.length 0), p < b) ∧
    natOf b (mulRows b us vs (lo ++ List.replicate vs.length 0)) = natOf b lo + natOf b us * natOf b vs
  | [], lo, hlen, _, hlo => by simpa [mulRows, hlen] using hlo
  | v :: vs, lo, hlen, hvs, hlo => by
    obtain ⟨hv, hvs⟩ := List.forall_mem_cons.1 hvs
    obtain ⟨row, hrow, hrlen, hrlt, hrval⟩ :=
      mulRow_spec hv 0 (List.replicate vs.length 0) hlen hus hlo (Nat.zero_lt_of_lt hv)
    obtain ⟨q, qs, rfl⟩ := List.exists_cons_of_length_eq_add_one hrlen
    obtain ⟨hq, hqs⟩ := List.forall_mem_cons.1 hrlt
    obtain ⟨hl, hlt, hval⟩ := mulRows_spec hus (by simpa using hrlen) hvs hqs
    rw [List.length_cons, List.replicate_succ, mulRows, hrow, List.cons_append]
    refine ⟨?_, List.forall_mem_cons.2 ⟨hq, hlt⟩, ?_⟩
    · rw [List.length_cons, hl]
      omega
    · rw [natOf_cons] at hrval ⊢
      rw [hval, natOf_cons]
      linarith

theorem schoolbook_spec (hb : 0 < b) (hus : ∀ u ∈ us, u < b) (hvs : ∀ v ∈ vs, v < b) :
    (schoolbook b us vs).length = us.length + vs.length ∧ (∀ p ∈ schoolbook b us vs, p < b) ∧
      natOf b (schoolbook b us vs) = natOf b us * natOf b vs := by
  have h := mulRows_spec hus (lo := List.replicate us.length 0) (by simp) hvs
    fun p hp => by rwa [List.eq_of_mem_replicate hp]
  rw [natOf_replicate_zero, Nat.zero_add, List.replicate_append_replicate] at h
  exact h

/-! ### The correction of the high half -/

theorem getLastD_eq_getD (ws : List Nat) (x : Nat) : ws.getLastD x = ws.getD (ws.length - 1) x := by
  rw [List.getLastD_eq_getLast?, List.getLast?_eq_getElem?, List.getD]

/-- The top bit of a body is the top bit of its number. -/
theorem topBit_eq_testBit {ws : List Nat} (hlt : ∀ w ∈ ws, w < c.B) (hne : ws ≠ []) :
    topBit c ws = (natOf c.B ws).testBit (ws.length * c.W - 1) := by
  have hW := c.W_pos
  have hlen := List.length_pos_iff.2 hne
  have hsplit : ws.length * c.W - 1 = c.W - 1 + c.W * (ws.length - 1) := by
    rw [Nat.mul_sub, Nat.mul_comm c.W]
    have : c.W ≤ ws.length * c.W := Nat.le_mul_of_pos_left _ hlen
    omega
  rw [natOf_testBit c hlt, topBit, getLastD_eq_getD, hsplit, Nat.add_mul_div_left _ _ (by omega),
    Nat.add_mul_mod_self_left, Nat.div_eq_of_lt (by omega), Nat.mod_eq_of_lt (by omega), Nat.zero_add]

theorem body_ne_nil {n : Size} {r : Reg} (hl : r.len = words n) : r.body ≠ [] := by
  rintro hnil
  have := words_pos n
  simp [Reg.len, hnil] at hl
  omega

theorem topBit_eq_decide {n : Size} {r : Reg} (hw : r.wf c) (hl : r.len = words n) :
    topBit c r.body = decide (2 ^ (bitLen c n - 1) ≤ r.nat c) := by
  rw [topBit_eq_testBit hw.2 (body_ne_nil hl), ← testBit_top (by have := bitLen_pos c n; omega) (Reg.nat_lt_bitLen hw hl),
    bitLen, ← hl]
  rfl

/-- A systems value is its number, less `2^L` when it is signed and its top bit is set. -/
theorem valueOf_sys_eq_sub {sgn : Bool} {n : Size} {r : Reg} (hw : r.wf c) (hl : r.len = words n) :
    valueOf c (.sys sgn n) r = (r.nat c : Int) - 2 ^ bitLen c n * (sgn && topBit c r.body).toNat := by
  rw [topBit_eq_decide hw hl]
  cases sgn with
  | false => simp [valueOf]
  | true => by_cases h : 2 ^ (bitLen c n - 1) ≤ r.nat c <;> simp [valueOf, h]

/-- The correction of the high half takes the product of the numbers to that of the signed values, modulo the Doublet. -/
theorem doublet_correction (u v p : Int) (x y : Bool) :
    ((u - p * x.toNat) * (v - p * y.toNat)) % (p * p) =
      (u * v - p * ((if x then v else 0) + (if y then u else 0))) % (p * p) := by
  cases x <;> cases y
  · simp
  · simp [mul_sub, mul_comm]
  · simp [sub_mul]
  · have h : (u - p) * (v - p) = u * v - p * (v + u) + p * p := by ring
    simp [h]

/-- Settles O48. -/
theorem schoolbookIsMulf : Obligations.SchoolbookIsMulf := by
  refine ⟨fun b us vs hb hus hvs => schoolbook_spec (by omega) hus hvs, fun s sgn n rd ra rb hs ha hb => ?_⟩
  have hwa := hs.2.1 ra
  have hwb := hs.2.1 rb
  obtain ⟨-, -, hprod⟩ := schoolbook_spec s.cfg.B_pos hwa.2 hwb.2
  rw [mulf_next hs ha hb, mulfRecord]
  congr 2
  refine sysrec_congr ?_ _
  have hpow : (2 : Int) ^ (2 * words n * s.cfg.W) = 2 ^ bitLen s.cfg n * 2 ^ bitLen s.cfg n := by
    rw [double_words_mul, two_mul, pow_add]
  rw [hpow, valueOf_sys_eq_sub hwa ha, valueOf_sys_eq_sub hwb hb, doublet_correction, hprod]
  push_cast
  rfl

end Sys2Proof.Machine
end


section
/-! PROOFS. The word shifter (44_shift.md R165). A pattern is given by its Words (`SpellsPattern`); the datapath's Words
spell the shifted pattern, and a list of Words that spells a result is the record of that result. -/

namespace Sys2Proof.Machine

variable {c : Config} {s : State} {t : Ty} {r v : Reg} {sgn : Bool} {n : Size} {f g : Nat → Nat} {a x : Int} {m d : Nat}

/-! ### Records from lists of Words -/

/-- A list of `N` Words that is congruent to the integer is its systems record. -/
theorem res_sys_of_words {body : List Nat} (e : Bool) (hlt : ∀ w ∈ body, w < c.B) (hlen : body.length = words n)
    (hval : (natOf c.B body : Int) = x % 2 ^ bitLen c n) :
    res c (.sys sgn n) x e = .ok { body := body, app := false, err := e } :=
  res_eq_of_holds (r := { body := body, app := false, err := e }) ⟨hlt, hlen, rfl, hval⟩

/-- Words and an appendix that stand for the integer, normalised, are its arbitrary record, or the integer does not
fit. -/
theorem normalised_eq_res {body : List Nat} {app : Bool} (sgn e : Bool) (hlt : ∀ w ∈ body, w < c.B)
    (hval : (natOf c.B body : Int) - (if app then (c.B : Int) ^ body.length else 0) = x) :
    normalised c body app e = res c (.arb sgn) x e := by
  obtain ⟨_, -, hnormal⟩ := trimTop_spec (extWord c app) body
  have hwords : ∀ w ∈ trimTop (extWord c app) body, w < c.B := fun w hw => hlt w (mem_of_mem_trimTop hw)
  have hkept := natOf_trimTop c app body
  rw [hval] at hkept
  rw [normalised]
  split
  case isFalse hle =>
    exact (res_eq_of_holds (t := .arb sgn) (r := { body := trimTop (extWord c app) body, app := app, err := e })
      ⟨hwords, not_lt.1 hle, hnormal, hkept⟩).symm
  case isTrue hgt =>
    refine (res_error e fun hc => ?_).symm
    obtain ⟨r', -, ⟨hwords', hcap, hnormal', hval'⟩, -⟩ := res_ok e hc
    obtain ⟨hbody, -⟩ := arb_unique (r := { body := trimTop (extWord c app) body, app := app, err := e }) hwords
      hwords' hnormal hnormal' (hkept.trans hval'.symm)
    rw [Reg.len, ← hbody] at hcap
    exact absurd hgt (not_lt.2 hcap)

/-! ### Patterns given by their Words -/

/-- `f k` is Word `k` of the two's-complement pattern of `a`. -/
structure SpellsPattern (c : Config) (f : Nat → Nat) (a : Int) : Prop where
  lt : ∀ k, f k < c.B
  bit : ∀ k j, j < c.W → (f k).testBit j = a.testBit (c.W * k + j)

theorem SpellsPattern.bit_of_eq (h : SpellsPattern c f a) {k j i : Nat} (hj : j < c.W) (hi : c.W * k + j = i) :
    (f k).testBit j = a.testBit i := hi ▸ h.bit k j hj

/-- The first `m` Words of a pattern. -/
theorem SpellsPattern.natOf_range (h : SpellsPattern c f a) (m : Nat) :
    (natOf c.B ((List.range m).map f) : Int) = a % (c.B : Int) ^ m := by
  have hW : 0 < c.W := by have := c.W_pos; omega
  have hlt : ∀ w ∈ (List.range m).map f, w < c.B := by
    intro w hw
    obtain ⟨k, -, rfl⟩ := List.mem_map.1 hw
    exact h.lt k
  have hbound : natOf c.B ((List.range m).map f) < 2 ^ (m * c.W) := by
    simpa [c.B_pow] using natOf_lt hlt
  have hpos : (0 : Int) < 2 ^ (m * c.W) := by positivity
  have hnonneg := Int.emod_nonneg a hpos.ne'
  rw [c.B_pow_int]
  refine int_eq_of_testBit fun i => ?_
  rw [int_testBit_natCast]
  obtain hi | hi := lt_or_ge i (m * c.W)
  · have hk : i / c.W < m := (Nat.div_lt_iff_lt_mul hW).2 hi
    rw [int_testBit_emod a hi, natOf_testBit c hlt]
    have hget : ((List.range m).map f).getD (i / c.W) 0 = f (i / c.W) := by simp [List.getD, hk]
    rw [hget, h.bit_of_eq (Nat.mod_lt _ hW) (Nat.div_add_mod i c.W)]
  · rw [Nat.testBit_lt_two_pow (hbound.trans_le (Nat.pow_le_pow_right (by decide) hi)),
      int_testBit_of_lt (by linarith) (Int.emod_lt_of_pos a hpos) hi]
    exact (decide_eq_false (not_lt.2 hnonneg)).symm

/-- The Words of a register under a type spell the pattern of its integer. -/
theorem typedWord_spells (hw : r.wf c) (h : readable t r) : SpellsPattern c (typedWord c t r) (valueOf c t r) where
  lt k := by
    rw [typedWord]
    by_cases hk : k < r.body.length
    · rw [List.getD_eq_getElem _ _ hk]
      exact hw.2 _ (List.getElem_mem hk)
    · rw [List.getD_eq_default _ _ (not_lt.1 hk)]
      exact extWord_lt c _
  bit k j hj := by
    have hW : 0 < c.W := by omega
    have hdiv : (c.W * k + j) / c.W = k := by rw [Nat.mul_add_div hW, Nat.div_eq_of_lt hj, Nat.add_zero]
    have hmod : (c.W * k + j) % c.W = j := by rw [Nat.mul_add_mod, Nat.mod_eq_of_lt hj]
    change _ = patternBit c t r (c.W * k + j)
    rw [← effBitOf_eq hw h]
    cases t with
    | arb sgn =>
      rw [effBitOf, hdiv, hmod]
      rfl
    | sys sgn n =>
      have hlen : r.body.length = words n := h
      rw [effBitOf, bitLen, typedWord]
      by_cases hk : k < words n
      · have hlt : c.W * k + j < words n * c.W := by
          have := Nat.mul_le_mul_left c.W (Nat.succ_le_of_lt hk)
          rw [Nat.mul_succ, Nat.mul_comm c.W (words n)] at this
          omega
        rw [if_pos hlt, Reg.nat, natOf_testBit c hw.2, hdiv, hmod, List.getD_eq_getElem _ _ (hlen ▸ hk),
          List.getD_eq_getElem _ _ (hlen ▸ hk)]
      · have hge : ¬c.W * k + j < words n * c.W := by
          have := Nat.mul_le_mul_left c.W (not_lt.1 hk)
          rw [Nat.mul_comm c.W (words n)] at this
          omega
        rw [if_neg hge, List.getD_eq_default _ _ (hlen ▸ not_lt.1 hk), extWord_testBit c _ hj]

/-! ### Shifted patterns -/

theorem int_testBit_mul_pow (a : Int) (d i : Nat) :
    (a * 2 ^ d).testBit i = if i < d then false else a.testBit (i - d) := by
  split
  case isTrue hi =>
    have hpow : (2 : Int) ^ d = 2 * 2 ^ (d - i - 1) * 2 ^ i := by
      rw [← pow_succ', ← pow_add]
      congr 1
      omega
    rw [int_testBit_eq, hpow, ← mul_assoc, Int.mul_ediv_cancel _ (by positivity), ← mul_assoc, mul_comm a 2, mul_assoc,
      Int.mul_emod_right]
    rfl
  case isFalse hi =>
    have h := int_testBit_ediv (a * 2 ^ d) d (i - d)
    rw [Int.mul_ediv_cancel _ (by positivity), Nat.sub_add_cancel (not_lt.1 hi)] at h
    exact h.symm

/-- Two fields side by side, cut to a Word. -/
theorem fields_testBit {lo hi k j : Nat} (hlo : lo < 2 ^ k) (hj : j < c.W) :
    ((hi * 2 ^ k + lo) % c.B).testBit j = if j < k then lo.testBit j else hi.testBit (j - k) := by
  rw [Config.B, Nat.testBit_mod_two_pow, Nat.mul_comm hi, Nat.testBit_two_pow_mul_add _ hlo]
  simp [hj]

theorem div_pow_lt {u k : Nat} (hu : u < c.B) (hk : k ≤ c.W) : u / 2 ^ (c.W - k) < 2 ^ k := by
  rw [Nat.div_lt_iff_lt_mul (by positivity), ← pow_add, Nat.add_sub_cancel' hk]
  exact hu

/-- The Words of the up-shifter spell the pattern shifted up. -/
theorem upWord_spells (h : SpellsPattern c f a) (d : Nat) :
    SpellsPattern c (upWord c f (d / c.W) (d % c.W)) (a * 2 ^ d) where
  lt k := Nat.mod_lt _ c.B_pos
  bit k j hj := by
    have hdb : d % c.W < c.W := Nat.mod_lt _ (by omega)
    have hd := Nat.div_add_mod d c.W
    generalize d / c.W = dw at hd ⊢
    generalize d % c.W = db at hd hdb ⊢
    have hlo : (if k < dw + 1 then 0 else f (k - dw - 1)) / 2 ^ (c.W - db) < 2 ^ db := by
      refine div_pow_lt ?_ hdb.le
      split
      · exact c.B_pos
      · exact h.lt _
    rw [upWord, fields_testBit hlo hj, int_testBit_mul_pow]
    by_cases hjd : j < db
    · rw [if_pos hjd, Nat.testBit_div_two_pow]
      by_cases hk : k < dw + 1
      · have hlow : c.W * k + j < d := by
          have := Nat.mul_le_mul_left c.W (Nat.le_of_lt_succ hk)
          omega
        simp [hk, hlow]
      · obtain ⟨k', rfl⟩ : ∃ k', k = dw + 1 + k' := ⟨k - (dw + 1), by omega⟩
        have hsplit : c.W * (dw + 1 + k') = c.W * dw + c.W + c.W * k' := by ring
        rw [if_neg hk, if_neg (by omega), show dw + 1 + k' - dw - 1 = k' by omega]
        exact h.bit_of_eq (by omega) (by omega)
    · rw [if_neg hjd]
      by_cases hk : k < dw
      · have hlow : c.W * k + j < d := by
          have := Nat.mul_le_mul_left c.W (Nat.succ_le_of_lt hk)
          rw [Nat.mul_succ] at this
          omega
        simp [hk, hlow]
      · obtain ⟨k', rfl⟩ : ∃ k', k = dw + k' := ⟨k - dw, by omega⟩
        have hsplit : c.W * (dw + k') = c.W * dw + c.W * k' := by ring
        rw [if_neg hk, if_neg (by omega), Nat.add_sub_cancel_left]
        exact h.bit_of_eq (by omega) (by omega)

/-- The Words of the down-shifter spell the pattern shifted down. -/
theorem downWord_spells (h : SpellsPattern c f a) (d : Nat) :
    SpellsPattern c (downWord c f (d / c.W) (d % c.W)) (a / 2 ^ d) where
  lt k := Nat.mod_lt _ c.B_pos
  bit k j hj := by
    have hdb : d % c.W < c.W := Nat.mod_lt _ (by omega)
    have hd := Nat.div_add_mod d c.W
    generalize d / c.W = dw at hd ⊢
    generalize d % c.W = db at hd hdb ⊢
    have hlo : f (k + dw) / 2 ^ db < 2 ^ (c.W - db) := by
      have := div_pow_lt (h.lt (k + dw)) (Nat.sub_le c.W db)
      rwa [Nat.sub_sub_self hdb.le] at this
    have hsplit : c.W * (k + dw) = c.W * k + c.W * dw := by ring
    have hsplit' : c.W * (k + dw + 1) = c.W * k + c.W * dw + c.W := by ring
    rw [downWord, Nat.add_comm, fields_testBit hlo hj, int_testBit_ediv]
    split
    · rw [Nat.testBit_div_two_pow]
      exact h.bit_of_eq (by omega) (by omega)
    · exact h.bit_of_eq (by omega) (by omega)

/-! ### The shifter's records -/

/-- The first `N` Words of a pattern are the systems record. -/
theorem SpellsPattern.res_sys (h : SpellsPattern c f a) (e : Bool) :
    res c (.sys sgn n) a e = .ok { body := (List.range (words n)).map f, app := false, err := e } := by
  refine res_sys_of_words e ?_ (by simp) ?_
  · intro w hw
    obtain ⟨k, -, rfl⟩ := List.mem_map.1 hw
    exact h.lt k
  · rw [h.natOf_range, c.B_pow_int]
    rfl

/-- Enough Words of a pattern, with the sign as the appendix, normalise to the arbitrary record. -/
theorem SpellsPattern.normalised_eq (h : SpellsPattern c f a) {app : Bool} (sgn e : Bool) (happ : app = true ↔ a < 0)
    (hlo : -((c.B : Int) ^ m) ≤ a) (hhi : a < (c.B : Int) ^ m) :
    normalised c ((List.range m).map f) app e = res c (.arb sgn) a e := by
  refine normalised_eq_res sgn e ?_ ?_
  · intro w hw
    obtain ⟨k, -, rfl⟩ := List.mem_map.1 hw
    exact h.lt k
  · rw [h.natOf_range, emod_pow_of_fits hlo hhi, List.length_map, List.length_range]
    simp only [happ]
    split <;> ring

theorem valueOf_arb_bounds (hw : r.wf c) (sgn : Bool) :
    -(2 ^ (r.len * c.W)) ≤ valueOf c (.arb sgn) r ∧ valueOf c (.arb sgn) r < 2 ^ (r.len * c.W) := by
  have hlt := nat_lt_pow hw
  rw [c.B_pow_int] at hlt
  have hpos : (0 : Int) < 2 ^ (r.len * c.W) := by positivity
  rw [valueOf_arb, Reg.int, c.B_pow_int]
  split <;> exact ⟨by omega, by omega⟩

theorem mul_pow_neg_iff (a : Int) (d : Nat) : a * 2 ^ d < 0 ↔ a < 0 :=
  ⟨fun h => neg_of_mul_neg_left h (by positivity), fun h => mul_neg_of_neg_of_pos h (by positivity)⟩

theorem ediv_pow_neg_iff (a : Int) (d : Nat) : a / 2 ^ d < 0 ↔ a < 0 := by
  rw [← not_iff_not, not_lt, not_lt]
  exact Int.ediv_nonneg_iff_of_pos (by positivity)

/-- Dividing by at least `2^k` takes `k` bits off the bounds. -/
theorem ediv_pow_bounds {l k : Nat} (hlo : -(2 ^ l) ≤ a) (hhi : a < 2 ^ l) (hk : k ≤ d) :
    -(2 ^ (l - k)) ≤ a / 2 ^ d ∧ a / 2 ^ d < 2 ^ (l - k) := by
  obtain hkl | hkl := le_total l d
  · rw [ediv_pow_of_inDomain hlo hhi hkl]
    have hp : (0 : Int) < 2 ^ (l - k) := by positivity
    split <;> constructor <;> omega
  · have hpow : (2 : Int) ^ l = 2 ^ (l - d) * 2 ^ d := by rw [← pow_add, Nat.sub_add_cancel hkl]
    have hle : (2 : Int) ^ (l - d) ≤ 2 ^ (l - k) := pow_le_pow_right₀ (by norm_num) (by omega)
    have h1 : -(2 ^ (l - d)) ≤ a / 2 ^ d := by
      rw [Int.le_ediv_iff_mul_le (by positivity)]
      linarith
    have h2 : a / 2 ^ d < 2 ^ (l - d) := by
      rw [Int.ediv_lt_iff_lt_mul (by positivity)]
      linarith
    exact ⟨by linarith, by linarith⟩

theorem shiftUpRecord_eq_res (hw : r.wf c) (h : readable t r) (d : Nat) (e : Bool) :
    shiftUpRecord c t r d e = res c t (valueOf c t r * 2 ^ d) e := by
  have hspell := upWord_spells (typedWord_spells hw h) d
  cases t with
  | sys sgn n => exact hspell.res_sys e |>.symm
  | arb sgn =>
    obtain ⟨hlo, hhi⟩ := bounds_mul_two_pow (d := d) rfl (valueOf_arb_bounds hw sgn)
    have hdvd := Nat.div_add_mod d c.W
    have hmod : d % c.W < c.W := Nat.mod_lt _ (by have := c.W_pos; omega)
    have hle : (2 : Int) ^ (r.len * c.W + d) ≤ (c.B : Int) ^ (r.len + d / c.W + 1) := by
      rw [c.B_pow_int]
      refine pow_le_pow_right₀ (by norm_num) ?_
      have : (r.len + d / c.W + 1) * c.W = r.len * c.W + c.W * (d / c.W) + c.W := by ring
      omega
    exact hspell.normalised_eq sgn e (by rw [mul_pow_neg_iff, valueOf_arb_neg_iff hw]) (by linarith) (by linarith)

theorem shiftDownRecord_eq_res (hw : r.wf c) (h : readable t r) (d : Nat) (e : Bool) :
    shiftDownRecord c t r d e = res c t (valueOf c t r / 2 ^ d) e := by
  have hspell := downWord_spells (typedWord_spells hw h) d
  cases t with
  | sys sgn n => exact hspell.res_sys e |>.symm
  | arb sgn =>
    obtain ⟨hlo, hhi⟩ := valueOf_arb_bounds hw sgn
    obtain ⟨hlo', hhi'⟩ := ediv_pow_bounds hlo hhi (Nat.div_mul_le_self d c.W)
    rw [← Nat.sub_mul, ← c.B_pow_int] at hlo' hhi'
    exact hspell.normalised_eq sgn e (by rw [ediv_pow_neg_iff, valueOf_arb_neg_iff hw]) hlo' hhi'

/-- Settles O44. -/
theorem wordShifterIsShlAndShr : Obligations.WordShifterIsShlAndShr := by
  intro s t rd ra rb hs ha hb _
  have hw := hs.2.1 ra
  have hdown := shiftDown_finite (c := s.cfg) (t := t) (valueOf s.cfg t (s.reg ra)) (distance s.cfg (s.reg rb))
    (by rintro sgn n rfl; exact valueOf_sys_inDomain hw ha)
  rw [shiftUpRecord_eq_res hw ha, shiftDownRecord_eq_res hw ha]
  constructor
  · cases hres : res s.cfg t (valueOf s.cfg t (s.reg ra) * 2 ^ distance s.cfg (s.reg rb))
        ((s.reg ra).err || (s.reg rb).err) with
    | ok v => exact shl_next_of_res hs.1 hw ha hb hres
    | error k =>
      refine command_error hs.1 ?_
      simp only [opnd_ok hw ha, bind_ok, rdCount_finite hb, shiftUp_finite, hres, bind_error]
  · cases hres : res s.cfg t (valueOf s.cfg t (s.reg ra) / 2 ^ distance s.cfg (s.reg rb))
        ((s.reg ra).err || (s.reg rb).err) with
    | ok v => exact shr_next_of_res hs.1 hw ha hb hres
    | error k =>
      refine command_error hs.1 ?_
      simp only [opnd_ok hw ha, bind_ok, rdCount_finite hb, hdown, hres, bind_error]

end Sys2Proof.Machine
end


section
/-! PROOFS. The ripple adder (42_adder.md R142): the sum of Words with its carry, and the flag that the carry or the top
bits give. -/

namespace Sys2Proof.Machine

variable {c : Config} {s : State} {t : Ty} {r r' v : Reg} {sgn sub : Bool} {n : Size} {rd ra rb : RegNum} {a b : Int}

/-! ### The sum of Words -/

/-- The Words of a ripple and its carry are the sum of the numbers and the carry in. -/
theorem ripple_spec {b : Nat} (hb : 0 < b) : ∀ {xs ys : List Nat} {carry : Nat}, xs.length = ys.length →
    (∀ x ∈ xs, x < b) → (∀ y ∈ ys, y < b) → carry ≤ 1 →
    (ripple b xs ys carry).1.length = xs.length ∧ (∀ w ∈ (ripple b xs ys carry).1, w < b) ∧
      (ripple b xs ys carry).2 ≤ 1 ∧
      natOf b (ripple b xs ys carry).1 + b ^ xs.length * (ripple b xs ys carry).2 =
        natOf b xs + natOf b ys + carry
  | [], [], carry, _, _, _, hcarry => by simpa [ripple] using hcarry
  | x :: xs, y :: ys, carry, hlen, hxs, hys, hcarry => by
    obtain ⟨hx, hxs⟩ := List.forall_mem_cons.1 hxs
    obtain ⟨hy, hys⟩ := List.forall_mem_cons.1 hys
    have hcarry' : (x + y + carry) / b ≤ 1 := Nat.le_of_lt_succ (Nat.div_lt_of_lt_mul (by omega))
    obtain ⟨hl, hlt, hc, hval⟩ := ripple_spec hb (by simpa using hlen) hxs hys hcarry'
    rw [ripple]
    refine ⟨by simp [hl], List.forall_mem_cons.2 ⟨Nat.mod_lt _ hb, hlt⟩, hc, ?_⟩
    have hdigit := Nat.mod_add_div (x + y + carry) b
    calc (x + y + carry) % b + b * natOf b (ripple b xs ys ((x + y + carry) / b)).1 +
          b ^ (x :: xs).length * (ripple b xs ys ((x + y + carry) / b)).2
        = (x + y + carry) % b + b * (natOf b (ripple b xs ys ((x + y + carry) / b)).1 +
            b ^ xs.length * (ripple b xs ys ((x + y + carry) / b)).2) := by
          rw [List.length_cons, pow_succ]
          ring
      _ = (x + y + carry) % b + b * (natOf b xs + natOf b ys + (x + y + carry) / b) := by rw [hval]
      _ = (x + b * natOf b xs) + (y + b * natOf b ys) + carry := by linarith

/-- The Words that the adder adds as its second operand. -/
def secondWords (b : Nat) (sub : Bool) (ws : List Nat) : List Nat := if sub then toggleWords b ws else ws

theorem toggleWords_lt {b : Nat} {ws : List Nat} (hb : 0 < b) : ∀ w ∈ toggleWords b ws, w < b := by
  intro w hw
  obtain ⟨x, -, rfl⟩ := List.mem_map.1 hw
  omega

/-- Toggling every Word takes the number to what is left of all ones. -/
theorem natOf_toggleWords {b : Nat} : ∀ {ws : List Nat}, (∀ w ∈ ws, w < b) →
    natOf b (toggleWords b ws) + natOf b ws + 1 = b ^ ws.length
  | [], _ => rfl
  | w :: ws, h => by
    obtain ⟨hw, hws⟩ := List.forall_mem_cons.1 h
    have ih := natOf_toggleWords hws
    have hsum : b - 1 - w + w + 1 = b := by omega
    calc b - 1 - w + b * natOf b (toggleWords b ws) + (w + b * natOf b ws) + 1
        = (b - 1 - w + w + 1) + b * (natOf b (toggleWords b ws) + natOf b ws) := by ring
      _ = b * (natOf b (toggleWords b ws) + natOf b ws + 1) := by rw [hsum]; ring
      _ = b ^ (w :: ws).length := by rw [ih, List.length_cons, pow_succ']

theorem secondWords_length (b : Nat) (sub : Bool) (ws : List Nat) : (secondWords b sub ws).length = ws.length := by
  cases sub <;> simp [secondWords, toggleWords]

theorem secondWords_lt {b : Nat} {ws : List Nat} (hb : 0 < b) (h : ∀ w ∈ ws, w < b) :
    ∀ w ∈ secondWords b sub ws, w < b := by
  cases sub with
  | false => exact h
  | true => exact toggleWords_lt hb

/-- The second operand's number: the number itself, or what is left of all ones. -/
theorem natOf_secondWords {b : Nat} {ws : List Nat} (h : ∀ w ∈ ws, w < b) :
    (natOf b (secondWords b sub ws) : Int) =
      if sub then (b : Int) ^ ws.length - 1 - natOf b ws else (natOf b ws : Int) := by
  cases sub with
  | false => rfl
  | true =>
    have h := natOf_toggleWords h
    have h' : (natOf b (toggleWords b ws) : Int) + natOf b ws + 1 = (b : Int) ^ ws.length := by exact_mod_cast h
    simp only [secondWords, if_true]
    omega

/-! ### Sum and difference -/

/-- What the adder computes. -/
def sumOf (sub : Bool) (a b : Int) : Int := if sub then a - b else a + b

/-- The Words and the carry that the adder forms of two bodies. -/
def adderSum (c : Config) (sub : Bool) (xs ys : List Nat) : List Nat × Nat :=
  ripple c.B xs (secondWords c.B sub ys) sub.toNat

section
variable {xs ys : List Nat} (hlen : xs.length = ys.length) (hx : ∀ w ∈ xs, w < c.B) (hy : ∀ w ∈ ys, w < c.B)
include hlen hx hy

theorem adderSum_spec (sub : Bool) :
    (adderSum c sub xs ys).1.length = xs.length ∧ (∀ w ∈ (adderSum c sub xs ys).1, w < c.B) ∧
      (adderSum c sub xs ys).2 ≤ 1 ∧
      natOf c.B (adderSum c sub xs ys).1 + c.B ^ xs.length * (adderSum c sub xs ys).2 =
        natOf c.B xs + natOf c.B (secondWords c.B sub ys) + sub.toNat :=
  ripple_spec c.B_pos (hlen.trans (secondWords_length c.B sub ys).symm) hx (secondWords_lt c.B_pos hy)
    (by cases sub <;> decide)

/-- The sum with its carry is the true result; a difference is formed above it by one more power. -/
theorem adderSum_value (sub : Bool) :
    (natOf c.B (adderSum c sub xs ys).1 : Int) + (c.B : Int) ^ xs.length * (adderSum c sub xs ys).2 =
      sumOf sub (natOf c.B xs) (natOf c.B ys) + if sub then (c.B : Int) ^ xs.length else 0 := by
  obtain ⟨-, -, -, hval⟩ := adderSum_spec hlen hx hy sub
  have hval' : (natOf c.B (adderSum c sub xs ys).1 : Int) + (c.B : Int) ^ xs.length * (adderSum c sub xs ys).2 =
      natOf c.B xs + natOf c.B (secondWords c.B sub ys) + sub.toNat := by exact_mod_cast hval
  rw [hval', natOf_secondWords hy, hlen]
  cases sub with
  | false => simp [sumOf]
  | true =>
    simp only [sumOf, if_true, Bool.toNat_true]
    omega

end

/-- A number below `p` that differs from an integer by a multiple of `p`. -/
theorem eq_emod_of_add_mul {p y z k : Int} (h0 : 0 ≤ y) (h1 : y < p) (h : y + p * k = z) : y = z % p := by
  rw [← h, Int.add_mul_emod_self_left, Int.emod_eq_of_lt h0 h1]

/-- The sum's number is that of the true result, modulo the power that its Words make. -/
theorem adderSum_emod {xs ys : List Nat} (hlen : xs.length = ys.length) (hx : ∀ w ∈ xs, w < c.B)
    (hy : ∀ w ∈ ys, w < c.B) (sub : Bool) :
    (natOf c.B (adderSum c sub xs ys).1 : Int) =
      sumOf sub (natOf c.B xs) (natOf c.B ys) % (c.B : Int) ^ xs.length := by
  obtain ⟨hl, hlt, -, -⟩ := adderSum_spec hlen hx hy sub
  have hval := adderSum_value hlen hx hy sub
  have hbound := natOf_lt hlt
  rw [hl] at hbound
  cases sub with
  | false => exact eq_emod_of_add_mul (Int.natCast_nonneg _) (by exact_mod_cast hbound) (by simpa using hval)
  | true =>
    refine eq_emod_of_add_mul (k := (adderSum c true xs ys).2 - 1) (Int.natCast_nonneg _) (by exact_mod_cast hbound) ?_
    simp only [if_true] at hval
    linarith

/-! ### Systems types -/

theorem topBit_words_eq_decide {ws : List Nat} (hlt : ∀ w ∈ ws, w < c.B) (hne : ws ≠ []) :
    topBit c ws = decide (2 ^ (ws.length * c.W - 1) ≤ natOf c.B ws) := by
  have hpos : 0 < ws.length * c.W := Nat.mul_pos (List.length_pos_iff.2 hne) (by have := c.W_pos; omega)
  rw [topBit_eq_testBit hlt hne, testBit_top hpos (by rw [← c.B_pow]; exact natOf_lt hlt)]

theorem topBit_of_length {ws : List Nat} (hlt : ∀ w ∈ ws, w < c.B) (hl : ws.length = words n) :
    topBit c ws = decide (2 ^ (bitLen c n - 1) ≤ natOf c.B ws) := by
  have hne : ws ≠ [] := List.length_pos_iff.1 (hl ▸ words_pos n)
  rw [topBit_words_eq_decide hlt hne, hl]
  rfl

/-- The adder's own flag for a systems type, from the top bits or the carry. -/
def rippleOwn (c : Config) (sgn sub : Bool) (xs ys : List Nat) : Bool :=
  if sgn then
    topBit c xs == topBit c (secondWords c.B sub ys) && topBit c (adderSum c sub xs ys).1 != topBit c xs
  else if sub then decide ((adderSum c sub xs ys).2 = 0)
  else decide ((adderSum c sub xs ys).2 = 1)

theorem rippleRecord_sys (c : Config) (sgn : Bool) (n : Size) (sub : Bool) (r r' : Reg) :
    rippleRecord c (.sys sgn n) sub r r' =
      .ok { body := (adderSum c sub r.body r'.body).1, app := false,
            err := r.err || r'.err || rippleOwn c sgn sub r.body r'.body } := rfl

/-- The carry out of an unsigned sum, or the missing carry of a difference, says that the result is outside the
domain. -/
theorem unsigned_overflow_iff {p u w x k : Nat} (hx : x < p) (hk : k ≤ 1)
    (hsum : (x : Int) + p * k = sumOf sub u w + if sub then (p : Int) else 0) :
    (if sub then decide (k = 0) else decide (k = 1)) = false ↔ 0 ≤ sumOf sub u w ∧ sumOf sub u w < p := by
  obtain rfl | rfl : k = 0 ∨ k = 1 := by omega
  all_goals
    cases sub <;> simp [sumOf] at hsum ⊢ <;> omega

theorem bool_eq_of_false_iff {x y : Bool} {p : Prop} (hx : x = false ↔ p) (hy : y = false ↔ p) : x = y := by
  rw [← Bool.not_inj_iff, Bool.eq_iff_iff, Bool.not_eq_true', Bool.not_eq_true']
  exact hx.trans hy.symm

/-- The value of an addend of `2h` patterns. -/
def signedValue (h : Nat) (u : Nat) : Int := if h ≤ u then (u : Int) - 2 * h else u

/-- The signed sum of two addends with a carry in leaves the domain exactly when their top bits are equal and the sum's
top bit is not. -/
theorem signed_overflow_iff {h u w x k i : Nat} (hu : u < 2 * h) (hw : w < 2 * h) (hx : x < 2 * h) (hk : k ≤ 1)
    (hi : i ≤ 1) (hsum : x + 2 * h * k = u + w + i) :
    ((decide (h ≤ u) == decide (h ≤ w)) && decide (h ≤ x) != decide (h ≤ u)) = false ↔
      -(h : Int) ≤ signedValue h u + signedValue h w + i ∧ signedValue h u + signedValue h w + i < h := by
  have htop : ((decide (h ≤ u) == decide (h ≤ w)) && decide (h ≤ x) != decide (h ≤ u)) = false ↔
      ((h ≤ u ↔ h ≤ w) → (h ≤ x ↔ h ≤ u)) := by
    by_cases h1 : h ≤ u <;> by_cases h2 : h ≤ w <;> by_cases h3 : h ≤ x <;> simp [h1, h2, h3]
  rw [htop, signedValue, signedValue]
  obtain rfl | rfl : k = 0 ∨ k = 1 := by omega
  · split <;> split <;> omega
  · split <;> split <;> omega

theorem two_pow_bitLen (c : Config) (n : Size) : 2 ^ bitLen c n = 2 * 2 ^ (bitLen c n - 1) := by
  rw [← pow_succ', Nat.sub_add_cancel (by have := bitLen_pos c n; omega)]

theorem valueOf_signed_eq (c : Config) (n : Size) (r : Reg) :
    valueOf c (.sys true n) r = signedValue (2 ^ (bitLen c n - 1)) (r.nat c) := by
  have hpow : (2 : Int) ^ bitLen c n = 2 * 2 ^ (bitLen c n - 1) := by exact_mod_cast two_pow_bitLen c n
  rw [valueOf, signedValue, hpow]
  push_cast
  rfl

/-- Toggling every bit takes a signed value `b` to `-b - 1`; with the carry in, the adder adds `-b`. -/
theorem signedValue_second (sub : Bool) {h w w2 : Nat} (hw : w < 2 * h)
    (h2 : (w2 : Int) = if sub then 2 * (h : Int) - 1 - w else w) (u : Nat) :
    signedValue h u + signedValue h w2 + (sub.toNat : Nat) = sumOf sub (signedValue h u) (signedValue h w) := by
  cases sub with
  | false =>
    obtain rfl : w2 = w := by simpa using h2
    simp [sumOf]
  | true =>
    simp only [if_true] at h2
    simp only [signedValue, sumOf, Bool.toNat_true, if_true]
    split <;> split <;> split <;> omega

section
variable (hw : r.wf c) (hw' : r'.wf c) (hl : r.len = words n) (hl' : r'.len = words n)
include hw hw' hl hl'

/-- The carry says whether an unsigned result is outside the type. -/
theorem rippleOwn_unsigned (sub : Bool) :
    rippleOwn c false sub r.body r'.body =
      overflows c (.sys false n) (sumOf sub (valueOf c (.sys false n) r) (valueOf c (.sys false n) r')) := by
  have hlen : r.body.length = r'.body.length := hl.trans hl'.symm
  have hpow : c.B ^ r.body.length = 2 ^ bitLen c n := by rw [c.B_pow, ← Reg.len, hl]; rfl
  obtain ⟨hsl, hslt, hcarry, -⟩ := adderSum_spec hlen hw.2 hw'.2 sub
  have hval := adderSum_value hlen hw.2 hw'.2 sub
  have hlt := natOf_lt hslt
  rw [hsl, hpow] at hlt
  have hown := unsigned_overflow_iff (sub := sub) hlt hcarry (by rw [← hpow]; exact_mod_cast hval)
  exact bool_eq_of_false_iff hown (by rw [overflows_eq_false, inDomain]; exact_mod_cast Iff.rfl)

/-- The top bits say whether a signed result is outside the type. -/
theorem rippleOwn_signed (sub : Bool) :
    rippleOwn c true sub r.body r'.body =
      overflows c (.sys true n) (sumOf sub (valueOf c (.sys true n) r) (valueOf c (.sys true n) r')) := by
  have hlen : r.body.length = r'.body.length := hl.trans hl'.symm
  have hpow (m : Nat) (hm : m = words n) : c.B ^ m = 2 * 2 ^ (bitLen c n - 1) := by
    rw [hm, c.B_pow, ← two_pow_bitLen]
    rfl
  have hl₁ : r.body.length = words n := hl
  have hl₂ : r'.body.length = words n := hl'
  have hslen2 := (secondWords_length c.B sub r'.body).trans hl'
  have hslt2 := secondWords_lt (sub := sub) c.B_pos hw'.2
  obtain ⟨hsl, hslt, hcarry, hsum⟩ := adderSum_spec hlen hw.2 hw'.2 sub
  rw [hpow _ hl₁] at hsum
  have hlt := natOf_lt hslt
  rw [hpow _ (hsl.trans hl₁)] at hlt
  have hlt2 := natOf_lt hslt2
  rw [hpow _ hslen2] at hlt2
  have hu := Reg.nat_lt_bitLen hw hl
  have hu' := Reg.nat_lt_bitLen hw' hl'
  rw [two_pow_bitLen] at hu hu'
  have hsecond := natOf_secondWords (sub := sub) hw'.2
  rw [show (c.B : Int) ^ r'.body.length = 2 * (2 ^ (bitLen c n - 1) : Nat) by exact_mod_cast hpow _ hl₂] at hsecond
  have hsum2 := signedValue_second sub hu' hsecond (r.nat c)
  have hown := signed_overflow_iff hu hlt2 hlt hcarry (by cases sub <;> decide) hsum
  rw [hsum2, ← valueOf_signed_eq, ← valueOf_signed_eq] at hown
  rw [rippleOwn, if_pos rfl, topBit_of_length hw.2 hl, topBit_of_length hslt2 hslen2,
    topBit_of_length hslt (hsl.trans hl)]
  exact bool_eq_of_false_iff hown (by rw [overflows_eq_false, inDomain]; push_cast; exact Iff.rfl)

/-- For a systems type the Words of the sum are those of the true result, and the flag says that it is outside the
type. -/
theorem rippleRecord_sys_eq (sgn sub : Bool) :
    rippleRecord c (.sys sgn n) sub r r' =
      res c (.sys sgn n) (sumOf sub (valueOf c (.sys sgn n) r) (valueOf c (.sys sgn n) r'))
        (r.err || r'.err ||
          overflows c (.sys sgn n) (sumOf sub (valueOf c (.sys sgn n) r) (valueOf c (.sys sgn n) r'))) := by
  have hlen : r.body.length = r'.body.length := hl.trans hl'.symm
  obtain ⟨hsl, hslt, -⟩ := adderSum_spec hlen hw.2 hw'.2 sub
  have hown : rippleOwn c sgn sub r.body r'.body =
      overflows c (.sys sgn n) (sumOf sub (valueOf c (.sys sgn n) r) (valueOf c (.sys sgn n) r')) := by
    cases sgn
    · exact rippleOwn_unsigned hw hw' hl hl' sub
    · exact rippleOwn_signed hw hw' hl hl' sub
  have h : valueOf c (.sys sgn n) r ≡ r.nat c [ZMOD 2 ^ bitLen c n] := valueOf_sys_mod c sgn n r
  have h' : valueOf c (.sys sgn n) r' ≡ r'.nat c [ZMOD 2 ^ bitLen c n] := valueOf_sys_mod c sgn n r'
  have hmod : sumOf sub (valueOf c (.sys sgn n) r) (valueOf c (.sys sgn n) r') ≡ sumOf sub (r.nat c) (r'.nat c)
      [ZMOD 2 ^ bitLen c n] := by
    cases sub
    · exact h.add h'
    · exact h.sub h'
  rw [rippleRecord_sys, hown]
  refine (res_sys_of_words _ hslt (hsl.trans hl) ?_).symm
  rw [adderSum_emod hlen hw.2 hw'.2, hmod, c.B_pow_int, ← Reg.len, hl]
  rfl

end

/-! ### Arbitrary types -/

/-- Words enough for both operands and one more. -/
def addendLength (r r' : Reg) : Nat := max r.len r'.len + 1

/-- The sum that the adder forms of two arbitrary operands. -/
def arbSum (c : Config) (sub : Bool) (r r' : Reg) : List Nat × Nat :=
  adderSum c sub (firstWords c r (addendLength r r')) (firstWords c r' (addendLength r r'))

/-- The missing carry of an unsigned difference. -/
def rippleBorrow (c : Config) (sgn sub : Bool) (r r' : Reg) : Bool := !sgn && sub && decide ((arbSum c sub r r').2 = 0)

theorem rippleRecord_arb (c : Config) (sgn sub : Bool) (r r' : Reg) :
    rippleRecord c (.arb sgn) sub r r' =
      normalised c (arbSum c sub r r').1
        (if sgn then topBit c (arbSum c sub r r').1 else rippleBorrow c sgn sub r r')
        (r.err || r'.err || rippleBorrow c sgn sub r r') := rfl

theorem overflows_ux (c : Config) (x : Int) : overflows c (.arb false) x = decide (x < 0) :=
  bool_eq_of_false_iff overflows_eq_false (by simp [inDomain])

theorem firstWords_length (c : Config) (r : Reg) (m : Nat) : (firstWords c r m).length = m := by simp [firstWords]

theorem firstWords_lt (hw : r.wf c) (m : Nat) : ∀ w ∈ firstWords c r m, w < c.B := by
  intro w hmem
  obtain ⟨k, -, rfl⟩ := List.mem_map.1 hmem
  exact word_lt hw.2 k

theorem natOf_firstWords (hw : r.wf c) (sgn : Bool) (m : Nat) :
    (natOf c.B (firstWords c r m) : Int) = valueOf c (.arb sgn) r % (c.B : Int) ^ m :=
  (typedWord_spells (t := .arb sgn) hw trivial).natOf_range m

/-- A quarter of the power that the Words make bounds either operand. -/
theorem valueOf_addend_bounds (hw : r.wf c) (sgn : Bool) {m : Nat} (hm : r.len < m) :
    -((c.B : Int) ^ m) < 4 * valueOf c (.arb sgn) r ∧ 4 * valueOf c (.arb sgn) r < (c.B : Int) ^ m := by
  obtain ⟨hlo, hhi⟩ := valueOf_arb_bounds hw sgn
  rw [← c.B_pow_int] at hlo hhi
  have hpos : (0 : Int) < (c.B : Int) ^ r.len := by have := c.B_pos; positivity
  have hB : (256 : Int) ≤ c.B := by exact_mod_cast c.B_ge
  have hle : (c.B : Int) ^ (r.len + 1) ≤ (c.B : Int) ^ m := pow_le_pow_right₀ (by linarith) hm
  rw [pow_succ] at hle
  have := mul_le_mul_of_nonneg_left hB hpos.le
  exact ⟨by linarith, by linarith⟩

section
variable (hw : r.wf c) (hw' : r'.wf c)
include hw hw'

theorem arbSum_spec (sub : Bool) :
    (arbSum c sub r r').1.length = addendLength r r' ∧ (∀ w ∈ (arbSum c sub r r').1, w < c.B) ∧
      (arbSum c sub r r').2 ≤ 1 := by
  obtain ⟨hl, hlt, hk, -⟩ := adderSum_spec
    ((firstWords_length c r (addendLength r r')).trans (firstWords_length c r' _).symm)
    (firstWords_lt hw _) (firstWords_lt hw' _) sub
  exact ⟨hl.trans (firstWords_length c r _), hlt, hk⟩

/-- The result is less than half of the power that the Words make, so the Words hold its whole pattern. -/
theorem sumOf_bounds (sgn sub : Bool) :
    -((c.B : Int) ^ addendLength r r') < 2 * sumOf sub (valueOf c (.arb sgn) r) (valueOf c (.arb sgn) r') ∧
      2 * sumOf sub (valueOf c (.arb sgn) r) (valueOf c (.arb sgn) r') < (c.B : Int) ^ addendLength r r' := by
  obtain ⟨h1, h2⟩ := valueOf_addend_bounds hw sgn (m := addendLength r r') (Nat.lt_succ_of_le (le_max_left _ _))
  obtain ⟨h3, h4⟩ := valueOf_addend_bounds hw' sgn (m := addendLength r r') (Nat.lt_succ_of_le (le_max_right _ _))
  cases sub <;> simp only [sumOf, if_true, Bool.false_eq_true, if_false] <;> constructor <;> linarith

theorem natOf_arbSum (sgn sub : Bool) :
    (natOf c.B (arbSum c sub r r').1 : Int) =
      sumOf sub (valueOf c (.arb sgn) r) (valueOf c (.arb sgn) r') +
        if sumOf sub (valueOf c (.arb sgn) r) (valueOf c (.arb sgn) r') < 0 then (c.B : Int) ^ addendLength r r' else 0 := by
  have hmod := adderSum_emod ((firstWords_length c r (addendLength r r')).trans (firstWords_length c r' _).symm)
    (firstWords_lt hw _) (firstWords_lt hw' _) sub
  rw [natOf_firstWords hw sgn, natOf_firstWords hw' sgn, firstWords_length] at hmod
  have hcong : sumOf sub (valueOf c (.arb sgn) r % (c.B : Int) ^ addendLength r r')
      (valueOf c (.arb sgn) r' % (c.B : Int) ^ addendLength r r') ≡
      sumOf sub (valueOf c (.arb sgn) r) (valueOf c (.arb sgn) r') [ZMOD (c.B : Int) ^ addendLength r r'] := by
    cases sub
    · exact (Int.mod_modEq _ _).add (Int.mod_modEq _ _)
    · exact (Int.mod_modEq _ _).sub (Int.mod_modEq _ _)
  obtain ⟨hlo, hhi⟩ := sumOf_bounds hw hw' sgn sub
  have hpos : (0 : Int) < (c.B : Int) ^ addendLength r r' := by have := c.B_pos; positivity
  rw [arbSum, hmod, hcong, emod_pow_of_fits (by linarith) (by linarith)]
  split <;> simp

/-- The top bit of the signed sum is the sign of the result. -/
theorem topBit_arbSum (sub : Bool) :
    topBit c (arbSum c sub r r').1 =
      decide (sumOf sub (valueOf c (.arb true) r) (valueOf c (.arb true) r') < 0) := by
  obtain ⟨hl, hlt, -⟩ := arbSum_spec hw hw' sub
  have hval := natOf_arbSum hw hw' true sub
  obtain ⟨hlo, hhi⟩ := sumOf_bounds hw hw' true sub
  have hmW : 0 < addendLength r r' * c.W := Nat.mul_pos (Nat.succ_pos _) (by have := c.W_pos; omega)
  have hhalf : (c.B : Int) ^ addendLength r r' = 2 * (2 ^ (addendLength r r' * c.W - 1) : Nat) := by
    rw [c.B_pow_int]
    push_cast
    rw [← pow_succ', Nat.sub_add_cancel hmW]
  rw [topBit_words_eq_decide hlt (List.length_pos_iff.1 (hl ▸ Nat.succ_pos _)), hl, decide_eq_decide]
  rw [hhalf] at hval hlo hhi
  split at hval <;> omega

/-- For finite unsigned operands the missing carry is the sign of the result. -/
theorem rippleBorrow_eq (sgn sub : Bool) (hfin : sgn = false → 0 ≤ valueOf c (.arb sgn) r ∧ 0 ≤ valueOf c (.arb sgn) r') :
    rippleBorrow c sgn sub r r' =
      overflows c (.arb sgn) (sumOf sub (valueOf c (.arb sgn) r) (valueOf c (.arb sgn) r')) := by
  cases sgn with
  | true => rfl
  | false =>
    obtain ⟨h0, h0'⟩ := hfin rfl
    refine bool_eq_of_false_iff ?_ overflows_eq_false
    cases sub with
    | false => simpa [rippleBorrow, inDomain, sumOf] using add_nonneg h0 h0'
    | true =>
      have hlen := (firstWords_length c r (addendLength r r')).trans (firstWords_length c r' _).symm
      have hval := adderSum_value hlen (firstWords_lt hw _) (firstWords_lt hw' _) true
      obtain ⟨hl, hlt, hk⟩ := arbSum_spec hw hw' true
      have hbound := natOf_lt hlt
      rw [hl] at hbound
      rw [firstWords_length] at hval
      have hown := unsigned_overflow_iff hbound hk (by exact_mod_cast hval)
      obtain ⟨-, h2⟩ := valueOf_addend_bounds hw false (m := addendLength r r') (Nat.lt_succ_of_le (le_max_left _ _))
      obtain ⟨-, h4⟩ := valueOf_addend_bounds hw' false (m := addendLength r r') (Nat.lt_succ_of_le (le_max_right _ _))
      rw [natOf_firstWords hw false, natOf_firstWords hw' false, Int.emod_eq_of_lt h0 (by linarith),
        Int.emod_eq_of_lt h0' (by linarith)] at hown
      refine Iff.trans hown (and_iff_left ?_)
      obtain ⟨-, hhi⟩ := sumOf_bounds hw hw' false true
      push_cast
      linarith

/-- For an arbitrary type the Words of the sum, with the sign as the appendix, normalise to the record of the true
result. -/
theorem rippleRecord_arb_eq (sgn sub : Bool)
    (hfin : sgn = false → 0 ≤ valueOf c (.arb sgn) r ∧ 0 ≤ valueOf c (.arb sgn) r') :
    rippleRecord c (.arb sgn) sub r r' =
      res c (.arb sgn) (sumOf sub (valueOf c (.arb sgn) r) (valueOf c (.arb sgn) r'))
        (r.err || r'.err ||
          overflows c (.arb sgn) (sumOf sub (valueOf c (.arb sgn) r) (valueOf c (.arb sgn) r'))) := by
  obtain ⟨hl, hlt, -⟩ := arbSum_spec hw hw' sub
  have hborrow := rippleBorrow_eq hw hw' sgn sub hfin
  have happ : (if sgn then topBit c (arbSum c sub r r').1 else rippleBorrow c sgn sub r r') =
      decide (sumOf sub (valueOf c (.arb sgn) r) (valueOf c (.arb sgn) r') < 0) := by
    cases sgn with
    | true => exact topBit_arbSum hw hw' sub
    | false => exact hborrow.trans (overflows_ux c _)
  rw [rippleRecord_arb, happ, hborrow]
  refine normalised_eq_res sgn _ hlt ?_
  rw [natOf_arbSum hw hw' sgn, hl]
  simp

end

/-! ### The adder's records -/

theorem binaryFinite_ok (f : Int → Int → Int) (hs : s.ready) (ha : readable t (s.reg ra)) (hb : readable t (s.reg rb))
    (hia : isInfinite t (s.reg ra) = false) (hib : isInfinite t (s.reg rb) = false) :
    binaryFinite f t rd ra rb s = command s (do
      let v ← res s.cfg t (f (valueOf s.cfg t (s.reg ra)) (valueOf s.cfg t (s.reg rb)))
        ((s.reg ra).err || (s.reg rb).err ||
          overflows s.cfg t (f (valueOf s.cfg t (s.reg ra)) (valueOf s.cfg t (s.reg rb))))
      return s.write rd v) := by
  refine command_body_congr ?_
  simp only [opnd_ok (hs.2.1 ra) ha, opnd_ok (hs.2.1 rb) hb, bind_ok, hia, hib, Bool.and_self, Bool.not_false, check_true]

theorem exec_addSub (sub : Bool) :
    exec (if sub then .sub t rd ra rb else .add t rd ra rb) s = binaryFinite (sumOf sub) t rd ra rb s := by
  cases sub <;> rfl

theorem rippleRecord_eq_res (hw : r.wf c) (hw' : r'.wf c) (hr : readable t r) (hr' : readable t r')
    (hi : isInfinite t r = false) (hi' : isInfinite t r' = false) (sub : Bool) :
    rippleRecord c t sub r r' =
      res c t (sumOf sub (valueOf c t r) (valueOf c t r'))
        (r.err || r'.err || overflows c t (sumOf sub (valueOf c t r) (valueOf c t r'))) := by
  cases t with
  | sys sgn n => exact rippleRecord_sys_eq hw hw' hr hr' sgn sub
  | arb sgn =>
    refine rippleRecord_arb_eq hw hw' sgn sub ?_
    rintro rfl
    exact ⟨valueOf_inDomain hw hr hi, valueOf_inDomain hw' hr' hi'⟩

/-- Settles O35. -/
theorem rippleAdderIsAddAndSub : Obligations.RippleAdderIsAddAndSub := by
  intro s t rd ra rb sub hs ha hb hia hib
  rw [exec_addSub, binaryFinite_ok _ hs ha hb hia hib,
    rippleRecord_eq_res (hs.2.1 ra) (hs.2.1 rb) ha hb hia hib]
  cases hres : res s.cfg t (sumOf sub (valueOf s.cfg t (s.reg ra)) (valueOf s.cfg t (s.reg rb)))
      ((s.reg ra).err || (s.reg rb).err ||
        overflows s.cfg t (sumOf sub (valueOf s.cfg t (s.reg ra)) (valueOf s.cfg t (s.reg rb)))) with
  | ok v => exact command_ok hs.1 rfl
  | error k => exact command_error hs.1 rfl

end Sys2Proof.Machine
end


section
/-! PROOFS. The word-level division (46_divide.md R187, R188): the 3-by-2 trial digit, one digit of the long division with
its add-back, the whole digit loop on a normalised divisor, and the normalisation. -/

namespace Sys2Proof.Machine

variable {b u2 u1 u0 v1 v0 q r Q : Nat}

/-! ### The trial digit -/

/-- The refinement loop reaches the true quotient `Q` when it starts at most `fuel` above it: `r` is the remainder of the
digit by the top Word, so the loop stops exactly at a digit whose product fits. -/
theorem refineDigit_eq (hv0 : v0 < b) (hv : 0 < v1 * b + v0)
    (hQ : (u2 * b ^ 2 + u1 * b + u0) / (v1 * b + v0) = Q) : ∀ {fuel q r : Nat},
    q * v1 + r = u2 * b + u1 → q < b → Q ≤ q → q ≤ Q + fuel → refineDigit b u0 v1 v0 fuel q r = Q
  | 0, q, r, _, _, hge, hle => by
    rw [refineDigit]
    exact le_antisymm hle hge
  | fuel + 1, q, r, hsplit, hq, hge, hle => by
    have hprod : q * (v1 * b + v0) + (r * b + u0) = (u2 * b ^ 2 + u1 * b + u0) + q * v0 := by
      calc q * (v1 * b + v0) + (r * b + u0) = (q * v1 + r) * b + u0 + q * v0 := by ring
        _ = _ := by rw [hsplit]; ring
    rw [refineDigit]
    split
    case isTrue h =>
      have hlt : Q < q := by
        rw [← hQ, Nat.div_lt_iff_lt_mul hv]
        omega
      obtain ⟨q', rfl⟩ : ∃ q', q = q' + 1 := ⟨q - 1, by omega⟩
      refine refineDigit_eq hv0 hv hQ ?_ (by omega) (by omega) (by omega)
      rw [Nat.add_sub_cancel, ← hsplit]
      ring
    case isFalse h =>
      refine le_antisymm ?_ hge
      rw [← hQ, Nat.le_div_iff_mul_le hv]
      obtain hr | hr := lt_or_ge r b
      · have : q * v0 ≤ r * b + u0 := not_lt.1 fun hlt => h ⟨hr, hlt⟩
        omega
      · have h1 : q * v0 ≤ b * b := Nat.mul_le_mul hq.le hv0.le
        have h2 : b * b ≤ r * b := Nat.mul_le_mul_right b hr
        omega

/-- A digit whose product with the top Word fits is at most 2 above the 3-by-2 quotient, for a normalised divisor. -/
theorem trial_le_add_two (hv0 : v0 < b) (hv1 : b ≤ 2 * v1) (hv : 0 < v1 * b + v0) (hq : q < b)
    (hsplit : q * v1 + r = u2 * b + u1) :
    q ≤ (u2 * b ^ 2 + u1 * b + u0) / (v1 * b + v0) + 2 := by
  obtain hsmall | hlarge := Nat.lt_or_ge q 2
  · exact (Nat.le_of_lt hsmall).trans (Nat.le_add_left _ _)
  obtain ⟨q', rfl⟩ : ∃ q', q = q' + 2 := ⟨q - 2, by omega⟩
  refine Nat.add_le_add_right ((Nat.le_div_iff_mul_le hv).2 ?_) 2
  have h1 : q' * v0 ≤ b * b := Nat.mul_le_mul (by omega) hv0.le
  have h2 : b * b ≤ 2 * v1 * b := Nat.mul_le_mul_right b hv1
  calc q' * (v1 * b + v0) = q' * v1 * b + q' * v0 := by ring
    _ ≤ q' * v1 * b + 2 * v1 * b := by omega
    _ = (q' + 2) * v1 * b := by ring
    _ ≤ ((q' + 2) * v1 + r) * b + u0 := by rw [Nat.add_mul _ r]; omega
    _ = u2 * b ^ 2 + u1 * b + u0 := by rw [hsplit]; ring

/-- The digit from which the refinement starts, with the remainder by the top Word. -/
def startDigit (b u2 u1 v1 : Nat) : Nat × Nat := if u2 = v1 then (b - 1, u1 + v1) else div2by1 b u2 u1 v1

theorem startDigit_spec (hb : 2 ≤ b) (hu1 : u1 < b) (hu0 : u0 < b) (hv0 : v0 < b) (hv1 : b ≤ 2 * v1)
    (hlt : u2 * b + u1 < v1 * b + v0) :
    (startDigit b u2 u1 v1).1 * v1 + (startDigit b u2 u1 v1).2 = u2 * b + u1 ∧ (startDigit b u2 u1 v1).1 < b ∧
      (u2 * b ^ 2 + u1 * b + u0) / (v1 * b + v0) ≤ (startDigit b u2 u1 v1).1 := by
  have hv : 0 < v1 * b + v0 := by omega
  have htop : u2 ≤ v1 := by
    by_contra h
    have := Nat.mul_le_mul_right b (not_le.1 h)
    rw [Nat.succ_mul] at this
    omega
  rw [startDigit]
  split
  case isTrue heq =>
    subst heq
    refine ⟨?_, by simp; omega, ?_⟩
    · obtain ⟨b', rfl⟩ : ∃ b', b = b' + 1 := ⟨b - 1, by omega⟩
      simp only [Nat.add_sub_cancel]
      ring
    · refine Nat.le_sub_one_of_lt ((Nat.div_lt_iff_lt_mul hv).2 ?_)
      calc u2 * b ^ 2 + u1 * b + u0 < (u2 * b + u1 + 1) * b := by
            rw [Nat.add_mul, Nat.add_mul, pow_two, ← mul_assoc]; omega
        _ ≤ (u2 * b + v0) * b := Nat.mul_le_mul_right b hlt
        _ = b * (u2 * b + v0) := Nat.mul_comm _ _
  case isFalse hne =>
    have hpos : 0 < v1 := by omega
    refine ⟨by rw [Nat.mul_comm]; exact Nat.div_add_mod _ _, ?_, ?_⟩
    · refine (Nat.div_lt_iff_lt_mul hpos).2 ?_
      have := Nat.mul_le_mul_right b (lt_of_le_of_ne htop hne)
      rw [Nat.succ_mul] at this
      rw [Nat.mul_comm b v1]
      omega
    · refine Nat.le_of_lt_succ ((Nat.div_lt_iff_lt_mul hv).2 ?_)
      have hnext : u2 * b + u1 + 1 ≤ ((u2 * b + u1) / v1 + 1) * v1 := by
        have := Nat.lt_mul_div_succ (u2 * b + u1) hpos
        rwa [Nat.mul_comm v1] at this
      calc u2 * b ^ 2 + u1 * b + u0 < (u2 * b + u1 + 1) * b := by
            rw [Nat.add_mul, Nat.add_mul, pow_two, ← mul_assoc]; omega
        _ ≤ ((u2 * b + u1) / v1 + 1) * v1 * b := Nat.mul_le_mul_right b hnext
        _ ≤ ((u2 * b + u1) / v1 + 1) * (v1 * b + v0) := by rw [Nat.mul_assoc, Nat.mul_add]; omega

/-- Settles O54. -/
theorem trialDigitIsTheQuotient : Obligations.TrialDigitIsTheQuotient := by
  intro b u2 u1 u0 v1 v0 hb _ hu1 hu0 _ hv0 hv1 hle
  have hv : 0 < v1 * b + v0 := by
    have : 1 * 1 ≤ v1 * b := Nat.mul_le_mul (by omega) (by omega)
    omega
  rw [div3by2]
  split
  case isTrue h =>
    have heq : u2 * b + u1 = v1 * b + v0 := le_antisymm hle h
    have hval : u2 * b ^ 2 + u1 * b + u0 = (v1 * b + v0) * b + u0 := by rw [← heq]; ring
    rw [hval, Nat.mul_add_div hv, Nat.min_eq_left ((Nat.sub_le b 1).trans (Nat.le_add_right b _))]
  case isFalse h =>
    obtain ⟨hsplit, hq, hge⟩ := startDigit_spec (u0 := u0) hb hu1 hu0 hv0 hv1 (not_le.1 h)
    rw [Nat.min_eq_right (by omega)]
    exact refineDigit_eq hv0 hv rfl hsplit hq hge (trial_le_add_two hv0 hv1 hv hq hsplit)

/-! ### One digit of the long division -/

section
variable {m vn p j un : Nat}

/-- A divisor of `m + 2` Words whose top Word has its top bit set. -/
structure Normalised (b m vn : Nat) : Prop where
  base : 2 ≤ b
  lt : vn < b ^ (m + 2)
  half : b ≤ 2 * (vn / b ^ (m + 1))

theorem Normalised.pow_le (h : Normalised b m vn) : b ^ (m + 1) ≤ vn := by
  have htop : 1 ≤ vn / b ^ (m + 1) := by have := h.base; have := h.half; omega
  have hpos : 0 < b ^ (m + 1) := Nat.pow_pos (by have := h.base; omega)
  simpa using (Nat.le_div_iff_mul_le hpos).1 htop

/-- A number below `b^(m+3)`, by its three top Words and the rest. -/
theorem three_words_eq (b m p : Nat) :
    p / b ^ (m + 2) * b ^ 2 + p / b ^ (m + 1) % b * b + p / b ^ m % b = p / b ^ m := by
  have h1 : p / b ^ (m + 1) = p / b ^ m / b := by rw [pow_succ, Nat.div_div_eq_div_mul]
  have h2 : p / b ^ (m + 2) = p / b ^ m / b / b := by rw [pow_succ, ← Nat.div_div_eq_div_mul, h1]
  have e1 := Nat.div_add_mod (p / b ^ m) b
  have e2 := Nat.div_add_mod (p / b ^ m / b) b
  rw [h1, h2]
  calc p / b ^ m / b / b * b ^ 2 + p / b ^ m / b % b * b + p / b ^ m % b
      = b * (b * (p / b ^ m / b / b) + p / b ^ m / b % b) + p / b ^ m % b := by ring
    _ = p / b ^ m := by rw [e2, e1]

theorem two_words_eq (b m p : Nat) : p / b ^ (m + 1) * b + p / b ^ m % b = p / b ^ m := by
  rw [pow_succ, ← Nat.div_div_eq_div_mul, Nat.mul_comm]
  exact Nat.div_add_mod _ _

/-- The 3-by-2 quotient is at least the quotient digit and at most one above it (46_divide.md R187). -/
theorem trial_bounds (h : Normalised b m vn) (hp : p < vn * b) :
    p / vn ≤ min (b - 1) (p / b ^ m / (vn / b ^ m)) ∧ min (b - 1) (p / b ^ m / (vn / b ^ m)) ≤ p / vn + 1 := by
  have hb := h.base
  have hbm : 0 < b ^ m := by positivity
  have hle := h.pow_le
  have hvn : 0 < vn := lt_of_lt_of_le (by positivity) hle
  have hv2 : 0 < vn / b ^ m :=
    Nat.div_pos ((Nat.pow_le_pow_right (by omega) (Nat.le_succ m)).trans hle) hbm
  constructor
  · refine le_min (Nat.le_sub_one_of_lt ((Nat.div_lt_iff_lt_mul hvn).2 (by rwa [Nat.mul_comm]))) ?_
    rw [Nat.le_div_iff_mul_le hv2, Nat.le_div_iff_mul_le hbm, Nat.mul_assoc]
    exact (Nat.mul_le_mul_left _ (Nat.div_mul_le_self vn _)).trans (Nat.div_mul_le_self p vn)
  · obtain hzero | hpos := Nat.eq_zero_or_pos (min (b - 1) (p / b ^ m / (vn / b ^ m)))
    · rw [hzero]
      exact Nat.zero_le _
    generalize hT : min (b - 1) (p / b ^ m / (vn / b ^ m)) = T at hpos ⊢
    obtain ⟨T', rfl⟩ : ∃ T', T = T' + 1 := ⟨T - 1, by omega⟩
    refine Nat.add_le_add_right ((Nat.le_div_iff_mul_le hvn).2 ?_) 1
    have hTb : T' + 1 ≤ b := by omega
    have hTq : (T' + 1) * (vn / b ^ m) ≤ p / b ^ m := (Nat.le_div_iff_mul_le hv2).1 (hT ▸ Nat.min_le_right _ _)
    have hTp : (T' + 1) * (vn / b ^ m) * b ^ m ≤ p := (Nat.le_div_iff_mul_le hbm).1 hTq
    have hsplit : vn = vn / b ^ m * b ^ m + vn % b ^ m := (Nat.div_add_mod' vn _).symm
    have hmod : (T' + 1) * (vn % b ^ m) ≤ b * b ^ m := Nat.mul_le_mul hTb (Nat.mod_lt vn hbm).le
    have hsum : (T' + 1) * vn ≤ p + vn := by
      calc (T' + 1) * vn = (T' + 1) * (vn / b ^ m) * b ^ m + (T' + 1) * (vn % b ^ m) := by
            conv_lhs => rw [hsplit]
            ring
        _ ≤ p + b * b ^ m := Nat.add_le_add hTp hmod
        _ = p + b ^ (m + 1) := by rw [pow_succ']
        _ ≤ p + vn := Nat.add_le_add_left hle p
    rw [Nat.add_mul, Nat.one_mul] at hsum
    omega

/-- The trial digit of the top Words of a remainder below `vn * b`. -/
theorem trial_eq (h : Normalised b m vn) (hp : p < vn * b) :
    div3by2 b (p / b ^ (m + 2)) (p / b ^ (m + 1) % b) (p / b ^ m % b) (vn / b ^ (m + 1)) (vn / b ^ m % b) =
      min (b - 1) (p / b ^ m / (vn / b ^ m)) := by
  obtain ⟨hb, hvn, hhalf⟩ := h
  have hb0 : 0 < b := by omega
  have hu2 : p / b ^ (m + 2) < b := by
    rw [Nat.div_lt_iff_lt_mul (by positivity), Nat.mul_comm]
    exact hp.trans_le (Nat.mul_le_mul_right b hvn.le)
  have hv1 : vn / b ^ (m + 1) < b := by
    rw [Nat.div_lt_iff_lt_mul (by positivity), ← pow_succ']
    exact hvn
  have htop : p / b ^ (m + 2) * b + p / b ^ (m + 1) % b ≤ vn / b ^ (m + 1) * b + vn / b ^ m % b := by
    rw [two_words_eq b (m + 1) p, two_words_eq b m vn]
    calc p / b ^ (m + 1) ≤ vn * b / b ^ (m + 1) := Nat.div_le_div_right hp.le
      _ = vn / b ^ m := by rw [pow_succ, Nat.mul_div_mul_right _ _ hb0]
  have h := trialDigitIsTheQuotient b (p / b ^ (m + 2)) (p / b ^ (m + 1) % b) (p / b ^ m % b) (vn / b ^ (m + 1))
    (vn / b ^ m % b) hb hu2 (Nat.mod_lt _ hb0) (Nat.mod_lt _ hb0) hv1 (Nat.mod_lt _ hb0) hhalf htop
  rwa [three_words_eq, two_words_eq b m vn] at h

/-- Multiply and subtract, with the divisor added back on a borrow, from a trial digit that is the quotient or one above
it: the digit becomes the quotient and the partial remainder the remainder. -/
theorem add_back_spec {T K : Nat} (hvn : 0 < vn) (hK : vn < K) (hlo : p / vn ≤ T) (hhi : T ≤ p / vn + 1) :
    (if decide (p < T * vn) then T - 1 else T) = p / vn ∧
      (p + K - T * vn + (if decide (p < T * vn) then vn else 0)) % K = p % vn := by
  have hsplit : p / vn * vn + p % vn = p := Nat.div_add_mod' p vn
  have hmod := Nat.mod_lt p hvn
  have hrem : p % vn < K := by omega
  obtain rfl | rfl : T = p / vn ∨ T = p / vn + 1 := by omega
  · have hno : ¬p < p / vn * vn := by omega
    rw [decide_eq_false hno]
    refine ⟨rfl, ?_⟩
    rw [show p + K - p / vn * vn + (if false = true then vn else 0) = p % vn + K by
      simp only [Bool.false_eq_true, if_false]; omega, Nat.add_mod_right, Nat.mod_eq_of_lt hrem]
  · have hmul : (p / vn + 1) * vn = p / vn * vn + vn := Nat.succ_mul _ _
    rw [decide_eq_true (by omega : p < (p / vn + 1) * vn)]
    refine ⟨rfl, ?_⟩
    rw [show p + K - (p / vn + 1) * vn + (if true = true then vn else 0) = p % vn + K by
      simp only [if_true]; omega, Nat.add_mod_right, Nat.mod_eq_of_lt hrem]

/-- Word `j + i` of a number is Word `i` of the number without its low `j` Words. -/
theorem wordAt_add (b u i j : Nat) : wordAt b u (j + i) = u / b ^ j / b ^ i % b := by
  rw [wordAt, pow_add, Nat.div_div_eq_div_mul]

/-- One digit of the long division of a remainder below the divisor's next multiple. -/
theorem divDigit_eq (h : Normalised b m vn) (hun : un < vn * b ^ (j + 1)) :
    divDigit b (m + 2) vn j un = (un / b ^ j / vn, un % b ^ j + un / b ^ j % vn * b ^ j) := by
  have hb := h.base
  have hbj : 0 < b ^ j := by positivity
  have hvn : 0 < vn := lt_of_lt_of_le (by positivity) h.pow_le
  have hp : un / b ^ j < vn * b := by
    rw [Nat.div_lt_iff_lt_mul hbj, Nat.mul_assoc, ← pow_succ']
    exact hun
  have hmul : vn * b < b ^ (m + 2) * b := Nat.mul_lt_mul_of_pos_right h.lt (by omega)
  have hK : vn < b ^ (m + 2 + 1) := h.lt.trans (Nat.pow_lt_pow_right (by omega) (Nat.lt_succ_self _))
  have hpart : un / b ^ j % b ^ (m + 2 + 1) = un / b ^ j := Nat.mod_eq_of_lt (hp.trans (pow_succ b (m + 2) ▸ hmul))
  have htop : un / b ^ j / b ^ (m + 2) < b := by
    rw [Nat.div_lt_iff_lt_mul (by positivity), Nat.mul_comm]
    exact hp.trans hmul
  have hvtop : vn / b ^ (m + 1) < b := by
    rw [Nat.div_lt_iff_lt_mul (by positivity), ← pow_succ']
    exact h.lt
  have hrest : un / b ^ (j + (m + 2) + 1) = 0 := by
    rw [Nat.add_assoc, pow_add, ← Nat.div_div_eq_div_mul, pow_succ, ← Nat.div_div_eq_div_mul]
    exact Nat.div_eq_of_lt htop
  obtain ⟨hlo, hhi⟩ := trial_bounds h hp
  obtain ⟨hdigit, hrem⟩ := add_back_spec hvn hK hlo hhi
  have htrial : div3by2 b (wordAt b un (j + (m + 2))) (wordAt b un (j + (m + 2) - 1)) (wordAt b un (j + (m + 2) - 2))
      (wordAt b vn (m + 2 - 1)) (wordAt b vn (m + 2 - 2)) = min (b - 1) (un / b ^ j / b ^ m / (vn / b ^ m)) := by
    rw [show j + (m + 2) - 1 = j + (m + 1) by omega, show j + (m + 2) - 2 = j + m by omega,
      show m + 2 - 1 = m + 1 by omega, Nat.add_sub_cancel, wordAt_add, wordAt_add, wordAt_add, wordAt, wordAt,
      Nat.mod_eq_of_lt htop, Nat.mod_eq_of_lt hvtop]
    exact trial_eq h hp
  simp only [divDigit, htrial, hpart, hrest, hdigit, hrem, Nat.zero_mul, Nat.add_zero]

/-- The digits of the long division are the quotient, and the running remainder ends as the remainder. -/
theorem divDigits_eq (h : Normalised b m vn) : ∀ {k un : Nat}, un < vn * b ^ k →
    divDigits b (m + 2) vn k un = (un / vn, un % vn)
  | 0, un, hun => by
    have hlt : un < vn := by simpa using hun
    rw [divDigits, Nat.div_eq_of_lt hlt, Nat.mod_eq_of_lt hlt]
  | k + 1, un, hun => by
    have hb := h.base
    have hbk : 0 < b ^ k := by positivity
    have hvn : 0 < vn := lt_of_lt_of_le (by positivity) h.pow_le
    have hnext : un % b ^ k + un / b ^ k % vn * b ^ k < vn * b ^ k := by
      have := Nat.mul_le_mul_right (b ^ k) (Nat.mod_lt (un / b ^ k) hvn)
      rw [Nat.succ_mul] at this
      have := Nat.mod_lt un hbk
      omega
    have hsplit : un = (un % b ^ k + un / b ^ k % vn * b ^ k) + vn * (un / b ^ k / vn * b ^ k) := by
      calc un = b ^ k * (un / b ^ k) + un % b ^ k := (Nat.div_add_mod un _).symm
        _ = b ^ k * (vn * (un / b ^ k / vn) + un / b ^ k % vn) + un % b ^ k := by
          rw [Nat.div_add_mod (un / b ^ k) vn]
        _ = _ := by ring
    rw [divDigits, divDigit_eq h hun]
    simp only [divDigits_eq h hnext]
    refine Prod.ext ?_ ?_
    · conv_rhs => rw [hsplit, Nat.add_mul_div_left _ _ hvn]
      exact Nat.add_comm _ _
    · conv_rhs => rw [hsplit, Nat.add_mul_mod_self_left]

end

/-! ### Short division -/

theorem shortDiv_eq (b d : Nat) (hd : 0 < d) : ∀ us : List Nat, shortDiv b d us = (natOf b us / d, natOf b us % d)
  | [] => by simp [shortDiv]
  | u :: us => by
    have hsplit : u + b * natOf b us = (natOf b us % d * b + u) + d * (b * (natOf b us / d)) := by
      calc u + b * natOf b us = u + b * (d * (natOf b us / d) + natOf b us % d) := by rw [Nat.div_add_mod]
        _ = _ := by ring
    rw [shortDiv, shortDiv_eq b d hd us, natOf_cons, hsplit, Nat.add_mul_div_left _ _ hd, Nat.add_mul_mod_self_left]
    rfl

/-! ### Normalisation -/

/-- The distance that brings the top bit of a Word to its top (46_divide.md R187). -/
def normShift (c : Config) (w : Nat) : Nat := c.W - 1 - w.log2

section
variable {c : Config} {us vs : List Nat} {w m : Nat}

theorem normShift_bounds (hw : w < c.B) (hne : w ≠ 0) :
    c.B ≤ 2 * (w * 2 ^ normShift c w) ∧ (w + 1) * 2 ^ normShift c w ≤ c.B := by
  have hlog : w.log2 < c.W := (Nat.log2_lt hne).2 hw
  have hlo : 2 ^ w.log2 ≤ w := Nat.log2_self_le hne
  have hhi : w + 1 ≤ 2 ^ (w.log2 + 1) := Nat.lt_log2_self
  have hpow : 2 ^ (w.log2 + 1) * 2 ^ normShift c w = c.B := by
    rw [← pow_add, Config.B, normShift]
    congr 1
    omega
  refine ⟨?_, hpow ▸ Nat.mul_le_mul_right _ hhi⟩
  calc c.B = 2 * (2 ^ w.log2 * 2 ^ normShift c w) := by rw [← hpow, pow_succ]; ring
    _ ≤ 2 * (w * 2 ^ normShift c w) := Nat.mul_le_mul_left _ (Nat.mul_le_mul_right _ hlo)

/-- The number of a body by its top Word. -/
theorem natOf_top_bounds (hvs : ∀ v ∈ vs, v < c.B) (hl : vs.length = m + 1) :
    vs.getLastD 0 * c.B ^ m ≤ natOf c.B vs ∧ natOf c.B vs < (vs.getLastD 0 + 1) * c.B ^ m := by
  have hne : vs ≠ [] := List.length_pos_iff.1 (by omega)
  have hsplit := List.dropLast_append_getLast hne
  have hdl : vs.dropLast.length = m := by simp [hl]
  have hlow := natOf_lt (b := c.B) (ws := vs.dropLast) fun v hv => hvs v (List.mem_of_mem_dropLast hv)
  have hlast : vs.getLastD 0 = vs.getLast hne := by
    rw [List.getLastD_eq_getLast?, List.getLast?_eq_some_getLast hne]
    rfl
  have hval : natOf c.B vs = natOf c.B vs.dropLast + c.B ^ m * vs.getLastD 0 := by
    rw [hlast]
    conv_lhs => rw [← hsplit, natOf_append, hdl]
    simp
  rw [hdl] at hlow
  rw [hval, Nat.add_mul, Nat.one_mul, Nat.mul_comm (c.B ^ m)]
  omega

/-- The shifted divisor is normalised. -/
theorem normalised_shift (hvs : ∀ v ∈ vs, v < c.B) (hl : vs.length = m + 2) (htop : vs.getLastD 0 ≠ 0) :
    Normalised c.B m (natOf c.B vs * 2 ^ normShift c (vs.getLastD 0)) := by
  have hlt : vs.getLastD 0 < c.B := by
    rw [getLastD_eq_getD, List.getD_eq_getElem _ _ (by omega)]
    exact hvs _ (List.getElem_mem _)
  obtain ⟨hlo, hhi⟩ := normShift_bounds hlt htop
  obtain ⟨hvlo, hvhi⟩ := natOf_top_bounds hvs hl
  generalize vs.getLastD 0 = w at *
  have hpow : 0 < c.B ^ (m + 1) := Nat.pow_pos c.B_pos
  refine ⟨by have := c.B_ge; omega, ?_, ?_⟩
  · calc natOf c.B vs * 2 ^ normShift c w < (w + 1) * c.B ^ (m + 1) * 2 ^ normShift c w :=
          Nat.mul_lt_mul_of_pos_right hvhi (by positivity)
      _ = (w + 1) * 2 ^ normShift c w * c.B ^ (m + 1) := by ring
      _ ≤ c.B * c.B ^ (m + 1) := Nat.mul_le_mul_right _ hhi
      _ = c.B ^ (m + 2) := (pow_succ' _ _).symm
  · refine hlo.trans (Nat.mul_le_mul_left 2 ((Nat.le_div_iff_mul_le hpow).2 ?_))
    calc w * 2 ^ normShift c w * c.B ^ (m + 1) = w * c.B ^ (m + 1) * 2 ^ normShift c w := by ring
      _ ≤ natOf c.B vs * 2 ^ normShift c w := Nat.mul_le_mul_right _ hvlo

/-- The shifted dividend is below the shifted divisor's multiple by the power of the digits. -/
theorem shifted_dividend_lt (hus : ∀ u ∈ us, u < c.B) (hvs : ∀ v ∈ vs, v < c.B) (hl : vs.length = m + 2)
    (hlen : vs.length ≤ us.length) (htop : vs.getLastD 0 ≠ 0) :
    natOf c.B us * 2 ^ normShift c (vs.getLastD 0) <
      natOf c.B vs * 2 ^ normShift c (vs.getLastD 0) * c.B ^ (us.length - vs.length + 1) := by
  obtain ⟨hvlo, -⟩ := natOf_top_bounds hvs hl
  have hge : c.B ^ (m + 1) ≤ natOf c.B vs :=
    (Nat.le_mul_of_pos_left _ (Nat.pos_of_ne_zero htop)).trans hvlo
  have hpow : c.B ^ us.length = c.B ^ (m + 1) * c.B ^ (us.length - vs.length + 1) := by
    rw [← pow_add]
    congr 1
    omega
  rw [Nat.mul_right_comm]
  refine Nat.mul_lt_mul_of_pos_right ?_ (by positivity)
  calc natOf c.B us < c.B ^ us.length := natOf_lt hus
    _ = c.B ^ (m + 1) * c.B ^ (us.length - vs.length + 1) := hpow
    _ ≤ natOf c.B vs * c.B ^ (us.length - vs.length + 1) := Nat.mul_le_mul_right _ hge

/-- Long division by two or more Words. -/
theorem udivmod_long (hus : ∀ u ∈ us, u < c.B) (hvs : ∀ v ∈ vs, v < c.B) (hl : vs.length = m + 2)
    (hlen : vs.length ≤ us.length) (htop : vs.getLastD 0 ≠ 0) :
    udivmod c us vs = (natOf c.B us / natOf c.B vs, natOf c.B us % natOf c.B vs) := by
  have hnorm := normalised_shift hvs hl htop
  have hout := divDigits_eq hnorm (shifted_dividend_lt hus hvs hl hlen htop)
  have hpos : 0 < 2 ^ normShift c (vs.getLastD 0) := by positivity
  have hvn : 0 < natOf c.B vs * 2 ^ normShift c (vs.getLastD 0) :=
    lt_of_lt_of_le (Nat.pow_pos c.B_pos) hnorm.pow_le
  have hrem := (Nat.mod_lt (natOf c.B us * 2 ^ normShift c (vs.getLastD 0)) hvn).trans hnorm.lt
  rw [normShift] at hout hpos hrem
  rw [← hl] at hout hrem
  rw [udivmod, if_neg (not_lt.2 hlen), if_neg (by omega)]
  simp only [hout]
  rw [Nat.mod_eq_of_lt hrem, Nat.mul_div_mul_right _ _ hpos, Nat.mul_mod_mul_right, Nat.mul_div_cancel _ hpos]

end

/-- Settles O55. -/
theorem longDivisionDivides : Obligations.LongDivisionDivides := by
  intro c us vs hus hvs hne htop
  obtain ⟨m, hm⟩ := Nat.exists_eq_add_one.2 (List.length_pos_iff.2 hne)
  obtain ⟨hvlo, -⟩ := natOf_top_bounds hvs hm
  have hge : c.B ^ m ≤ natOf c.B vs := (Nat.le_mul_of_pos_left _ (Nat.pos_of_ne_zero htop)).trans hvlo
  obtain hshort | hlong := Nat.lt_or_ge us.length vs.length
  · have hlt : natOf c.B us < natOf c.B vs :=
      (natOf_lt hus).trans_le ((Nat.pow_le_pow_right c.B_pos (by omega)).trans hge)
    rw [udivmod, if_pos hshort, Nat.div_eq_of_lt hlt, Nat.mod_eq_of_lt hlt]
  · cases m with
    | zero =>
      rw [udivmod, if_neg (not_lt.2 hlong), if_pos hm]
      exact shortDiv_eq c.B _ (lt_of_lt_of_le (Nat.pow_pos c.B_pos) hge) us
    | succ m => exact udivmod_long hus hvs hm hlong htop

end Sys2Proof.Machine
end
